-- ==== Sys2Proof/Word.lean ====
section
/-! DEFINITION. The word and byte-string types of the block (00_scope.md R9, R10). -/

namespace Sys2Proof

/-- One 8-bit value of a byte string (R10). -/
abbrev Byte := BitVec 8

/-- One 32-bit word of the register window, or one command word (R204, R300). -/
abbrev Word := BitVec 32

/-- A half-block: a 16-byte string (R10). -/
abbrev Half := Vector Byte 16

/-- A Block: a 32-byte string, byte 0 first (R10). A digest of the hash port has the same size (R211). -/
abbrev Block := Vector Byte 32

end Sys2Proof
end

