-- ==== Sys2Proof/Config.lean ====
section
/-! DEFINITION. What R7 of 00_scope.md fixes, its parameters as an argument of the machine, and the free values the spec
leaves open (93_implementation_defined.md U2, U3). The parameters' default values stand in `Sys2Proof.Machine.params`. -/

namespace Sys2Proof

/-- `DIGIT_BITS` (R7, D2). -/
abbrev Config.digitBits : Nat := 32

/-- `RADIX` = 2^32 (R7). -/
abbrev Config.radix : Nat := 2 ^ 32

/-- The greatest `MAX_DIGITS` (R7, D3): the digit window ends below 0x1000 (R202). -/
abbrev Config.maxDigitsLimit : Nat := 768

/-- `ROUNDS` (R7). -/
abbrev Config.rounds : Nat := 16

/-- `CLUSTER_BLOCKS` (R7). -/
abbrev Config.clusterBlocks : Nat := 128

/-- The bytes of CBUF: `CBUF_BLOCKS` = 129 blocks of 32 bytes (R7, R134). -/
abbrev Config.cbufBytes : Nat := 4128

/-- `DH_BYTES` (R7, D16). -/
abbrev Config.dhBytes : Nat := 192

/-- The size of the register window in bytes (R201). -/
abbrev Config.windowBytes : Nat := 0x4000

/-- The parameters of R7, R8 and R201: what a platform or an implementation chooses. Every rule that depends on one of
them takes them as an argument. -/
structure Params where
  /-- `MAX_DIGITS` (R405, D3). -/
  maxDigits : Nat
  /-- `KARATSUBA_THRESH` (R503, R504, D12): no architectural effect. -/
  karatsubaThresh : Nat
  /-- `HASHLIST_MAX` (R133, R1010, D33). From 2^32 up the counters of R132 can be too narrow (log entry 26). -/
  hashlistMax : Nat
  /-- `CORE_BASE` (R201, D35): the platform address of the register window. -/
  coreBase : Nat
  /-- `SBOX` (R902, D18). -/
  sbox : Byte → Byte
  /-- `ROT_BASE` (R904, D19). -/
  rotBase : Nat
  /-- `KROT_C` (R903, D20). -/
  krotC : Nat → Nat
  /-- `KROT_B` (R903, D20). -/
  krotB : Nat → Nat
  /-- `KROT_R` (R903, D20). -/
  krotR : Nat → Nat
  /-- `HALF_TO_INT` (R901, D17). -/
  halfToInt : Half → BitVec 128
  /-- `INT_TO_HALF`, its inverse (R901). -/
  intToHalf : BitVec 128 → Half
  /-- The hash port `H` (R211, D34). -/
  hash : List Byte → Block

/-- The ranges and forms of the parameters (R7; 93_implementation_defined.md section 2). `HASHLIST_MAX` has
no upper bound there, and none here (log entry 26). -/
structure Params.Valid (p : Params) : Prop where
  maxDigits : 48 ≤ p.maxDigits ∧ p.maxDigits ≤ Config.maxDigitsLimit
  karatsubaThresh : 2 ≤ p.karatsubaThresh
  hashlistMax : 1 ≤ p.hashlistMax
  coreBase : p.coreBase % Config.windowBytes = 0
  sbox : Function.Injective p.sbox
  rotBase : p.rotBase ≤ 127
  krotC : ∀ n, p.krotC n ≤ 127
  krotB : ∀ n, p.krotB n ≤ 127
  krotR : ∀ n, p.krotR n ≤ 127
  intToHalf : ∀ h, p.intToHalf (p.halfToInt h) = h
  halfToInt : ∀ x, p.halfToInt (p.intToHalf x) = x

/-- OPEN (R201, D35): which 16 KiB block of the platform's addresses the window is. The spec gives no default. -/
opaque Config.coreBlock : Nat

/-- FREE VALUE (U3, R134): what byte `j` of CBUF holds after the reset numbered `epoch`, until something writes it. -/
opaque Config.cbufFree (epoch j : Nat) : Byte

/-- FREE VALUE (U2, R214): what the `k`-th read of a register outside the status group returns while BUSY = 1. -/
opaque Config.busyRead (k : Nat) : Word

end Sys2Proof
end

