-- ==== Sys2Proof/Machine/Bytes.lean ====
section
/-! DEFINITION. Byte strings: packing into words, integer encodings, exclusive or, halves and rotation
(00_scope.md R10, R13; 20_memory.md R206, R209; 45_block_cipher.md R900, R908). -/

namespace Sys2Proof.Machine

/-- The little-endian value of a byte string, byte 0 least significant (R10). -/
def leValue (bs : List Byte) : Nat := bs.foldr (fun b acc => b.toNat + 256 * acc) 0

/-- `LE_16(x)` (R10). -/
def le16 (x : BitVec 128) : Half := Vector.ofFn fun i => x.extractLsb' (8 * i.val) 8

/-- `BE_192(v)`: 192 bytes, most significant first (R10, R209). -/
def be192 (v : Nat) : List Byte := (List.range 192).map fun i => BitVec.ofNat 8 (v / 256 ^ (191 - i))

/-- `rotr128(x, n)` (R13). -/
def rotr128 (x : BitVec 128) (n : Nat) : BitVec 128 := x.rotateRight (n % 128)

/-- Byte `i` of a byte string of fixed length; 0 past its end, where no rule reads. -/
def byteOf (v : Vector Byte n) (i : Nat) : Byte := v[i]?.getD 0

/-- Four bytes as a word, `b0` in bits [7:0] (R206). -/
def wordOfBytes (b0 b1 b2 b3 : Byte) : Word := b3 ++ b2 ++ b1 ++ b0

/-- Byte `k` of a word, bits [8k+7 : 8k] (R206). -/
def byteOfWord (w : Word) (k : Nat) : Byte := w.extractLsb' (8 * k) 8

/-- Word `j` of a byte-array register (R206). -/
def getWord (v : Vector Byte n) (j : Nat) : Word :=
  wordOfBytes (byteOf v (4 * j)) (byteOf v (4 * j + 1)) (byteOf v (4 * j + 2)) (byteOf v (4 * j + 3))

/-- A byte-array register with word `j` replaced (R206). -/
def setWord (v : Vector Byte n) (j : Nat) (w : Word) : Vector Byte n :=
  Vector.ofFn fun i => if i.val / 4 = j then byteOfWord w (i.val % 4) else v[i]

/-- `bytes_32(0)` (R10). -/
def zeroBlock : Block := Vector.ofFn fun _ => 0

/-- Sixteen zero bytes. -/
def zeroHalf : Half := Vector.ofFn fun _ => 0

/-- `xor(X, Y)`, byte by byte (R10, R908, R909). -/
def xorBytes (x y : Vector Byte n) : Vector Byte n := Vector.ofFn fun i => x[i] ^^^ y[i]

/-- `L = X[0..15]` (R900). -/
def leftHalf (x : Block) : Half := Vector.ofFn fun i => x[i.val]

/-- `R = X[16..31]` (R900). -/
def rightHalf (x : Block) : Half := Vector.ofFn fun i => x[16 + i.val]

/-- `L || R` (R900). -/
def joinHalves (l r : Half) : Block :=
  Vector.ofFn fun i => if h : i.val < 16 then l[i.val] else r[i.val - 16]

/-- The little-endian value of 64-bit lane `j` of a Block (R908). -/
def lane (x : Block) (j : Nat) : BitVec 64 := BitVec.ofNat 64 (leValue ((x.toList.drop (8 * j)).take 8))

/-- `ladd(X, Y)`: four lanes, each added modulo 2^64, no carry between them (R908). -/
def laneAdd (x y : Block) : Block :=
  Vector.ofFn fun i => (lane x (i.val / 8) + lane y (i.val / 8)).extractLsb' (8 * (i.val % 8)) 8

end Sys2Proof.Machine
end

