-- ==== Sys2Proof/Machine/Sha256.lean ====
section
/-! DEFINITION. The hash unit behind the hash port: SHA-256 (20_memory.md R211). The spec names the function and does
not define it: this text is PRESUMED from FIPS 180-4 (unsafe; log entry 8). -/

namespace Sys2Proof.Machine

/-- The round constants, eight to a row, the first in the highest 32 bits: the first 32 bits of the fractional parts of the
cube roots of the first 64 primes (test_sha_constants). PRESUMED (FIPS 180-4). -/
def shaConstantRows : List (BitVec 256) := [
  0x428a2f9871374491b5c0fbcfe9b5dba53956c25b59f111f1923f82a4ab1c5ed5,
  0xd807aa9812835b01243185be550c7dc372be5d7480deb1fe9bdc06a7c19bf174,
  0xe49b69c1efbe47860fc19dc6240ca1cc2de92c6f4a7484aa5cb0a9dc76f988da,
  0x983e5152a831c66db00327c8bf597fc7c6e00bf3d5a7914706ca635114292967,
  0x27b70a852e1b21384d2c6dfc53380d13650a7354766a0abb81c2c92e92722c85,
  0xa2bfe8a1a81a664bc24b8b70c76c51a3d192e819d6990624f40e3585106aa070,
  0x19a4c1161e376c082748774c34b0bcb5391c0cb34ed8aa4a5b9cca4f682e6ff3,
  0x748f82ee78a5636f84c878148cc7020890befffaa4506cebbef9a3f7c67178f2]

/-- The round constants in order. -/
def shaK : List Word := shaConstantRows.flatMap fun row => (List.range 8).map fun i => row.extractLsb' (32 * (7 - i)) 32

/-- The eight working words. -/
structure ShaWords where
  a : Word
  b : Word
  c : Word
  d : Word
  e : Word
  f : Word
  g : Word
  h : Word
deriving DecidableEq, Repr

/-- The initial hash value. PRESUMED (FIPS 180-4). -/
def shaInit : ShaWords :=
  ⟨0x6a09e667, 0xbb67ae85, 0x3c6ef372, 0xa54ff53a, 0x510e527f, 0x9b05688c, 0x1f83d9ab, 0x5be0cd19⟩

def shaSmall0 (x : Word) : Word := x.rotateRight 7 ^^^ x.rotateRight 18 ^^^ (x >>> 3)
def shaSmall1 (x : Word) : Word := x.rotateRight 17 ^^^ x.rotateRight 19 ^^^ (x >>> 10)
def shaBig0 (x : Word) : Word := x.rotateRight 2 ^^^ x.rotateRight 13 ^^^ x.rotateRight 22
def shaBig1 (x : Word) : Word := x.rotateRight 6 ^^^ x.rotateRight 11 ^^^ x.rotateRight 25
def shaCh (x y z : Word) : Word := (x &&& y) ^^^ (~~~x &&& z)
def shaMaj (x y z : Word) : Word := (x &&& y) ^^^ (x &&& z) ^^^ (y &&& z)

/-- The message schedule: `win` holds the next sixteen words. -/
def shaSchedule : Nat → List Word → List Word
  | 0, _ => []
  | _ + 1, [] => []
  | n + 1, x :: rest =>
    let win := x :: rest
    let next := shaSmall1 (win.getD 14 0) + win.getD 9 0 + shaSmall0 (win.getD 1 0) + x
    x :: shaSchedule n (rest ++ [next])

/-- One round, on the sum of the round constant and the schedule word. -/
def shaRound (s : ShaWords) (kw : Word) : ShaWords :=
  let t1 := s.h + shaBig1 s.e + shaCh s.e s.f s.g + kw
  let t2 := shaBig0 s.a + shaMaj s.a s.b s.c
  ⟨t1 + t2, s.a, s.b, s.c, s.d + t1, s.e, s.f, s.g⟩

/-- The compression of one 16-word message block. -/
def shaCompress (h : ShaWords) (m : List Word) : ShaWords :=
  let r := (List.zipWith (· + ·) shaK (shaSchedule 64 m)).foldl shaRound h
  ⟨h.a + r.a, h.b + r.b, h.c + r.c, h.d + r.d, h.e + r.e, h.f + r.f, h.g + r.g, h.h + r.h⟩

/-- The padded message: a one bit, zeros, and the length in bits as 8 bytes, most significant first. -/
def shaPad (s : List Byte) : List Byte :=
  s ++ [0x80] ++ List.replicate ((119 - s.length % 64) % 64) 0
    ++ (List.range 8).map fun i => BitVec.ofNat 8 (8 * s.length / 256 ^ (7 - i))

/-- A byte string as big-endian words. -/
def shaToWords : List Byte → List Word
  | b0 :: b1 :: b2 :: b3 :: rest => (b0 ++ b1 ++ b2 ++ b3) :: shaToWords rest
  | _ => []

/-- `n` message blocks in turn. -/
def shaBlocks : Nat → List Word → ShaWords → ShaWords
  | 0, _, h => h
  | n + 1, ws, h => shaBlocks n (ws.drop 16) (shaCompress h (ws.take 16))

/-- A digest: the eight words, each most significant byte first. -/
def shaDigest (h : ShaWords) : Block :=
  Vector.ofFn fun i =>
    ([h.a, h.b, h.c, h.d, h.e, h.f, h.g, h.h].getD (i.val / 4) 0).extractLsb' (24 - 8 * (i.val % 4)) 8

/-- SHA-256 of a byte string (R211). -/
def sha256 (s : List Byte) : Block :=
  let ws := shaToWords (shaPad s)
  shaDigest (shaBlocks (ws.length / 16) ws shaInit)

end Sys2Proof.Machine
end

