-- ==== Sys2Proof/Syntax.lean ====
section
/-! DEFINITION. The command set (30_encoding.md R306): one constructor for every row of the opcode table. -/

namespace Sys2Proof

/-- The seven permanent constant registers, indices 16 to 22 (10_state.md R101). -/
inductive ConstReg where
  | k0 | k1 | k2 | k10 | km1 | kmax | kmin
deriving DecidableEq, Repr

/-- What a 5-bit register field names (R101, R304). -/
inductive RegName where
  /-- B0 to B15. -/
  | general (i : Fin 16)
  /-- K0, K1, K2, K10, KM1, KMAX, KMIN. -/
  | const (c : ConstReg)
  /-- A reserved index, 23 to 31 (R105). -/
  | reserved (n : Nat)
deriving DecidableEq, Repr

/-- A command, with the operands its row of R306 uses, in the order rd, ra, rb, rc. -/
inductive Instr where
  | nop
  | biMov (rd ra : RegName)
  | biLdi (rd : RegName) (imm : Int)
  | biRel (ra : RegName)
  | biLoad (rd : RegName)
  | biStore (ra : RegName)
  | biCmp (ra rb : RegName)
  | biAdd (rd ra rb : RegName)
  | biSub (rd ra rb : RegName)
  | biMul (rd ra rb : RegName)
  | biDiv (rd ra rb : RegName)
  | biMod (rd ra rb : RegName)
  | biModpow (rd ra rb rc : RegName)
  | biModinv (rd ra rb : RegName)
  | keyCommit
  | keyDerive (ra : RegName)
  | rkGen
  | bcEnc
  | bcDec
  | blkXor
  | blkLadd
  | blkCmp
  | stInite
  | stInitd
  | stCluster
  | stFinish
  | stCleanup
deriving DecidableEq, Repr

end Sys2Proof
end

