-- ==== Sys2Proof/Machine/State.lean ====
section
/-! DEFINITION. The state of the machine (10_state.md), the reasons a step can stop, and the state after reset
(R145). -/

namespace Sys2Proof.Machine

/-- The comparison result CMPRES, STATUS[5:4] (R135): 0b00, 0b01, 0b11. -/
inductive CmpRes where
  | equal | greater | less
deriving DecidableEq, Repr

/-- The stream state machine SSTATE, STATUS[14:12] (R130): values 0 to 5. -/
inductive SState where
  | idle | enc | encDone | dec | decDone | finished
deriving DecidableEq, Repr

/-- The error codes 0x00 to 0x0D (60_exceptions.md R1200). -/
inductive ErrCode where
  | noError | illegalOpcode | badRegister | constWrite | emptyOperand | doubleUse | divByZero | notCoprime
  | badOperand | capacity | internal | noKey | state | badLength
deriving DecidableEq, Repr

/-- The BigInt registers and their window (R101 to R107). -/
structure BigRegs where
  /-- B0 to B15: `some v` where valid[i] = 1, `none` where the register holds no value (R103). -/
  gpr : Vector (Option Int) 16
  /-- BIW_SIGN[0], NEG (R107). -/
  winSign : Bool
  /-- BIW_LEN[15:0] (R107). -/
  winLen : BitVec 16
  /-- BIW_DIG[0 .. MAX_DIGITS-1] (R107). MAX_DIGITS is at most 768; the entries from MAX_DIGITS up are no register and
  stay 0. -/
  winDig : Vector Word Config.maxDigitsLimit
deriving DecidableEq, Repr

/-- Control and status (R113 to R118). -/
structure CtlRegs where
  /-- CTRL[0] IE_DONE. -/
  ieDone : Bool
  /-- CTRL[1] IE_ERR. -/
  ieErr : Bool
  /-- STATUS[0] BUSY: a command is in flight; its word is `lastCmd` (R141 (a)). -/
  busy : Bool
  /-- STATUS[1] DONE. -/
  done : Bool
  /-- STATUS[2] ERR. -/
  err : Bool
  /-- STATUS[3] OVR. -/
  ovr : Bool
  /-- STATUS[5:4] CMPRES. -/
  cmpRes : CmpRes
  /-- LASTCMD (R115). -/
  lastCmd : Word
  /-- ERRCODE[7:0] (R116). -/
  errCode : ErrCode
  /-- ERRCMD (R117). -/
  errCmd : Word
  /-- CMDCOUNT (R118). -/
  cmdCount : Word
deriving DecidableEq, Repr

/-- The session key and the registers of the stand-alone cipher commands (R120, R125 to R127). -/
structure CipherRegs where
  /-- KEY (R120). -/
  key : Block
  /-- STATUS[6] KEYVALID. -/
  keyValid : Bool
  /-- BLK (R125). -/
  blk : Block
  /-- BLK2 (R125). -/
  blk2 : Block
  /-- RKEY (R126). -/
  rkey : Half
  /-- IDX_CLUSTER[31:0] (R127). -/
  idxCluster : Word
  /-- IDX_BLOCK[7:0] (R127). -/
  idxBlock : BitVec 8
  /-- IDX_ROUND[4:0] (R127). -/
  idxRound : BitVec 5
deriving DecidableEq, Repr

/-- The streaming state (R121 to R124, R130 to R133, R136). -/
structure StreamRegs where
  /-- STATUS[14:12] SSTATE. -/
  sstate : SState
  /-- STATUS[7] AUTH_OK. -/
  authOk : Bool
  /-- STATUS[8] AUTH_VALID. -/
  authValid : Bool
  /-- STATUS[9] PADERR. -/
  padErr : Bool
  /-- IV (R121). -/
  iv : Block
  /-- CV (R122). -/
  cv : Block
  /-- TRAILER (R123). -/
  trailer : Block
  /-- RXTRAILER (R124). -/
  rxTrailer : Block
  /-- ST_LEN (R131). -/
  len : BitVec 64
  /-- ST_NBLK (R132). -/
  nblk : BitVec 64
  /-- ST_CIDX (R132). -/
  cidx : Word
  /-- ST_NCLUST (R132). -/
  nclust : Word
  /-- ST_BLOCKS (R132). -/
  blocks : Word
  /-- ST_OUTLEN (R132). -/
  outLen : Word
  /-- ST_OFF (R132). -/
  off : BitVec 64
  /-- ST_PAD[15:8], the pad offset (R132). -/
  padOff : Byte
  /-- ST_PAD[7:0], the pad count byte (R132). -/
  padCount : Byte
  /-- ST_REALLEN (R132). -/
  realLen : BitVec 64
  /-- ST_TOTAL (R132). -/
  total : BitVec 64
  /-- ST_LPAD (R132). -/
  lpad : BitVec 64
  /-- ST_HCOUNT (R132). -/
  hcount : Word
  /-- The cluster-hash list HL, oldest first (R133). -/
  hashes : List Block
deriving DecidableEq, Repr

/-- One host access, at a platform address, of `size` bytes (R11, R201, R204). -/
inductive HostAccess where
  | read (addr size : Nat)
  | write (addr size : Nat) (value : Word)
deriving DecidableEq, Repr

/-- What happens next (R100): the model's own, an input. -/
inductive Turn where
  /-- The host makes one access. -/
  | host (a : HostAccess)
  /-- The engine, if a command is in flight, completes it. -/
  | engine
  /-- The platform asserts and releases the reset input (R1300). -/
  | powerOn
deriving DecidableEq, Repr

/-- The MODEL's own fields: no register of the spec. -/
structure Port where
  /-- The turns to come, the next one first (log entry 2). -/
  turns : List Turn
  /-- The words that host reads have returned, the latest first. -/
  replies : List Word
  /-- How many reads have drawn the free value of U2 (log entry 5). -/
  busyReads : Nat
  /-- How many resets have been since the first: which free contents CBUF has (U3; log entry 4). -/
  resets : Nat
deriving DecidableEq, Repr

/-- The machine (10_state.md). -/
structure State where
  /-- BigInt registers and window. -/
  big : BigRegs
  /-- Control and status. -/
  ctl : CtlRegs
  /-- Session key and cipher registers. -/
  cip : CipherRegs
  /-- Streaming state. -/
  str : StreamRegs
  /-- CBUF (R134): the bytes something has written since reset, by byte index 0 to 4127, in rising order. -/
  cbuf : List Host.Cell
  /-- The model's own: turns, replies, counters of free values. -/
  port : Port
deriving DecidableEq, Repr

/-- Why a step stops. -/
inductive Fault where
  /-- Raised by a host access that is not an aligned 32-bit access inside the window (R205, U7): the host's bus
  answers it with a bus error and the block is unchanged. Safe: the spec says to treat it as a fault of the host
  program. -/
  | busError (addr size : Nat)
deriving DecidableEq, Repr

/-- Why a command has no meaning. -/
inductive Refusal where
  /-- Raised by an arm of `exec` that has no meaning yet. Safe. No arm of this model raises it. -/
  | notModelled (mnemonic : String)
deriving DecidableEq, Repr

/-- The BigInt part after reset (R145). -/
def BigRegs.reset : BigRegs where
  gpr := Vector.ofFn fun _ => none
  winSign := false
  winLen := 0
  winDig := Vector.replicate Config.maxDigitsLimit 0

/-- Control and status after reset (R145). -/
def CtlRegs.reset : CtlRegs where
  ieDone := false
  ieErr := false
  busy := false
  done := false
  err := false
  ovr := false
  cmpRes := .equal
  lastCmd := 0
  errCode := .noError
  errCmd := 0
  cmdCount := 0

/-- The cipher part after reset (R145). -/
def CipherRegs.reset : CipherRegs where
  key := zeroBlock
  keyValid := false
  blk := zeroBlock
  blk2 := zeroBlock
  rkey := zeroHalf
  idxCluster := 0
  idxBlock := 0
  idxRound := 0

/-- The streaming part after reset (R145). -/
def StreamRegs.reset : StreamRegs where
  sstate := .idle
  authOk := false
  authValid := false
  padErr := false
  iv := zeroBlock
  cv := zeroBlock
  trailer := zeroBlock
  rxTrailer := zeroBlock
  len := 0
  nblk := 0
  cidx := 0
  nclust := 0
  blocks := 0
  outLen := 0
  off := 0
  padOff := 0
  padCount := 0
  realLen := 0
  total := 0
  lpad := 0
  hcount := 0
  hashes := []

/-- The machine right after reset (R145, R1301). CBUF lists nothing: every byte holds the free value of U3. The
fields of `port` are the model's own: DESIGN CHOICE (log entry 24). -/
def State.reset : State where
  big := BigRegs.reset
  ctl := CtlRegs.reset
  cip := CipherRegs.reset
  str := StreamRegs.reset
  cbuf := []
  port := ⟨[], [], 0, 0⟩

end Sys2Proof.Machine
end

