-- ==== Sys2Proof/Machine/Datapath.lean ====
section
/-! DEFINITION. The arithmetic units on digit lists and magnitudes: components (10_state.md R102), normalization
(40_bigint_core.md R407), the adder (41_bigint_addmul.md R500), the multiplier (R503 to R505), the comparison
procedure (R406), the divider (42_bigint_div.md R601), and the exponentiation pipeline and extended Euclid
(43_modexp.md R700, R701). A loop whose end the spec leaves to the numbers runs on a count of steps that suffices
(log entry 15). -/

namespace Sys2Proof.Machine

/-- The number of bits of a magnitude. -/
def bitLength (n : Nat) : Nat := if n = 0 then 0 else n.log2 + 1

/-- `ncomp(v)` of a magnitude (R102). -/
def ncomp (n : Nat) : Nat := max 1 ((bitLength n + 31) / 32)

/-- Component `i` of a magnitude; 0 past the last one (R102). -/
def comp (n i : Nat) : Nat := n / 2 ^ (32 * i) % 2 ^ 32

/-- The component list of a magnitude, least significant first (R102). -/
def comps (n : Nat) : List Nat := (List.range (ncomp n)).map (comp n)

/-- The value of a component list (R102). -/
def compsValue (ds : List Nat) : Nat := ds.foldr (fun d acc => d + 2 ^ 32 * acc) 0

/-- A sign and a component list, as the units pass values (R102). -/
structure SignedComps where
  /-- The sign is -1. -/
  neg : Bool
  /-- The components, least significant first. -/
  mag : List Nat
deriving DecidableEq, Repr

/-- The integer of a sign and components. -/
def SignedComps.value (x : SignedComps) : Int :=
  if x.neg then -(compsValue x.mag : Int) else (compsValue x.mag : Int)

/-- The normal form of an integer (R102, R106). -/
def normalForm (v : Int) : SignedComps := ⟨decide (v < 0), comps v.natAbs⟩

/-- Carry propagation: the digits in `[0, 2^32)`, and the carry out of the last one (R407). -/
def propagate : List Int → Int → List Nat × Int
  | [], c => ([], c)
  | x :: xs, c =>
    let t := x + c
    let r := propagate xs (t / 2 ^ 32)
    ((t % 2 ^ 32).toNat :: r.1, r.2)

/-- Removal of leading zero components, all but the single zero of the value 0 (R407). -/
def stripZeros : List Nat → List Nat
  | [] => [0]
  | d :: ds =>
    match stripZeros ds with
    | [0] => [d]
    | r => d :: r

/-- Normalization of a signed component list (R407): carries; a negative final carry makes the sign -1 and the
components are borrowed across all positions; leading zeros go; `-0` becomes `0`. -/
def normalize (xs : List Int) : SignedComps :=
  let p := propagate xs 0
  if 0 ≤ p.2 then ⟨false, stripZeros (p.1 ++ [p.2.toNat])⟩
  else
    let q := propagate (p.1.map fun d => -(d : Int)) 0
    ⟨true, stripZeros (q.1 ++ [(q.2 - p.2).toNat])⟩

/-- The sign of an integer as the units use it: -1 or +1. -/
def signFactor (v : Int) : Int := if v < 0 then -1 else 1

/-- The adder (R500): component sums over the longer operand, normalized; `sub` negates the second operand. -/
def adderUnit (sub : Bool) (a b : Int) : SignedComps :=
  let sa := signFactor a
  let sb := if sub then -signFactor b else signFactor b
  normalize ((List.range (max (ncomp a.natAbs) (ncomp b.natAbs))).map fun i =>
    sa * (comp a.natAbs i : Int) + sb * (comp b.natAbs i : Int))

/-- A carry added to a component list (R503). -/
def addCarry : List Nat → Nat → List Nat
  | [], c => [c]
  | x :: xs, c => (x + c) % 2 ^ 32 :: addCarry xs ((x + c) / 2 ^ 32)

/-- One row of the schoolbook multiplier: `acc + a * d`, component by component, normalized (R503). -/
def mulRow : List Nat → List Nat → Nat → Nat → List Nat
  | acc, [], _, c => addCarry acc c
  | [], y :: ys, d, c => (y * d + c) % 2 ^ 32 :: mulRow [] ys d ((y * d + c) / 2 ^ 32)
  | x :: xs, y :: ys, d, c => (x + y * d + c) % 2 ^ 32 :: mulRow xs ys d ((x + y * d + c) / 2 ^ 32)

/-- The rows for the components of the second factor, each one position higher (R503). -/
def mulRows : List Nat → List Nat → List Nat → List Nat
  | acc, _, [] => acc
  | acc, ys, d :: ds =>
    match mulRow acc ys d 0 with
    | [] => 0 :: mulRows [] ys ds
    | x :: xs => x :: mulRows xs ys ds

/-- The schoolbook product of two magnitudes (R503). -/
def schoolbook (a b : Nat) : Nat := compsValue (mulRows [] (comps a) (comps b))

/-- The multiplier on magnitudes (R503, R504): schoolbook below the threshold, Karatsuba at or above it. `fuel` bounds
the depth of the recursion. -/
def mulMag (thresh : Nat) : Nat → Nat → Nat → Nat
  | 0, a, b => schoolbook a b
  | fuel + 1, a, b =>
    if min (ncomp a) (ncomp b) < thresh then schoolbook a b
    else
      let r := 2 ^ (32 * (max (ncomp a) (ncomp b) / 2))
      let hh := mulMag thresh fuel (a / r) (b / r)
      let ll := mulMag thresh fuel (a % r) (b % r)
      let mid := mulMag thresh fuel (a / r + a % r) (b / r + b % r)
      hh * r ^ 2 + (mid - hh - ll) * r + ll

/-- The multiplier (R503 to R505): the magnitudes' product, its sign the exclusive or of the signs, a zero product +0. -/
def mulUnit (thresh : Nat) (a b : Int) : Int :=
  let m := mulMag thresh (ncomp a.natAbs + ncomp b.natAbs) a.natAbs b.natAbs
  if (decide (a < 0)) != (decide (b < 0)) then -(m : Int) else (m : Int)

/-- The first difference of two component lists from the most significant down (R406). -/
def compareDown : List Nat → List Nat → CmpRes
  | x :: xs, y :: ys => if x = y then compareDown xs ys else if x > y then .greater else .less
  | _, _ => .equal

/-- The order of two magnitudes: component count, then components from the most significant down (R406). -/
def compareMag (a b : Nat) : CmpRes :=
  if ncomp a > ncomp b then .greater
  else if ncomp a < ncomp b then .less
  else compareDown (comps a).reverse (comps b).reverse

/-- The comparison procedure of the document (R406): sign first, then the magnitudes, in reverse when both values are
negative. -/
def compareUnit (a b : Int) : CmpRes :=
  if 0 ≤ a ∧ b < 0 then .greater
  else if a < 0 ∧ 0 ≤ b then .less
  else if a < 0 then compareMag b.natAbs a.natAbs
  else compareMag a.natAbs b.natAbs

/-- Single-digit long division (R601), from the most significant component down: quotient and remainder. -/
def longDivDigits : List Nat → Nat → Nat → Nat → Nat × Nat
  | [], _, q, r => (q, r)
  | x :: xs, d, q, r => longDivDigits xs d (q * 2 ^ 32 + (r * 2 ^ 32 + x) / d) ((r * 2 ^ 32 + x) % d)

/-- The top component (R601). -/
def topComp (n : Nat) : Nat := comp n (ncomp n - 1)

/-- The scale exponent: the least `k`, 0 to 16, that brings the top component to at least 2^16 (R601, C12). -/
def scaleExp (d : Nat) : Nat :=
  ((List.range 17).find? fun k => decide (2 ^ 16 ≤ topComp (d * 2 ^ k))).getD 16

/-- The converging approximation (R601). `fuel` bounds the depth of the recursion. -/
def approxQuot : Nat → Nat → Nat → Int
  | 0, _, _ => 0
  | fuel + 1, n, d =>
    let e : Nat := n / (topComp d * 2 ^ (32 * (ncomp d - 1)))
    let x : Int := (e : Int) * d - n
    if x < d then (if x ≤ 0 then (e : Int) else (e : Int) - 1)
    else (e : Int) - approxQuot fuel x.toNat d

/-- `while r < 0: q <- q - 1 ; r <- r + D` (R601). -/
def correctDown : Nat → Int → Int → Nat → Int × Int
  | 0, q, r, _ => (q, r)
  | fuel + 1, q, r, d => if r < 0 then correctDown fuel (q - 1) (r + d) d else (q, r)

/-- `while r >= D: q <- q + 1 ; r <- r - D` (R601). -/
def correctUp : Nat → Int → Int → Nat → Int × Int
  | 0, q, r, _ => (q, r)
  | fuel + 1, q, r, d => if (d : Int) ≤ r then correctUp fuel (q + 1) (r - d) d else (q, r)

/-- The quotient and remainder of the converging divider, both correction loops run (R601). -/
def convergeDiv (n d : Nat) : Int × Int :=
  let s := 2 ^ scaleExp d
  let q := approxQuot (bitLength (n * s) + 1) (n * s) (d * s)
  let r := (n : Int) - q * d
  let down := correctDown (r.natAbs + 1) q r d
  correctUp (down.2.natAbs + 1) down.1 down.2 d

/-- The divider on magnitudes (R601), with the invariant check of R704: INTERNAL where the remainder is not in
`[0, D)`. `d` is not 0. -/
def divmag (n d : Nat) : Except ErrCode (Nat × Nat) :=
  if n = 0 then .ok (0, 0)
  else if n < d then .ok (0, n)
  else if n = d then .ok (1, 0)
  else if ncomp d = 1 then .ok (longDivDigits (comps n).reverse d 0 0)
  else
    let qr := convergeDiv n d
    if 0 ≤ qr.2 ∧ qr.2 < d then .ok (qr.1.toNat, qr.2.toNat) else .error .internal

/-- `tdiv(a, b)` (R600): the quotient rounded toward zero. -/
def tdiv (a b : Int) : Int := a.sign * b.sign * ((a.natAbs / b.natAbs : Nat) : Int)

/-- `emod(a, b)` (R600): the residue in `[0, |b|)`. -/
def emod (a b : Int) : Int := a - b.natAbs * Int.fdiv a b.natAbs

/-- The loop of the exponentiation pipeline (R700). `fuel` is the number of bits of the exponent. -/
def powLoop : Nat → Nat → Nat → Nat → Nat → Nat
  | 0, acc, _, _, _ => acc
  | fuel + 1, acc, base, e, m =>
    if e = 0 then acc
    else
      let acc' := if e % 2 = 1 then acc * base % m else acc
      let e' := e / 2
      let base' := if 0 < e' then base * base % m else base
      powLoop fuel acc' base' e' m

/-- `powmod(a, e, m)` (R700). -/
def powmod (a e m : Nat) : Nat := powLoop (bitLength e) (1 % m) a e m

/-- Extended Euclid on non-negative inputs (R701), with the invariant check of R704. `fuel` bounds the recursion. -/
def egcdSteps : Nat → Int → Int → Except ErrCode (Int × Int × Int)
  | 0, _, _ => .error .internal
  | fuel + 1, a, b =>
    if b = 0 then .ok (a, 1, 0)
    else
      let q := a / b
      let r := a - q * b
      if r < 0 then .error .internal
      else
        match egcdSteps fuel b r with
        | .error code => .error code
        | .ok (g, x1, y1) => .ok (g, y1, x1 - q * y1)

/-- Extended Euclid with the sign correction of negative inputs (R701): `g`, `x`, `y` with `a*x + b*y = g`. -/
def egcd (a b : Int) : Except ErrCode (Int × Int × Int) :=
  match egcdSteps (2 * bitLength b.natAbs + 2) a.natAbs b.natAbs with
  | .error code => .error code
  | .ok (g, x, y) => .ok (g, if a < 0 then -x else x, if b < 0 then -y else y)

/-- `modinv(a, m)` (R701): NOT_COPRIME where the gcd is not 1. -/
def modinv (a m : Int) : Except ErrCode Int :=
  match egcd (emod a m) m with
  | .error code => .error code
  | .ok (g, x, _) => if g = 1 then .ok (emod x m) else .error .notCoprime

end Sys2Proof.Machine
end

