-- ==== Sys2Proof/Machine/Memory.lean ====
section
/-! DEFINITION. The cluster buffer CBUF (10_state.md R134; 20_memory.md R207): the operations over its bytes.

The list holds the bytes something has written since reset. A byte it does not list has no known value (U3): reading
it gives the free value of that reset and that byte, the same at every read until it is written (log entries 3, 4). -/

namespace Sys2Proof.Machine

/-- The byte something has written at index `j`, if any. -/
def Cbuf.lookup : List Host.Cell → Nat → Option Byte
  | [], _ => none
  | (a, b) :: rest, j => if a = j then some b else Cbuf.lookup rest j

/-- CBUF byte `j` (R207): the written byte, or the free value of U3. -/
def Cbuf.byteAt (resets : Nat) (m : List Host.Cell) (j : Nat) : Byte :=
  (Cbuf.lookup m j).getD (Config.cbufFree resets j)

/-- `bs` as cells from index `a` up. -/
def Cbuf.cells : Nat → List Byte → List Host.Cell
  | _, [] => []
  | a, b :: bs => (a, b) :: Cbuf.cells (a + 1) bs

/-- CBUF with `bs` written from index `a` up. -/
def Cbuf.write (m : List Host.Cell) (a : Nat) (bs : List Byte) : List Host.Cell :=
  m.filter (fun c => decide (c.1 < a)) ++ Cbuf.cells a bs ++ m.filter (fun c => decide (a + bs.length ≤ c.1))

/-- `CBUF[a .. a+len-1]`. -/
def Cbuf.read (resets : Nat) (m : List Host.Cell) (a len : Nat) : List Byte :=
  (List.range len).map fun i => Cbuf.byteAt resets m (a + i)

/-- `CBUF.block(i)`: bytes 32i to 32i+31 (R207). -/
def Cbuf.block (resets : Nat) (m : List Host.Cell) (i : Nat) : Block :=
  Vector.ofFn fun k => Cbuf.byteAt resets m (32 * i + k.val)

/-- Blocks 0 to `n - 1`. -/
def Cbuf.blocks (resets : Nat) (m : List Host.Cell) (n : Nat) : List Block :=
  (List.range n).map (Cbuf.block resets m)

/-- The bytes of a list of blocks, in order. -/
def bytesOfBlocks (bs : List Block) : List Byte := bs.flatMap fun b => b.toList

/-- CBUF with `bs` written over blocks 0, 1, …. -/
def Cbuf.writeBlocks (m : List Host.Cell) (bs : List Block) : List Host.Cell :=
  Cbuf.write m 0 (bytesOfBlocks bs)

/-- The canonical form: indices strictly rising and below 4128. -/
abbrev Memory.wf (m : List Host.Cell) : Prop :=
  m.Pairwise (fun x y => x.1 < y.1) ∧ ∀ c ∈ m, c.1 < Config.cbufBytes

end Sys2Proof.Machine
end

