-- ==== Sys2Proof/Machine/Ops.lean ====
section
/-! DEFINITION. The operations the commands share: acceptance and completion of a command (47_system.md R1100, R1101),
taking an error and returning from it (60_exceptions.md R1202, R1205), reset (R1103), and the updates of registers. -/

namespace Sys2Proof.Machine

/-- What a command's rule gives: the error it raises, or the state with its effect (00_scope.md R12). -/
abbrev CmdResult := Except ErrCode State

/-- Command acceptance (R1100): refused with OVR = 1 while BUSY or ERR, else the command is in flight. -/
def present (w : Word) (s : State) : State :=
  if s.ctl.busy || s.ctl.err then { s with ctl.ovr := true }
  else { s with ctl.lastCmd := w, ctl.done := false, ctl.busy := true }

/-- Completion without error (R1101). -/
def complete (s : State) : State :=
  { s with ctl.busy := false, ctl.done := true, ctl.cmdCount := s.ctl.cmdCount + 1 }

/-- Error entry (R1202): the ONE operation by which a command takes an error. -/
def raiseError (code : ErrCode) (s : State) : State :=
  { s with
    ctl.err := true
    ctl.errCode := if s.ctl.errCode = .noError then code else s.ctl.errCode
    ctl.errCmd := if s.ctl.errCode = .noError then s.ctl.lastCmd else s.ctl.errCmd
    ctl.busy := false }

/-- Return from an error: CTRL.ERRCLR with the enables of the same write (R1104, R1205). -/
def errClear (ieDone ieErr : Bool) (s : State) : State :=
  { s with
    ctl.err := false
    ctl.ovr := false
    ctl.errCode := .noError
    ctl.errCmd := 0
    ctl.ieDone := ieDone
    ctl.ieErr := ieErr }

/-- Reset (R1103, R1300): every piece of the block's state takes its reset value. The model's own fields stay, and
CBUF takes new free contents (log entries 4, 17). -/
def resetBlock (s : State) : State :=
  { State.reset with port := { s.port with resets := s.port.resets + 1 } }

/-- A refused host write (R1106): nothing changes but OVR. -/
def refuseWrite (s : State) : State := { s with ctl.ovr := true }

/-- The end of an accepted command (R1101, R1202, R1203): the effect and the completion, or the error entry on the
state the command found. -/
def finishCommand (s : State) (r : CmdResult) : Host.Outcome State Fault Refusal :=
  match r with
  | .ok t => .next (complete t)
  | .error code => .next (raiseError code s)

/-- CMPRES <- r (R135). -/
def setCmpRes (r : CmpRes) (s : State) : State := { s with ctl.cmpRes := r }

/-- B[i] <- v with valid[i] <- 1 (R402). -/
def writeGpr (i : Fin 16) (v : Int) (s : State) : State :=
  { s with big.gpr := s.big.gpr.set i.val (some v) }

/-- valid[i] <- 0 (R403, R414): the register holds no value. -/
def clearGpr (i : Fin 16) (s : State) : State :=
  { s with big.gpr := s.big.gpr.set i.val none }

/-- KEY <- k with KEYVALID <- 1 (R802). -/
def establishKey (k : Block) (s : State) : State := { s with cip.key := k, cip.keyValid := true }

/-- BLK <- x. -/
def setBlk (x : Block) (s : State) : State := { s with cip.blk := x }

end Sys2Proof.Machine
end

