-- ==== Sys2Proof/Machine/Operands.lean ====
section
/-! DEFINITION. The register operands of the BigInt commands (40_bigint_core.md R401 to R405). -/

namespace Sys2Proof.Machine

/-- The value of a constant register (10_state.md R101). -/
def constValue : ConstReg → Int
  | .k0 => 0
  | .k1 => 1
  | .k2 => 2
  | .k10 => 10
  | .km1 => -1
  | .kmax => 2 ^ 31 - 1
  | .kmin => -(2 ^ 31)

/-- What a register name holds: nothing where valid = 0 or the index is reserved (R101, R103, R105). -/
def readReg (s : State) : RegName → Option Int
  | .general i => s.big.gpr[i.val]
  | .const c => some (constValue c)
  | .reserved _ => none

/-- `B[r]`. The preamble has made sure that the register holds a value. -/
def regValue (s : State) (r : RegName) : Int := (readReg s r).getD 0

/-- An index 23 to 31 (R105). -/
def isReserved : RegName → Bool
  | .reserved _ => true
  | _ => false

/-- An index 16 to 22 (R104). -/
def isConst : RegName → Bool
  | .const _ => true
  | _ => false

/-- A general register that holds no value (R103). -/
def isEmpty (s : State) : RegName → Bool
  | .general i => (s.big.gpr[i.val]).isNone
  | _ => false

/-- Two of the sources name the same general register (R404). -/
def usesTwice : List RegName → Bool
  | [] => false
  | r :: rest => ((!isConst r) && (!isReserved r) && rest.contains r) || usesTwice rest

/-- The operand preamble (R401): the first check that fails, in the order of R401 and R1204. -/
def preamble (s : State) (dst : Option RegName) (srcs : List RegName) (consuming : Bool) : Option ErrCode :=
  if (dst.toList ++ srcs).any isReserved then some .badRegister
  else if dst.any isConst then some .constWrite
  else if srcs.any (isEmpty s) then some .emptyOperand
  else if consuming && usesTwice srcs then some .doubleUse
  else none

/-- `body`, if the preamble finds no error. -/
def withOperands (s : State) (dst : Option RegName) (srcs : List RegName) (consuming : Bool) (body : CmdResult) :
    CmdResult :=
  match preamble s dst srcs consuming with
  | some code => .error code
  | none => body

/-- A consumed source: a general register holds no value afterwards, a constant stays (R402, R403). -/
def consume (s : State) (r : RegName) : State :=
  match r with
  | .general i => clearGpr i s
  | _ => s

/-- A register written with a value. The preamble has made sure that it is general (R104, R105). -/
def writeReg (s : State) (r : RegName) (v : Int) : State :=
  match r with
  | .general i => writeGpr i v s
  | _ => s

/-- `2^(32 * MAX_DIGITS)` (R405), as `RADIX ^ MAX_DIGITS`. -/
def capacityBound (p : Params) : Nat := Config.radix ^ p.maxDigits

/-- The destination write (R402): CAPACITY, else the sources are consumed and then `dst` receives the result. -/
def commit (p : Params) (s : State) (dst : RegName) (v : Int) (consumed : List RegName) : CmdResult :=
  if capacityBound p ≤ v.natAbs then .error .capacity
  else .ok (writeReg (consumed.foldl consume s) dst v)

end Sys2Proof.Machine
end

