-- ==== Sys2Proof/Machine/AddMul.lean ====
section
/-! DEFINITION. BI.ADD, BI.SUB and BI.MUL (41_bigint_addmul.md R501, R502, R506). The commands compute on integers
(R400, R507); the units' datapaths stand in Datapath.lean. -/

namespace Sys2Proof.Machine

/-- The rule of BI.ADD (R501). -/
def addRule (p : Params) (rd ra rb : RegName) (s : State) : CmdResult :=
  withOperands s (some rd) [ra, rb] true <| commit p s rd (regValue s ra + regValue s rb) [ra, rb]

/-- BI.ADD (R501). -/
def execBiAdd (rd ra rb : RegName) (s : State) : Host.Outcome State Fault Refusal :=
  finishCommand s (addRule params rd ra rb s)

/-- The rule of BI.SUB (R502). -/
def subRule (p : Params) (rd ra rb : RegName) (s : State) : CmdResult :=
  withOperands s (some rd) [ra, rb] true <| commit p s rd (regValue s ra - regValue s rb) [ra, rb]

/-- BI.SUB (R502). -/
def execBiSub (rd ra rb : RegName) (s : State) : Host.Outcome State Fault Refusal :=
  finishCommand s (subRule params rd ra rb s)

/-- The multiplier at this block's threshold (R503, R504): the product whatever the threshold, so that BI.MUL, whose rule
is on integers (R400, R507), does not depend on it. -/
def multiplier (p : Params) (a b : Int) : Int := mulUnit p.karatsubaThresh a b

/-- The rule of BI.MUL (R506). -/
def mulRule (p : Params) (rd ra rb : RegName) (s : State) : CmdResult :=
  withOperands s (some rd) [ra, rb] true <| commit p s rd (regValue s ra * regValue s rb) [ra, rb]

/-- BI.MUL (R506). -/
def execBiMul (rd ra rb : RegName) (s : State) : Host.Outcome State Fault Refusal :=
  finishCommand s (mulRule params rd ra rb s)

end Sys2Proof.Machine
end

