-- ==== Sys2Proof/Machine/Flags.lean ====
section
/-! DEFINITION. Flag computations and the words that show them: CMPRES (10_state.md R135), STATUS (R114), BI_VALID
(R108), the error codes (60_exceptions.md R1200) and the interrupt output (R1207). -/

namespace Sys2Proof.Machine

/-- BI.CMP's result: the sign of the difference (R406, R415). -/
def cmpInts (a b : Int) : CmpRes := if a - b = 0 then .equal else if a - b > 0 then .greater else .less

/-- BLK.CMP's result: equality only (R908, R915). -/
def cmpBlocks (x y : Block) : CmpRes := if x = y then .equal else .greater

/-- The encoding of CMPRES (R135). -/
def CmpRes.bits : CmpRes → Nat
  | .equal => 0
  | .greater => 1
  | .less => 3

/-- The encoding of SSTATE (R130). -/
def SState.bits : SState → Nat
  | .idle => 0
  | .enc => 1
  | .encDone => 2
  | .dec => 3
  | .decDone => 4
  | .finished => 5

/-- The number of an error code (R1200). -/
def ErrCode.bits : ErrCode → Nat
  | .noError => 0x00
  | .illegalOpcode => 0x01
  | .badRegister => 0x02
  | .constWrite => 0x03
  | .emptyOperand => 0x04
  | .doubleUse => 0x05
  | .divByZero => 0x06
  | .notCoprime => 0x07
  | .badOperand => 0x08
  | .capacity => 0x09
  | .internal => 0x0A
  | .noKey => 0x0B
  | .state => 0x0C
  | .badLength => 0x0D

/-- A flag as bit `k` of a word. -/
def flagAt (f : Bool) (k : Nat) : Nat := if f then 2 ^ k else 0

/-- STATUS as the host reads it: reserved bits 0 (R114). -/
def statusWord (s : State) : Word :=
  BitVec.ofNat 32 (flagAt s.ctl.busy 0 + flagAt s.ctl.done 1 + flagAt s.ctl.err 2 + flagAt s.ctl.ovr 3
    + s.ctl.cmpRes.bits * 2 ^ 4 + flagAt s.cip.keyValid 6 + flagAt s.str.authOk 7 + flagAt s.str.authValid 8
    + flagAt s.str.padErr 9 + s.str.sstate.bits * 2 ^ 12)

/-- CTRL as the host reads it: SOFTRST, ERRCLR and the reserved bits read 0 (R113). -/
def ctrlWord (s : State) : Word := BitVec.ofNat 32 (flagAt s.ctl.ieDone 0 + flagAt s.ctl.ieErr 1)

/-- valid[i] (R103). -/
def validBit (s : State) (i : Fin 16) : Bool := (s.big.gpr[i.val]).isSome

/-- BI_VALID: the sixteen valid bits, then seven ones for the constants (R108). -/
def biValidWord (s : State) : Word :=
  BitVec.ofNat 32 ((List.finRange 16).foldr (fun i acc => flagAt (validBit s i) i.val + acc) (0x7F * 2 ^ 16))

/-- The interrupt output (R1207). -/
def irq (s : State) : Bool := (s.ctl.done && s.ctl.ieDone) || (s.ctl.err && s.ctl.ieErr)

end Sys2Proof.Machine
end

