-- ==== Sys2Proof/Machine/BigIntCore.lean ====
section
/-! DEFINITION. Movement, load, store, release and comparison of BigInt values (40_bigint_core.md R410 to R415). -/

namespace Sys2Proof.Machine

/-- The rule of BI.MOV (R410). -/
def movRule (rd ra : RegName) (s : State) : CmdResult :=
  withOperands s (some rd) [ra] false <| .ok (writeReg s rd (regValue s ra))

/-- BI.MOV (R410). -/
def execBiMov (rd ra : RegName) (s : State) : Host.Outcome State Fault Refusal := finishCommand s (movRule rd ra s)

/-- The rule of BI.LDI (R413). -/
def ldiRule (p : Params) (rd : RegName) (imm : Int) (s : State) : CmdResult :=
  withOperands s (some rd) [] false <| commit p s rd imm []

/-- BI.LDI (R413). -/
def execBiLdi (rd : RegName) (imm : Int) (s : State) : Host.Outcome State Fault Refusal :=
  finishCommand s (ldiRule params rd imm s)

/-- The rule of BI.REL (R414). -/
def relRule (ra : RegName) (s : State) : CmdResult :=
  match ra with
  | .reserved _ => .error .badRegister
  | .const _ => .ok s
  | .general i => if (s.big.gpr[i.val]).isNone then .error .emptyOperand else .ok (clearGpr i s)

/-- BI.REL (R414). -/
def execBiRel (ra : RegName) (s : State) : Host.Outcome State Fault Refusal := finishCommand s (relRule ra s)

/-- The magnitude staged in the window: the components below BIW_LEN (R107, R411). -/
def stagedMagnitude (b : BigRegs) : Nat := compsValue ((b.winDig.toList.take b.winLen.toNat).map fun d => d.toNat)

/-- The staged value; a negative zero is 0 (R107, R411). -/
def stagedValue (b : BigRegs) : Int :=
  if b.winSign then -(stagedMagnitude b : Int) else (stagedMagnitude b : Int)

/-- The rule of BI.LOAD (R411). -/
def loadRule (p : Params) (rd : RegName) (s : State) : CmdResult :=
  withOperands s (some rd) [] false <|
    if p.maxDigits < s.big.winLen.toNat then .error .badOperand else commit p s rd (stagedValue s.big) []

/-- BI.LOAD (R411). -/
def execBiLoad (rd : RegName) (s : State) : Host.Outcome State Fault Refusal := finishCommand s (loadRule params rd s)

/-- The window holding a value: sign, component count and every digit of it (R412). -/
def storeWindow (p : Params) (v : Int) (b : BigRegs) : BigRegs :=
  { b with
    winSign := decide (v < 0)
    winLen := BitVec.ofNat 16 (ncomp v.natAbs)
    winDig := Vector.ofFn fun i =>
      if i.val < p.maxDigits then
        if i.val < ncomp v.natAbs then BitVec.ofNat 32 (comp v.natAbs i.val) else 0
      else b.winDig[i.val] }

/-- The rule of BI.STORE (R412). -/
def storeRule (p : Params) (ra : RegName) (s : State) : CmdResult :=
  withOperands s none [ra] false <| .ok { s with big := storeWindow p (regValue s ra) s.big }

/-- BI.STORE (R412). -/
def execBiStore (ra : RegName) (s : State) : Host.Outcome State Fault Refusal :=
  finishCommand s (storeRule params ra s)

/-- The rule of BI.CMP (R415). -/
def cmpRule (ra rb : RegName) (s : State) : CmdResult :=
  withOperands s none [ra, rb] false <| .ok (setCmpRes (cmpInts (regValue s ra) (regValue s rb)) s)

/-- BI.CMP (R415). -/
def execBiCmp (ra rb : RegName) (s : State) : Host.Outcome State Fault Refusal := finishCommand s (cmpRule ra rb s)

end Sys2Proof.Machine
end

