-- ==== Sys2Proof/Machine/Cipher.lean ====
section
/-! DEFINITION. The Feistel block cipher and its round keys, for any cipher parameters (45_block_cipher.md R903 to
R906). -/

namespace Sys2Proof.Machine

/-- `RK(K, c, b, r)` (R903). -/
def roundKey (p : Params) (k : Block) (c b r : Nat) : Half :=
  let kl := p.halfToInt (leftHalf k)
  let kr := p.halfToInt (rightHalf k)
  let t := rotr128 kl (p.krotC c) ^^^ rotr128 kr (p.krotB b)
  p.intToHalf (rotr128 t (p.krotR r))

/-- `F(X, K, c, b, r)` (R904). -/
def roundF (p : Params) (x : Half) (k : Block) (c b r : Nat) : Half :=
  let rk := roundKey p k c b r
  let s : Half := Vector.ofFn fun i => p.sbox (x[i] ^^^ rk[i])
  p.intToHalf (rotr128 (p.halfToInt s) (p.rotBase + r))

/-- Round `r` of either direction: an even round updates L, an odd one R (R905, R906). -/
def feistelRound (p : Params) (k : Block) (c b r : Nat) (lr : Half × Half) : Half × Half :=
  if r % 2 = 0 then (xorBytes lr.1 (roundF p lr.2 k c b r), lr.2)
  else (lr.1, xorBytes lr.2 (roundF p lr.1 k c b r))

/-- The rounds in the order listed. -/
def feistelRounds (p : Params) (k : Block) (c b : Nat) (rs : List Nat) (lr : Half × Half) : Half × Half :=
  rs.foldl (fun acc r => feistelRound p k c b r acc) lr

/-- `E(P, K, c, b)`: rounds 0 to 15, no final swap (R905). -/
def encryptBlock (p : Params) (x k : Block) (c b : Nat) : Block :=
  let lr := feistelRounds p k c b (List.range Config.rounds) (leftHalf x, rightHalf x)
  joinHalves lr.1 lr.2

/-- `D(C, K, c, b)`: rounds 15 down to 0 (R906). -/
def decryptBlock (p : Params) (x k : Block) (c b : Nat) : Block :=
  let lr := feistelRounds p k c b (List.range Config.rounds).reverse (leftHalf x, rightHalf x)
  joinHalves lr.1 lr.2

/-- CBC encryption of blocks `i`, `i + 1`, … of cluster `c` (R1002): the ciphertext blocks. -/
def cbcEncrypt (p : Params) (k : Block) (c : Nat) : Nat → Block → List Block → List Block
  | _, _, [] => []
  | i, prev, x :: xs =>
    let y := encryptBlock p (xorBytes x prev) k c i
    y :: cbcEncrypt p k c (i + 1) y xs

/-- CBC decryption of blocks `i`, `i + 1`, … of cluster `c` (R1003): the plaintext blocks. -/
def cbcDecrypt (p : Params) (k : Block) (c : Nat) : Nat → Block → List Block → List Block
  | _, _, [] => []
  | i, prev, y :: ys => xorBytes (decryptBlock p y k c i) prev :: cbcDecrypt p k c (i + 1) y ys

/-- The chaining value carried on: the last ciphertext block (R1002, R1003). -/
def lastBlock (cv : Block) (ys : List Block) : Block := ys.getLastD cv

end Sys2Proof.Machine
end

