-- ==== Sys2Proof/Machine/BlockCipher.lean ====
section
/-! DEFINITION. The stand-alone cipher and block commands (45_block_cipher.md R910 to R915). -/

namespace Sys2Proof.Machine

/-- `body`, if a key is established (R800). -/
def withKey (s : State) (body : CmdResult) : CmdResult := if s.cip.keyValid then body else .error .noKey

/-- The rule of RK.GEN (R910). -/
def rkGenRule (p : Params) (s : State) : CmdResult :=
  withKey s <| .ok { s with
    cip.rkey := roundKey p s.cip.key s.cip.idxCluster.toNat s.cip.idxBlock.toNat s.cip.idxRound.toNat }

/-- RK.GEN (R910). -/
def execRkGen (s : State) : Host.Outcome State Fault Refusal := finishCommand s (rkGenRule params s)

/-- The rule of BC.ENC (R911). -/
def bcEncRule (p : Params) (s : State) : CmdResult :=
  withKey s <| .ok <| setBlk (encryptBlock p s.cip.blk s.cip.key s.cip.idxCluster.toNat s.cip.idxBlock.toNat) s

/-- BC.ENC (R911). -/
def execBcEnc (s : State) : Host.Outcome State Fault Refusal := finishCommand s (bcEncRule params s)

/-- The rule of BC.DEC (R912). -/
def bcDecRule (p : Params) (s : State) : CmdResult :=
  withKey s <| .ok <| setBlk (decryptBlock p s.cip.blk s.cip.key s.cip.idxCluster.toNat s.cip.idxBlock.toNat) s

/-- BC.DEC (R912). -/
def execBcDec (s : State) : Host.Outcome State Fault Refusal := finishCommand s (bcDecRule params s)

/-- The rule of BLK.XOR (R913). -/
def blkXorRule (s : State) : CmdResult := .ok (setBlk (xorBytes s.cip.blk s.cip.blk2) s)

/-- BLK.XOR (R913). -/
def execBlkXor (s : State) : Host.Outcome State Fault Refusal := finishCommand s (blkXorRule s)

/-- The rule of BLK.LADD (R914). -/
def blkLaddRule (s : State) : CmdResult := .ok (setBlk (laneAdd s.cip.blk s.cip.blk2) s)

/-- BLK.LADD (R914). -/
def execBlkLadd (s : State) : Host.Outcome State Fault Refusal := finishCommand s (blkLaddRule s)

/-- The rule of BLK.CMP (R915). -/
def blkCmpRule (s : State) : CmdResult := .ok (setCmpRes (cmpBlocks s.cip.blk s.cip.blk2) s)

/-- BLK.CMP (R915). -/
def execBlkCmp (s : State) : Host.Outcome State Fault Refusal := finishCommand s (blkCmpRule s)

end Sys2Proof.Machine
end

