-- ==== Sys2Proof/Machine/KeyDerive.lean ====
section
/-! DEFINITION. KEY.COMMIT and KEY.DERIVE (44_key_derivation.md R801, R802). -/

namespace Sys2Proof.Machine

/-- The rule of KEY.COMMIT (R801). -/
def keyCommitRule (s : State) : CmdResult :=
  if s.str.sstate ≠ .idle then .error .state else .ok { s with cip.keyValid := true }

/-- KEY.COMMIT (R801). -/
def execKeyCommit (s : State) : Host.Outcome State Fault Refusal := finishCommand s (keyCommitRule s)

/-- The secret is in `[0, 2^1536)` (R802). -/
def secretInRange (v : Int) : Bool := decide (0 ≤ v ∧ v < 2 ^ (8 * Config.dhBytes))

/-- The key a secret gives: `H(BE_192(v))` (R802). -/
def derivedKey (p : Params) (v : Int) : Block := p.hash (be192 v.toNat)

/-- The rule of KEY.DERIVE (R802). -/
def keyDeriveRule (p : Params) (ra : RegName) (s : State) : CmdResult :=
  withOperands s none [ra] true <|
    if s.str.sstate ≠ .idle then .error .state
    else if secretInRange (regValue s ra) then .ok (consume (establishKey (derivedKey p (regValue s ra)) s) ra)
    else .error .badOperand

/-- KEY.DERIVE (R802). -/
def execKeyDerive (ra : RegName) (s : State) : Host.Outcome State Fault Refusal :=
  finishCommand s (keyDeriveRule params ra s)

end Sys2Proof.Machine
end

