-- ==== Sys2Proof/Machine/Division.lean ====
section
/-! DEFINITION. BI.DIV and BI.MOD on the divider (42_bigint_div.md R603 to R605). -/

namespace Sys2Proof.Machine

/-- The quotient BI.DIV writes: DIV_BY_ZERO, else the divider's magnitude with the sign of the operands (R604). -/
def quotientOf (a b : Int) : Except ErrCode Int :=
  if b = 0 then .error .divByZero
  else
    match divmag a.natAbs b.natAbs with
    | .error code => .error code
    | .ok (q, _) => .ok (if 0 ≤ a.sign * b.sign then (q : Int) else -(q : Int))

/-- The residue BI.MOD writes (R605). -/
def residueOf (a b : Int) : Except ErrCode Int :=
  if b = 0 then .error .divByZero
  else
    match divmag a.natAbs b.natAbs with
    | .error code => .error code
    | .ok (_, r) => .ok (if 0 ≤ a ∨ r = 0 then (r : Int) else b.natAbs - (r : Int))

/-- `commit`, if a value was computed. -/
def commitValue (p : Params) (s : State) (dst : RegName) (v : Except ErrCode Int) (consumed : List RegName) : CmdResult :=
  match v with
  | .error code => .error code
  | .ok v => commit p s dst v consumed

/-- The rule of BI.DIV (R604). -/
def divRule (p : Params) (rd ra rb : RegName) (s : State) : CmdResult :=
  withOperands s (some rd) [ra, rb] true <| commitValue p s rd (quotientOf (regValue s ra) (regValue s rb)) [ra, rb]

/-- BI.DIV (R604). -/
def execBiDiv (rd ra rb : RegName) (s : State) : Host.Outcome State Fault Refusal :=
  finishCommand s (divRule params rd ra rb s)

/-- The rule of BI.MOD (R605). -/
def modRule (p : Params) (rd ra rb : RegName) (s : State) : CmdResult :=
  withOperands s (some rd) [ra, rb] true <| commitValue p s rd (residueOf (regValue s ra) (regValue s rb)) [ra, rb]

/-- BI.MOD (R605). -/
def execBiMod (rd ra rb : RegName) (s : State) : Host.Outcome State Fault Refusal :=
  finishCommand s (modRule params rd ra rb s)

end Sys2Proof.Machine
end

