-- ==== Sys2Proof/Machine/ModExp.lean ====
section
/-! DEFINITION. BI.MODPOW and BI.MODINV on the pipeline (43_modexp.md R702, R703). -/

namespace Sys2Proof.Machine

/-- The value BI.MODPOW writes (R702). -/
def modpowOf (a e m : Int) : Except ErrCode Int :=
  if m = 0 then .error .divByZero
  else if m < 0 then .error .badOperand
  else
    let v := powmod (emod a m).toNat e.natAbs m.natAbs
    if e < 0 then modinv v m else .ok v

/-- The value BI.MODINV writes (R703). -/
def modinvOf (a m : Int) : Except ErrCode Int :=
  if m = 0 then .error .divByZero
  else if m < 0 then .error .badOperand
  else modinv a m

/-- The rule of BI.MODPOW (R702). -/
def modpowRule (p : Params) (rd ra rb rc : RegName) (s : State) : CmdResult :=
  withOperands s (some rd) [ra, rb, rc] true <|
    commitValue p s rd (modpowOf (regValue s ra) (regValue s rb) (regValue s rc)) [ra, rb, rc]

/-- BI.MODPOW (R702). -/
def execBiModpow (rd ra rb rc : RegName) (s : State) : Host.Outcome State Fault Refusal :=
  finishCommand s (modpowRule params rd ra rb rc s)

/-- The rule of BI.MODINV (R703). -/
def modinvRule (p : Params) (rd ra rb : RegName) (s : State) : CmdResult :=
  withOperands s (some rd) [ra, rb] true <|
    commitValue p s rd (modinvOf (regValue s ra) (regValue s rb)) [ra, rb]

/-- BI.MODINV (R703). -/
def execBiModinv (rd ra rb : RegName) (s : State) : Host.Outcome State Fault Refusal :=
  finishCommand s (modinvRule params rd ra rb s)

end Sys2Proof.Machine
end

