-- ==== Sys2Proof/Machine/Stream.lean ====
section
/-! DEFINITION. The streaming cipher engine (46_stream.md R1000 to R1015). -/

namespace Sys2Proof.Machine

/-- `ceil(a / b)`. -/
def ceilDiv (a b : Nat) : Nat := (a + b - 1) / b

/-- A transfer of `n` real blocks in `k` clusters opened (R1010, R1011): what ST.INITE and ST.INITD write.
DESIGN CHOICE (log entry 26, unsafe): a count too wide for its register, which only a HASHLIST_MAX of 2^32 or more lets
through, is held modulo 2^32 (ST_NCLUST) or 2^64 (ST_LPAD, ST_TOTAL); the spec does not say what such a register holds. -/
def openTransfer (next : SState) (n k realLen lpad : Nat) (s : State) : State :=
  { s with str := { s.str with
      sstate := next
      authOk := false
      authValid := false
      padErr := false
      cv := s.str.iv
      trailer := zeroBlock
      nblk := BitVec.ofNat 64 n
      cidx := 0
      nclust := BitVec.ofNat 32 k
      blocks := 0
      outLen := 0
      off := 0
      padOff := 0
      padCount := 0
      realLen := BitVec.ofNat 64 realLen
      total := BitVec.ofNat 64 (lpad + 64)
      lpad := BitVec.ofNat 64 lpad
      hcount := 0
      hashes := [] } }

/-- The rule of ST.INITE (R1010). -/
def initeRule (p : Params) (s : State) : CmdResult :=
  let l := s.str.len.toNat
  let n := ceilDiv l 32
  let k := ceilDiv n Config.clusterBlocks
  if !s.cip.keyValid then .error .noKey
  else if s.str.sstate ≠ .idle then .error .state
  else if l = 0 then .error .badLength
  else if p.hashlistMax < k then .error .badLength
  else .ok (openTransfer .enc n k l (32 * n) s)

/-- ST.INITE (R1010). -/
def execStInite (s : State) : Host.Outcome State Fault Refusal := finishCommand s (initeRule params s)

/-- The rule of ST.INITD (R1011). -/
def initdRule (p : Params) (s : State) : CmdResult :=
  let lpad := s.str.len.toNat
  let n := lpad / 32
  let k := ceilDiv n Config.clusterBlocks
  if !s.cip.keyValid then .error .noKey
  else if s.str.sstate ≠ .idle then .error .state
  else if lpad = 0 ∨ lpad % 32 ≠ 0 then .error .badLength
  else if p.hashlistMax < k then .error .badLength
  else .ok (openTransfer .dec n k 0 lpad s)

/-- ST.INITD (R1011). -/
def execStInitd (s : State) : Host.Outcome State Fault Refusal := finishCommand s (initdRule params s)

/-- `n`: the real blocks of the next cluster (R1001, R1012). -/
def realBlocks (s : State) : Nat := min Config.clusterBlocks (s.str.nblk.toNat - Config.clusterBlocks * s.str.cidx.toNat)

/-- `final`: the next cluster is the last one (R1001, R1012). -/
def isFinal (s : State) : Bool := decide (s.str.nblk.toNat ≤ Config.clusterBlocks * (s.str.cidx.toNat + 1))

/-- `m`: the blocks of the next cluster, the pad block among them (R1001, R1017). -/
def clusterSize (s : State) : Nat := if isFinal s then realBlocks s + 1 else realBlocks s

/-- `H(CBUF[0 .. 32 n - 1])` (R1007). -/
def clusterHash (p : Params) (s : State) (m : List Host.Cell) (n : Nat) : Block :=
  p.hash (Cbuf.read s.port.resets m 0 (32 * n))

/-- `H(CBUF.block(n - 1))[0] mod 32` (R1004, R1009). -/
def padOffset (p : Params) (s : State) (m : List Host.Cell) (n : Nat) : Nat :=
  (byteOf (p.hash (Cbuf.block s.port.resets m (n - 1)).toList) 0).toNat % 32

/-- CBUF with the tail of the last real block zeroed on the final cluster (R1004, R1012). -/
def zeroTail (s : State) : List Host.Cell :=
  let rest := s.str.realLen.toNat % 32
  if isFinal s ∧ rest ≠ 0 then
    Cbuf.write s.cbuf (32 * (realBlocks s - 1) + rest) (List.replicate (32 - rest) 0)
  else s.cbuf

/-- CBUF as it is encrypted: the tail zeroed and, on the final cluster, the count in the pad block (R1004, R1012). -/
def plainCluster (p : Params) (s : State) : List Host.Cell :=
  let m := zeroTail s
  if isFinal s then
    Cbuf.write m (32 * realBlocks s + padOffset p s m (realBlocks s)) [BitVec.ofNat 8 (s.str.realLen.toNat % 32)]
  else m

/-- The ciphertext blocks of the next cluster (R1012). -/
def cipherCluster (p : Params) (s : State) : List Block :=
  cbcEncrypt p s.cip.key s.str.cidx.toNat 0 s.str.cv
    (Cbuf.blocks s.port.resets (plainCluster p s) (clusterSize s))

/-- ST.CLUSTER in state ENC (R1012). DESIGN CHOICE (log entry 26): ST_CIDX and ST_HCOUNT go on modulo 2^32, ST_OFF modulo
2^64. -/
def encryptCluster (p : Params) (s : State) : State :=
  let n := realBlocks s
  let ys := cipherCluster p s
  { s with
    cbuf := Cbuf.writeBlocks (plainCluster p s) ys
    str := { s.str with
      hashes := s.str.hashes ++ [clusterHash p s (zeroTail s) n]
      hcount := s.str.hcount + 1
      padOff := if isFinal s then BitVec.ofNat 8 (padOffset p s (zeroTail s) n) else s.str.padOff
      padCount := if isFinal s then BitVec.ofNat 8 (s.str.realLen.toNat % 32) else s.str.padCount
      cv := lastBlock s.str.cv ys
      blocks := BitVec.ofNat 32 (clusterSize s)
      outLen := BitVec.ofNat 32 (32 * clusterSize s)
      off := s.str.off + BitVec.ofNat 64 (32 * n)
      cidx := s.str.cidx + 1
      sstate := if isFinal s then .encDone else s.str.sstate } }

/-- The ciphertext blocks the host wrote for the next cluster (R1013). -/
def receivedCluster (s : State) : List Block := Cbuf.blocks s.port.resets s.cbuf (clusterSize s)

/-- CBUF with the next cluster decrypted in place (R1013). -/
def decryptedCbuf (p : Params) (s : State) : List Host.Cell :=
  Cbuf.writeBlocks s.cbuf (cbcDecrypt p s.cip.key s.str.cidx.toNat 0 s.str.cv (receivedCluster s))

/-- `raw`: the count byte of the decrypted pad block (R1009, R1013). -/
def rawCount (p : Params) (s : State) : Byte :=
  Cbuf.byteAt s.port.resets (decryptedCbuf p s) (32 * realBlocks s + padOffset p s (decryptedCbuf p s) (realBlocks s))

/-- `last`: the meaningful bytes of the last real block; a count of 0, or one out of range, is the whole block
(R1009). -/
def lastBytes (raw : Byte) : Nat := if raw.toNat = 0 ∨ 32 ≤ raw.toNat then 32 else raw.toNat

/-- ST.CLUSTER in state DEC (R1013). DESIGN CHOICE (log entry 26): ST_CIDX and ST_HCOUNT go on modulo 2^32, ST_OFF modulo
2^64. -/
def decryptCluster (p : Params) (s : State) : State :=
  let n := realBlocks s
  let m := decryptedCbuf p s
  let last := lastBytes (rawCount p s)
  { s with
    cbuf := m
    str := { s.str with
      cv := lastBlock s.str.cv (receivedCluster s)
      hashes := s.str.hashes ++ [clusterHash p s m n]
      hcount := s.str.hcount + 1
      padErr := if isFinal s ∧ 32 ≤ (rawCount p s).toNat then true else s.str.padErr
      padOff := if isFinal s then BitVec.ofNat 8 (padOffset p s m n) else s.str.padOff
      padCount := if isFinal s then rawCount p s else s.str.padCount
      realLen := if isFinal s then BitVec.ofNat 64 (32 * (s.str.nblk.toNat - 1) + last) else s.str.realLen
      outLen := if isFinal s then BitVec.ofNat 32 (32 * (n - 1) + last) else BitVec.ofNat 32 (32 * n)
      blocks := BitVec.ofNat 32 (clusterSize s)
      off := s.str.off + BitVec.ofNat 64 (32 * n)
      cidx := s.str.cidx + 1
      sstate := if isFinal s then .decDone else s.str.sstate } }

/-- The rule of ST.CLUSTER: SSTATE selects R1012 or R1013. -/
def clusterRule (p : Params) (s : State) : CmdResult :=
  match s.str.sstate with
  | .enc => .ok (encryptCluster p s)
  | .dec => .ok (decryptCluster p s)
  | .idle | .encDone | .decDone | .finished => .error .state

/-- ST.CLUSTER (R1012, R1013). -/
def execStCluster (s : State) : Host.Outcome State Fault Refusal := finishCommand s (clusterRule params s)

/-- The trailer: the hash of the recorded cluster hashes in order (R1008, R1014). -/
def trailerOf (p : Params) (s : State) : Block := p.hash (bytesOfBlocks (s.str.hashes.take s.str.hcount.toNat))

/-- The rule of ST.FINISH (R1014). -/
def finishRule (p : Params) (s : State) : CmdResult :=
  match s.str.sstate with
  | .encDone => .ok { s with str.trailer := trailerOf p s, str.sstate := .finished }
  | .decDone => .ok { s with
      str.trailer := trailerOf p s
      str.authOk := decide (trailerOf p s = s.str.rxTrailer) && !s.str.padErr
      str.authValid := true
      str.sstate := .finished }
  | .idle | .enc | .dec | .finished => .error .state

/-- ST.FINISH (R1014). -/
def execStFinish (s : State) : Host.Outcome State Fault Refusal := finishCommand s (finishRule params s)

/-- The transfer ended (R1015): counters, CV and the hash list cleared; the rest kept. -/
def closeTransfer (s : State) : State :=
  { s with str := { s.str with
      sstate := .idle
      cv := zeroBlock
      nblk := 0
      cidx := 0
      nclust := 0
      blocks := 0
      outLen := 0
      off := 0
      padOff := 0
      padCount := 0
      realLen := 0
      total := 0
      lpad := 0
      hcount := 0
      hashes := [] } }

/-- The rule of ST.CLEANUP (R1015): allowed in every state. -/
def cleanupRule (s : State) : CmdResult := .ok (closeTransfer s)

/-- ST.CLEANUP (R1015). -/
def execStCleanup (s : State) : Host.Outcome State Fault Refusal := finishCommand s (cleanupRule s)

end Sys2Proof.Machine
end

