-- ==== Sys2Proof/Machine/System.lean ====
section
/-! DEFINITION. NOP (47_system.md R1102). -/

namespace Sys2Proof.Machine

/-- The rule of NOP (R1102): no effect but completion. -/
def nopRule (s : State) : CmdResult := .ok s

/-- NOP (R1102). -/
def execNop (s : State) : Host.Outcome State Fault Refusal := finishCommand s (nopRule s)

end Sys2Proof.Machine
end

