-- ==== Sys2Proof/Machine/AnyParams.lean ====
section
/-! DEFINITION. The commands with the parameters of R7, R8 and R211 as an argument (00_scope.md; 10_state.md R100). -/

namespace Sys2Proof.Machine

/-- The rule of each command: the error it raises, or the state with its effect. -/
def commandRule (p : Params) (i : Instr) (s : State) : CmdResult :=
  match i with
  | .nop => nopRule s
  | .biMov rd ra => movRule rd ra s
  | .biLdi rd imm => ldiRule p rd imm s
  | .biRel ra => relRule ra s
  | .biLoad rd => loadRule p rd s
  | .biStore ra => storeRule p ra s
  | .biCmp ra rb => cmpRule ra rb s
  | .biAdd rd ra rb => addRule p rd ra rb s
  | .biSub rd ra rb => subRule p rd ra rb s
  | .biMul rd ra rb => mulRule p rd ra rb s
  | .biDiv rd ra rb => divRule p rd ra rb s
  | .biMod rd ra rb => modRule p rd ra rb s
  | .biModpow rd ra rb rc => modpowRule p rd ra rb rc s
  | .biModinv rd ra rb => modinvRule p rd ra rb s
  | .keyCommit => keyCommitRule s
  | .keyDerive ra => keyDeriveRule p ra s
  | .rkGen => rkGenRule p s
  | .bcEnc => bcEncRule p s
  | .bcDec => bcDecRule p s
  | .blkXor => blkXorRule s
  | .blkLadd => blkLaddRule s
  | .blkCmp => blkCmpRule s
  | .stInite => initeRule p s
  | .stInitd => initdRule p s
  | .stCluster => clusterRule p s
  | .stFinish => finishRule p s
  | .stCleanup => cleanupRule s

/-- The meaning of a command in a block with parameters `p`; `exec` is this at the defaults. -/
def execAt (p : Params) (i : Instr) (s : State) : Host.Outcome State Fault Refusal := finishCommand s (commandRule p i s)

end Sys2Proof.Machine
end

