-- ==== Sys2Proof/Machine/Dispatch.lean ====
section
/-! DEFINITION. The meaning of every command (30_encoding.md R306). -/

namespace Sys2Proof.Machine

def exec (i : Instr) (s : State) : Host.Outcome State Fault Refusal :=
  match i with
  | .nop => Sys2Proof.Machine.execNop s
  | .biMov rd ra => Sys2Proof.Machine.execBiMov rd ra s
  | .biLdi rd imm => Sys2Proof.Machine.execBiLdi rd imm s
  | .biRel ra => Sys2Proof.Machine.execBiRel ra s
  | .biLoad rd => Sys2Proof.Machine.execBiLoad rd s
  | .biStore ra => Sys2Proof.Machine.execBiStore ra s
  | .biCmp ra rb => Sys2Proof.Machine.execBiCmp ra rb s
  | .biAdd rd ra rb => Sys2Proof.Machine.execBiAdd rd ra rb s
  | .biSub rd ra rb => Sys2Proof.Machine.execBiSub rd ra rb s
  | .biMul rd ra rb => Sys2Proof.Machine.execBiMul rd ra rb s
  | .biDiv rd ra rb => Sys2Proof.Machine.execBiDiv rd ra rb s
  | .biMod rd ra rb => Sys2Proof.Machine.execBiMod rd ra rb s
  | .biModpow rd ra rb rc => Sys2Proof.Machine.execBiModpow rd ra rb rc s
  | .biModinv rd ra rb => Sys2Proof.Machine.execBiModinv rd ra rb s
  | .keyCommit => Sys2Proof.Machine.execKeyCommit s
  | .keyDerive ra => Sys2Proof.Machine.execKeyDerive ra s
  | .rkGen => Sys2Proof.Machine.execRkGen s
  | .bcEnc => Sys2Proof.Machine.execBcEnc s
  | .bcDec => Sys2Proof.Machine.execBcDec s
  | .blkXor => Sys2Proof.Machine.execBlkXor s
  | .blkLadd => Sys2Proof.Machine.execBlkLadd s
  | .blkCmp => Sys2Proof.Machine.execBlkCmp s
  | .stInite => Sys2Proof.Machine.execStInite s
  | .stInitd => Sys2Proof.Machine.execStInitd s
  | .stCluster => Sys2Proof.Machine.execStCluster s
  | .stFinish => Sys2Proof.Machine.execStFinish s
  | .stCleanup => Sys2Proof.Machine.execStCleanup s

end Sys2Proof.Machine
end

