-- ==== Sys2Proof/WellFormed.lean ====
section
/-! DEFINITION. Which commands the encoding can write (30_encoding.md R302, R304). -/

namespace Sys2Proof

/-- A register operand the 5-bit field can hold: a reserved index is 23 to 31 (R304). -/
def RegName.wf : RegName → Bool
  | .general _ => true
  | .const _ => true
  | .reserved n => decide (23 ≤ n ∧ n ≤ 31)

/-- A value the 19-bit signed immediate can hold (R302). -/
def immWf (imm : Int) : Bool := decide (-262144 ≤ imm ∧ imm ≤ 262143)

/-- A command every operand of which its encoding admits. -/
def Instr.wf : Instr → Bool
  | .nop => true
  | .biMov rd ra => rd.wf && ra.wf
  | .biLdi rd imm => rd.wf && immWf imm
  | .biRel ra => ra.wf
  | .biLoad rd => rd.wf
  | .biStore ra => ra.wf
  | .biCmp ra rb => ra.wf && rb.wf
  | .biAdd rd ra rb => rd.wf && ra.wf && rb.wf
  | .biSub rd ra rb => rd.wf && ra.wf && rb.wf
  | .biMul rd ra rb => rd.wf && ra.wf && rb.wf
  | .biDiv rd ra rb => rd.wf && ra.wf && rb.wf
  | .biMod rd ra rb => rd.wf && ra.wf && rb.wf
  | .biModpow rd ra rb rc => rd.wf && ra.wf && rb.wf && rc.wf
  | .biModinv rd ra rb => rd.wf && ra.wf && rb.wf
  | .keyCommit => true
  | .keyDerive ra => ra.wf
  | .rkGen => true
  | .bcEnc => true
  | .bcDec => true
  | .blkXor => true
  | .blkLadd => true
  | .blkCmp => true
  | .stInite => true
  | .stInitd => true
  | .stCluster => true
  | .stFinish => true
  | .stCleanup => true

end Sys2Proof
end

