-- ==== Sys2Proof/Decode.lean ====
section
/-! DEFINITION. Reading a command word (30_encoding.md R300 to R308), and after it the encoder. -/

namespace Sys2Proof

/-- Why a word is no command (R307): either reason raises ILLEGAL_OPCODE. -/
inductive DecodeError where
  /-- The opcode is not in the map of R306. -/
  | unknownOpcode (opcode : Nat)
  /-- The opcode is in the map, and a field that R305 requires to be 0 is not. -/
  | nonZeroField (opcode : Nat)
deriving DecidableEq, Repr

/-- Bits [7:0] (R301). -/
def fieldOpcode (w : Word) : Nat := (w.extractLsb' 0 8).toNat

/-- Bits [12:8] (R301). -/
def fieldRd (w : Word) : Nat := (w.extractLsb' 8 5).toNat

/-- Bits [17:13] (R301). -/
def fieldRa (w : Word) : Nat := (w.extractLsb' 13 5).toNat

/-- Bits [22:18] (R301). -/
def fieldRb (w : Word) : Nat := (w.extractLsb' 18 5).toNat

/-- Bits [27:23] (R301). -/
def fieldRc (w : Word) : Nat := (w.extractLsb' 23 5).toNat

/-- Bits [31:28] (R301). -/
def fieldRes (w : Word) : Nat := (w.extractLsb' 28 4).toNat

/-- `sext_19(word[31:13])` (R302). -/
def fieldImm (w : Word) : Int := (w.extractLsb' 13 19).toInt

/-- Bits [31:8], which format N requires to be 0 (R303). -/
def fieldHigh (w : Word) : Nat := (w.extractLsb' 8 24).toNat

/-- The register a 5-bit index names (R304). -/
def regOfIndex (n : Nat) : RegName :=
  if h : n < 16 then .general ⟨n, h⟩
  else if n = 16 then .const .k0
  else if n = 17 then .const .k1
  else if n = 18 then .const .k2
  else if n = 19 then .const .k10
  else if n = 20 then .const .km1
  else if n = 21 then .const .kmax
  else if n = 22 then .const .kmin
  else .reserved n

/-- `i`, if every field listed is 0 (R305). -/
def requireZero (w : Word) (unused : List Nat) (i : Instr) : Except DecodeError Instr :=
  if unused.all (· == 0) then .ok i else .error (.nonZeroField (fieldOpcode w))

/-- The decoder (R306, R307): every word is one command or is refused by name. -/
def decode (w : Word) : Except DecodeError Instr :=
  let rd := regOfIndex (fieldRd w)
  let ra := regOfIndex (fieldRa w)
  let rb := regOfIndex (fieldRb w)
  let rc := regOfIndex (fieldRc w)
  match fieldOpcode w with
  | 0x01 => requireZero w [fieldHigh w] .nop
  | 0x10 => requireZero w [fieldRb w, fieldRc w, fieldRes w] (.biMov rd ra)
  | 0x11 => .ok (.biLdi rd (fieldImm w))
  | 0x12 => requireZero w [fieldRd w, fieldRb w, fieldRc w, fieldRes w] (.biRel ra)
  | 0x13 => requireZero w [fieldRa w, fieldRb w, fieldRc w, fieldRes w] (.biLoad rd)
  | 0x14 => requireZero w [fieldRd w, fieldRb w, fieldRc w, fieldRes w] (.biStore ra)
  | 0x15 => requireZero w [fieldRd w, fieldRc w, fieldRes w] (.biCmp ra rb)
  | 0x18 => requireZero w [fieldRc w, fieldRes w] (.biAdd rd ra rb)
  | 0x19 => requireZero w [fieldRc w, fieldRes w] (.biSub rd ra rb)
  | 0x1A => requireZero w [fieldRc w, fieldRes w] (.biMul rd ra rb)
  | 0x1C => requireZero w [fieldRc w, fieldRes w] (.biDiv rd ra rb)
  | 0x1D => requireZero w [fieldRc w, fieldRes w] (.biMod rd ra rb)
  | 0x20 => requireZero w [fieldRes w] (.biModpow rd ra rb rc)
  | 0x21 => requireZero w [fieldRc w, fieldRes w] (.biModinv rd ra rb)
  | 0x28 => requireZero w [fieldHigh w] .keyCommit
  | 0x29 => requireZero w [fieldRd w, fieldRb w, fieldRc w, fieldRes w] (.keyDerive ra)
  | 0x30 => requireZero w [fieldHigh w] .rkGen
  | 0x31 => requireZero w [fieldHigh w] .bcEnc
  | 0x32 => requireZero w [fieldHigh w] .bcDec
  | 0x34 => requireZero w [fieldHigh w] .blkXor
  | 0x35 => requireZero w [fieldHigh w] .blkLadd
  | 0x36 => requireZero w [fieldHigh w] .blkCmp
  | 0x40 => requireZero w [fieldHigh w] .stInite
  | 0x41 => requireZero w [fieldHigh w] .stInitd
  | 0x42 => requireZero w [fieldHigh w] .stCluster
  | 0x43 => requireZero w [fieldHigh w] .stFinish
  | 0x44 => requireZero w [fieldHigh w] .stCleanup
  | op => .error (.unknownOpcode op)

/-- The decoder on a word of the opcode table, for the host: a command is one 32-bit word (R300), so bits above
`nbits` are 0 and bits above 31 do not exist. -/
def decodeTableWord (nbits w : Nat) : Option Instr :=
  match decode (BitVec.ofNat 32 (w % 2 ^ nbits)) with
  | .ok i => some i
  | .error _ => none

/-- The index of a constant register (R101). -/
def constIndex : ConstReg → Nat
  | .k0 => 16
  | .k1 => 17
  | .k2 => 18
  | .k10 => 19
  | .km1 => 20
  | .kmax => 21
  | .kmin => 22

/-- The 5-bit index of a register (R304). -/
def regIndex : RegName → Nat
  | .general i => i.val
  | .const c => constIndex c
  | .reserved n => n

/-- A format-R word, unused fields given as 0 (R301). -/
def wordR (opcode rd ra rb rc : Nat) : Word :=
  BitVec.ofNat 32 (opcode + rd * 2 ^ 8 + ra * 2 ^ 13 + rb * 2 ^ 18 + rc * 2 ^ 23)

/-- A format-I word (R302). -/
def wordI (opcode rd : Nat) (imm : Int) : Word :=
  BitVec.ofNat 32 (opcode + rd * 2 ^ 8 + (BitVec.ofInt 19 imm).toNat * 2 ^ 13)

/-- A format-N word (R303). -/
def wordN (opcode : Nat) : Word := BitVec.ofNat 32 opcode

/-- The word of a well-formed command (R301 to R306). -/
def encode : Instr → Word
  | .nop => wordN 0x01
  | .biMov rd ra => wordR 0x10 (regIndex rd) (regIndex ra) 0 0
  | .biLdi rd imm => wordI 0x11 (regIndex rd) imm
  | .biRel ra => wordR 0x12 0 (regIndex ra) 0 0
  | .biLoad rd => wordR 0x13 (regIndex rd) 0 0 0
  | .biStore ra => wordR 0x14 0 (regIndex ra) 0 0
  | .biCmp ra rb => wordR 0x15 0 (regIndex ra) (regIndex rb) 0
  | .biAdd rd ra rb => wordR 0x18 (regIndex rd) (regIndex ra) (regIndex rb) 0
  | .biSub rd ra rb => wordR 0x19 (regIndex rd) (regIndex ra) (regIndex rb) 0
  | .biMul rd ra rb => wordR 0x1A (regIndex rd) (regIndex ra) (regIndex rb) 0
  | .biDiv rd ra rb => wordR 0x1C (regIndex rd) (regIndex ra) (regIndex rb) 0
  | .biMod rd ra rb => wordR 0x1D (regIndex rd) (regIndex ra) (regIndex rb) 0
  | .biModpow rd ra rb rc => wordR 0x20 (regIndex rd) (regIndex ra) (regIndex rb) (regIndex rc)
  | .biModinv rd ra rb => wordR 0x21 (regIndex rd) (regIndex ra) (regIndex rb) 0
  | .keyCommit => wordN 0x28
  | .keyDerive ra => wordR 0x29 0 (regIndex ra) 0 0
  | .rkGen => wordN 0x30
  | .bcEnc => wordN 0x31
  | .bcDec => wordN 0x32
  | .blkXor => wordN 0x34
  | .blkLadd => wordN 0x35
  | .blkCmp => wordN 0x36
  | .stInite => wordN 0x40
  | .stInitd => wordN 0x41
  | .stCluster => wordN 0x42
  | .stFinish => wordN 0x43
  | .stCleanup => wordN 0x44

end Sys2Proof
end

