-- ==== Sys2Proof/Machine/Window.lean ====
section
/-! DEFINITION. The register window: its map, reads, writes and their side effects (20_memory.md R200 to R225;
10_state.md; 47_system.md R1100 to R1106). -/

namespace Sys2Proof.Machine

/-- The words of the window (R202). -/
inductive WinReg where
  | id | param0 | param1 | ctrl | status | cmd | errCode | errCmd | cmdCount
  | biwSign | biwLen | biValid
  | key (j : Fin 8) | iv (j : Fin 8) | cv (j : Fin 8) | trailer (j : Fin 8) | rxTrailer (j : Fin 8)
  | blk (j : Fin 8) | blk2 (j : Fin 8) | rkey (j : Fin 4)
  | idxCluster | idxBlock | idxRound
  | lenLo | lenHi | nblkLo | nblkHi | cidx | nclust | blocks | outLen | offLo | offHi | pad
  | realLenLo | realLenHi | totalLo | totalHi | lpadLo | lpadHi | hcount
  | biwDig (i : Fin Config.maxDigitsLimit)
  /-- The CBUF word that holds bytes 4k to 4k+3 (R207). -/
  | cbuf (k : Fin 1032)
  /-- A reserved offset (R203). -/
  | reserved
deriving DecidableEq, Repr

/-- The single words of the map of R202, and of R132, by offset. -/
def singleWords : List (Nat × WinReg) := [
  (0x000, .id), (0x004, .param0), (0x008, .param1), (0x010, .ctrl), (0x014, .status), (0x018, .cmd),
  (0x01C, .errCode), (0x020, .errCmd), (0x024, .cmdCount),
  (0x040, .biwSign), (0x044, .biwLen), (0x048, .biValid),
  (0x170, .idxCluster), (0x174, .idxBlock), (0x178, .idxRound),
  (0x180, .lenLo), (0x184, .lenHi), (0x188, .nblkLo), (0x18C, .nblkHi), (0x190, .cidx), (0x194, .nclust),
  (0x198, .blocks), (0x19C, .outLen), (0x1A0, .offLo), (0x1A4, .offHi), (0x1A8, .pad),
  (0x1AC, .realLenLo), (0x1B0, .realLenHi), (0x1B4, .totalLo), (0x1B8, .totalHi),
  (0x1BC, .lpadLo), (0x1C0, .lpadHi), (0x1C4, .hcount)]

/-- Word `j` of the `n` words from offset `base` up, if `off` is one of them. -/
def arrayWord (off base n : Nat) : Option (Fin n) :=
  if h : base ≤ off ∧ (off - base) / 4 < n then some ⟨(off - base) / 4, h.2⟩ else none

/-- BIW_DIG[i] at 0x400 + 4i, for i below MAX_DIGITS (R107, R202). -/
def biwDigWord (p : Params) (off : Nat) : Option (Fin Config.maxDigitsLimit) :=
  (arrayWord off 0x400 Config.maxDigitsLimit).filter fun i => decide (i.val < p.maxDigits)

/-- The word at an aligned offset (R202): one of the arrays, one of the single words, or reserved. -/
def winReg (p : Params) (off : Nat) : WinReg :=
  ((arrayWord off 0x080 8).map WinReg.key
    <|> (arrayWord off 0x0A0 8).map WinReg.iv
    <|> (arrayWord off 0x0C0 8).map WinReg.cv
    <|> (arrayWord off 0x0E0 8).map WinReg.trailer
    <|> (arrayWord off 0x100 8).map WinReg.rxTrailer
    <|> (arrayWord off 0x120 8).map WinReg.blk
    <|> (arrayWord off 0x140 8).map WinReg.blk2
    <|> (arrayWord off 0x160 4).map WinReg.rkey
    <|> (biwDigWord p off).map WinReg.biwDig
    <|> (arrayWord off 0x1000 1032).map WinReg.cbuf
    <|> singleWords.lookup off).getD .reserved

/-- The low or high word of a 64-bit register (R131, R213). -/
def word64 (x : BitVec 64) (hi : Bool) : Word := if hi then x.extractLsb' 32 32 else x.extractLsb' 0 32

/-- A 64-bit register with its low or high word replaced (R131). -/
def setWord64 (x : BitVec 64) (hi : Bool) (w : Word) : BitVec 64 :=
  if hi then w ++ x.extractLsb' 0 32 else x.extractLsb' 32 32 ++ w

/-- The four bytes of a word, in rising address (R207). -/
def bytesOfWord (w : Word) : List Byte := [byteOfWord w 0, byteOfWord w 1, byteOfWord w 2, byteOfWord w 3]

/-- PARAM0 (R111). -/
def param0Word (p : Params) : Word := BitVec.ofNat 32 (16 + p.maxDigits * 2 ^ 8 + Config.digitBits * 2 ^ 24)

/-- PARAM1 (R112). -/
def param1Word (p : Params) : Word :=
  BitVec.ofNat 32 (32 + Config.rounds * 2 ^ 8 + Config.clusterBlocks * 2 ^ 16 + p.rotBase * 2 ^ 24)

/-- What a word of the window reads as while BUSY = 0, or at any time in the status group (R110 to R134). Reserved
offsets and bits read 0 (R203). -/
def readWord (p : Params) (s : State) : WinReg → Word
  | .id => 0x57534350
  | .param0 => param0Word p
  | .param1 => param1Word p
  | .ctrl => ctrlWord s
  | .status => statusWord s
  | .cmd => s.ctl.lastCmd
  | .errCode => BitVec.ofNat 32 s.ctl.errCode.bits
  | .errCmd => s.ctl.errCmd
  | .cmdCount => s.ctl.cmdCount
  | .biwSign => BitVec.ofNat 32 (flagAt s.big.winSign 0)
  | .biwLen => s.big.winLen.setWidth 32
  | .biValid => biValidWord s
  | .key j => getWord s.cip.key j
  | .iv j => getWord s.str.iv j
  | .cv j => getWord s.str.cv j
  | .trailer j => getWord s.str.trailer j
  | .rxTrailer j => getWord s.str.rxTrailer j
  | .blk j => getWord s.cip.blk j
  | .blk2 j => getWord s.cip.blk2 j
  | .rkey j => getWord s.cip.rkey j
  | .idxCluster => s.cip.idxCluster
  | .idxBlock => s.cip.idxBlock.setWidth 32
  | .idxRound => s.cip.idxRound.setWidth 32
  | .lenLo => word64 s.str.len false
  | .lenHi => word64 s.str.len true
  | .nblkLo => word64 s.str.nblk false
  | .nblkHi => word64 s.str.nblk true
  | .cidx => s.str.cidx
  | .nclust => s.str.nclust
  | .blocks => s.str.blocks
  | .outLen => s.str.outLen
  | .offLo => word64 s.str.off false
  | .offHi => word64 s.str.off true
  | .pad => (s.str.padOff ++ s.str.padCount).setWidth 32
  | .realLenLo => word64 s.str.realLen false
  | .realLenHi => word64 s.str.realLen true
  | .totalLo => word64 s.str.total false
  | .totalHi => word64 s.str.total true
  | .lpadLo => word64 s.str.lpad false
  | .lpadHi => word64 s.str.lpad true
  | .hcount => s.str.hcount
  | .biwDig i => s.big.winDig[i]
  | .cbuf k =>
    wordOfBytes (Cbuf.byteAt s.port.resets s.cbuf (4 * k.val)) (Cbuf.byteAt s.port.resets s.cbuf (4 * k.val + 1))
      (Cbuf.byteAt s.port.resets s.cbuf (4 * k.val + 2)) (Cbuf.byteAt s.port.resets s.cbuf (4 * k.val + 3))
  | .reserved => 0

/-- The words a host may read while BUSY = 1 (R214); a reserved offset is no register and reads 0 (R203; log
entry 6). -/
def readableWhileBusy : WinReg → Bool
  | .id | .param0 | .param1 | .ctrl | .status | .cmd | .errCode | .errCmd | .cmdCount | .reserved => true
  | _ => false

/-- The data registers a host may write (R202, R1106). -/
def isDataReg : WinReg → Bool
  | .biwSign | .biwLen | .biwDig _ | .key _ | .iv _ | .rxTrailer _ | .blk _ | .blk2 _
  | .idxCluster | .idxBlock | .idxRound | .lenLo | .lenHi | .cbuf _ => true
  | _ => false

/-- A write to a data register that is accepted; reserved bits ignore it (R107, R120 to R134, R203). -/
def writeData (r : WinReg) (w : Word) (s : State) : State :=
  match r with
  | .biwSign => { s with big.winSign := w.getLsbD 0 }
  | .biwLen => { s with big.winLen := w.extractLsb' 0 16 }
  | .biwDig i => { s with big.winDig := s.big.winDig.set i.val w }
  | .key j => { s with cip.key := setWord s.cip.key j w, cip.keyValid := false }
  | .iv j => { s with str.iv := setWord s.str.iv j w }
  | .rxTrailer j => { s with str.rxTrailer := setWord s.str.rxTrailer j w }
  | .blk j => { s with cip.blk := setWord s.cip.blk j w }
  | .blk2 j => { s with cip.blk2 := setWord s.cip.blk2 j w }
  | .idxCluster => { s with cip.idxCluster := w }
  | .idxBlock => { s with cip.idxBlock := w.extractLsb' 0 8 }
  | .idxRound => { s with cip.idxRound := w.extractLsb' 0 5 }
  | .lenLo => { s with str.len := setWord64 s.str.len false w }
  | .lenHi => { s with str.len := setWord64 s.str.len true w }
  | .cbuf k => { s with cbuf := Cbuf.write s.cbuf (4 * k.val) (bytesOfWord w) }
  | _ => s

/-- A KEY word (R120). -/
def isKeyWord : WinReg → Bool
  | .key _ => true
  | _ => false

/-- A CTRL write (R1103, R1104): SOFTRST wins over everything, then ERRCLR; else only the enables. -/
def writeCtrl (w : Word) (s : State) : State :=
  if w.getLsbD 8 then resetBlock s
  else if w.getLsbD 9 then errClear (w.getLsbD 0) (w.getLsbD 1) s
  else { s with ctl.ieDone := w.getLsbD 0, ctl.ieErr := w.getLsbD 1 }

/-- A STATUS write (R1105): a 1 in bit 1 clears DONE. -/
def writeStatus (w : Word) (s : State) : State := if w.getLsbD 1 then { s with ctl.done := false } else s

/-- A host write of a word of the window (R212, R1106): CTRL, STATUS and CMD act; a data register is written or the
write is refused; the rest ignore it. -/
def writeWord (r : WinReg) (w : Word) (s : State) : State :=
  match r with
  | .ctrl => writeCtrl w s
  | .status => writeStatus w s
  | .cmd => present w s
  | r =>
    if isDataReg r then
      if s.ctl.busy then refuseWrite s
      else if isKeyWord r && decide (s.str.sstate ≠ .idle) then refuseWrite s
      else writeData r w s
    else s

/-- A host read (R212, R214): the word, or the free value of U2; nothing else changes. -/
def hostRead (p : Params) (r : WinReg) (s : State) : State :=
  if s.ctl.busy && !readableWhileBusy r then
    { s with port.replies := Config.busyRead s.port.busyReads :: s.port.replies, port.busyReads := s.port.busyReads + 1 }
  else { s with port.replies := readWord p s r :: s.port.replies }

/-- The offset of a platform address in the window, if the window holds it: the window is the 16 KiB from CORE_BASE, and
the block decodes address bits [13:0] (R201). -/
def windowOffset (p : Params) (addr : Nat) : Option Nat :=
  if p.coreBase ≤ addr ∧ addr < p.coreBase + Config.windowBytes then some (addr % Config.windowBytes) else none

/-- The offset that an access names: an aligned 32-bit access inside the window has one, every other is a bus error (R204,
R205, U7). -/
def accessOffset (p : Params) (addr size : Nat) : Option Nat :=
  if size = 4 ∧ addr % 4 = 0 then windowOffset p addr else none

/-- One host access (R204, R205): a bus error stops the step and changes nothing in the block. -/
def hostAccess (p : Params) (a : HostAccess) (s : State) : Host.Outcome State Fault Refusal :=
  match a with
  | .read addr size =>
    match accessOffset p addr size with
    | some off => .next (hostRead p (winReg p off) s)
    | none => .fault (.busError addr size)
  | .write addr size w =>
    match accessOffset p addr size with
    | some off => .next (writeWord (winReg p off) w s)
    | none => .fault (.busError addr size)

end Sys2Proof.Machine
end

