-- ==== Sys2Proof/Machine/Engine.lean ====
section
/-! DEFINITION. The turns of host, engine and platform (10_state.md R100; 47_system.md R1100, R1101), for any parameters
and any meaning of the commands. -/

namespace Sys2Proof.Machine

/-- What a command means. -/
abbrev Meaning := Instr → State → Host.Outcome State Fault Refusal

/-- The engine completes the command in flight, whose word is LASTCMD (R1101, R141 (a)): the meaning of the command,
or ILLEGAL_OPCODE (R307). -/
def runCommand (run : Meaning) (s : State) : Host.Outcome State Fault Refusal :=
  match decode s.ctl.lastCmd with
  | .ok i => run i s
  | .error _ => .next (raiseError .illegalOpcode s)

/-- The engine's turn: idle, it does nothing (R1216). -/
def engineTurn (run : Meaning) (s : State) : Host.Outcome State Fault Refusal :=
  if s.ctl.busy then runCommand run s else .next s

/-- One turn. When no turn is left, the engine has it: every accepted command completes (R1310). -/
def takeTurn (p : Params) (run : Meaning) (s : State) : Host.Outcome State Fault Refusal :=
  match s.port.turns with
  | [] => engineTurn run s
  | t :: rest =>
    let s := { s with port.turns := rest }
    match t with
    | .engine => engineTurn run s
    | .host a => hostAccess p a s
    | .powerOn => .next (resetBlock s)

/-- `s` with the command word `w` accepted and the engine's turn next (R1100): how a word comes to run (log entry 1). -/
def acceptWord (w : Word) (s : State) : State :=
  { s with ctl.lastCmd := w, ctl.done := false, ctl.busy := true, port.turns := .engine :: s.port.turns }

end Sys2Proof.Machine
end

