-- ==== Sys2Proof/Machine/Step.lean ====
section
/-! DEFINITION. One step of the machine, and where it takes a command word from. -/

namespace Sys2Proof.Machine

/-- One step of a block with parameters `p` (R7, R8): one turn of the host, the engine or the platform. -/
def stepAt (p : Params) (s : State) : Host.Outcome State Fault Refusal := takeTurn p (execAt p) s

/-- One step at the default parameters, the ones the vectors use (R7). -/
def step (s : State) : Host.Outcome State Fault Refusal := takeTurn params exec s

/-- `s` with the command of the table's bits `w` in flight, so that the next step runs exactly it (log entry 1). A
command is one 32-bit word; the bits above `nbits` are 0 (R300). -/
def State.withFetchWord (s : State) (nbits w : Nat) : State := acceptWord (BitVec.ofNat 32 (w % 2 ^ nbits)) s

end Sys2Proof.Machine
end

