-- ==== Sys2Proof/Safety.lean ====
section
/-! DEFINITION. The words the statements are made of: what a completed and a failed command leave in the control
registers, what an arithmetic command leaves in the register file, and the invariant of the machine. -/

namespace Sys2Proof.Machine

/-- The control registers after a command completed without error (R1101). -/
def completedCtl (c : CtlRegs) : CtlRegs := { c with busy := false, done := true, cmdCount := c.cmdCount + 1 }

/-- The control registers after a command raised an error (R1202). -/
def erroredCtl (code : ErrCode) (c : CtlRegs) : CtlRegs :=
  { c with
    err := true
    errCode := if c.errCode = .noError then code else c.errCode
    errCmd := if c.errCode = .noError then c.lastCmd else c.errCmd
    busy := false }

/-- The state after a command that raised an error: the one it found, and the error record (R1202, R1203). -/
def errored (code : ErrCode) (s : State) : State := { s with ctl := erroredCtl code s.ctl }

/-- The general registers after a command consumed `srcs` and wrote `v` to `d` (R402, R403). -/
def regsAfter (s : State) (srcs : List RegName) (d : Fin 16) (v : Int) : Vector (Option Int) 16 :=
  Vector.ofFn fun i =>
    if i = d then some v else if RegName.general i ∈ srcs then none else s.big.gpr[i.val]

/-- The state after an arithmetic command that consumed `srcs` and wrote `v` to `d` (R402, R1101). -/
def arithmeticResult (s : State) (srcs : List RegName) (d : Fin 16) (v : Int) : State :=
  { s with big.gpr := regsAfter s srcs d v, ctl := completedCtl s.ctl }

/-- No general register stands in two of the source fields (R404). -/
def NoDoubleUse (srcs : List RegName) : Prop := ∀ i : Fin 16, srcs.count (RegName.general i) ≤ 1

/-- The operand fields of a command with register fields, as the map of R306 lists them: destination, sources,
consuming or not. -/
def operandShape : Instr → Option (Option RegName × List RegName × Bool)
  | .biMov rd ra => some (some rd, [ra], false)
  | .biLdi rd _ => some (some rd, [], false)
  | .biRel ra => some (none, [ra], false)
  | .biLoad rd => some (some rd, [], false)
  | .biStore ra => some (none, [ra], false)
  | .biCmp ra rb => some (none, [ra, rb], false)
  | .biAdd rd ra rb => some (some rd, [ra, rb], true)
  | .biSub rd ra rb => some (some rd, [ra, rb], true)
  | .biMul rd ra rb => some (some rd, [ra, rb], true)
  | .biDiv rd ra rb => some (some rd, [ra, rb], true)
  | .biMod rd ra rb => some (some rd, [ra, rb], true)
  | .biModpow rd ra rb rc => some (some rd, [ra, rb, rc], true)
  | .biModinv rd ra rb => some (some rd, [ra, rb], true)
  | .keyDerive ra => some (none, [ra], true)
  | .nop | .keyCommit | .rkGen | .bcEnc | .bcDec | .blkXor | .blkLadd | .blkCmp => none
  | .stInite | .stInitd | .stCluster | .stFinish | .stCleanup => none

/-- The engine has the next turn, and `u` is `s` with that turn taken off the list (R100). -/
def EngineNext (s u : State) : Prop :=
  (s.port.turns = [] ∧ u = s) ∨ ∃ rest, s.port.turns = .engine :: rest ∧ u = { s with port.turns := rest }

/-- The host makes the access `a` next, and `u` is `s` with that turn taken off the list (R100). -/
def HostNext (a : HostAccess) (s u : State) : Prop :=
  ∃ rest, s.port.turns = .host a :: rest ∧ u = { s with port.turns := rest }

/-- The map of R306: each opcode with the fields its row does not use, `res` among them, as (lowest bit, width). -/
def opcodeMap : List (Nat × List (Nat × Nat)) := [
  (0x01, [(8, 24)]), (0x10, [(18, 5), (23, 5), (28, 4)]), (0x11, []), (0x12, [(8, 5), (18, 5), (23, 5), (28, 4)]),
  (0x13, [(13, 5), (18, 5), (23, 5), (28, 4)]), (0x14, [(8, 5), (18, 5), (23, 5), (28, 4)]),
  (0x15, [(8, 5), (23, 5), (28, 4)]), (0x18, [(23, 5), (28, 4)]), (0x19, [(23, 5), (28, 4)]),
  (0x1A, [(23, 5), (28, 4)]), (0x1C, [(23, 5), (28, 4)]), (0x1D, [(23, 5), (28, 4)]), (0x20, [(28, 4)]),
  (0x21, [(23, 5), (28, 4)]), (0x28, [(8, 24)]), (0x29, [(8, 5), (18, 5), (23, 5), (28, 4)]),
  (0x30, [(8, 24)]), (0x31, [(8, 24)]), (0x32, [(8, 24)]), (0x34, [(8, 24)]), (0x35, [(8, 24)]), (0x36, [(8, 24)]),
  (0x40, [(8, 24)]), (0x41, [(8, 24)]), (0x42, [(8, 24)]), (0x43, [(8, 24)]), (0x44, [(8, 24)])]

/-- A word that R306 and R305 make a command. -/
def LegalWord (w : Word) : Prop :=
  ∃ row ∈ opcodeMap, w.toNat % 256 = row.1 ∧ ∀ f ∈ row.2, w.toNat / 2 ^ f.1 % 2 ^ f.2 = 0

/-- The command has no register field that names a reserved index (R105). -/
def NoReserved (rs : List RegName) : Prop := ∀ n, RegName.reserved n ∉ rs

/-- The command has no constant register as destination (R104). -/
def NoConstDst (dst : Option RegName) : Prop := ∀ c, dst ≠ some (.const c)

/-- Every general source register holds a value (R103). -/
def NoEmpty (s : State) (srcs : List RegName) : Prop :=
  ∀ j : Fin 16, RegName.general j ∈ srcs → s.big.gpr[j.val] ≠ none

/-- The platform address of the offset `off` of the window (R201). -/
def windowAddr (off : Nat) : Nat := params.coreBase + off

/-- The word of the window at offset `off`. -/
def wordAt (s : State) (off : Nat) : Word := readWord params s (winReg params off)

/-- The 64-bit register whose low word is at offset `off` and whose high word follows (R213). -/
def pairAt (s : State) (off : Nat) : BitVec 64 := wordAt s (off + 4) ++ wordAt s off

/-- Word `j` of the array at offset `base` packs bytes `4j` to `4j + 3` of `v`, the first in the lowest bits (R206). -/
def ArrayAt (s : State) (base : Nat) (v : Vector Byte n) : Prop :=
  ∀ j k, k < 4 → (h : 4 * j + k < n) → (wordAt s (base + 4 * j)).extractLsb' (8 * k) 8 = v[4 * j + k]

/-- The reserved offsets (R202). -/
def ReservedOffset (off : Nat) : Prop :=
  off % 4 = 0 ∧ (off = 0x00C ∨ (0x028 ≤ off ∧ off ≤ 0x03C) ∨ (0x04C ≤ off ∧ off ≤ 0x07C) ∨ off = 0x17C
    ∨ (0x1C8 ≤ off ∧ off ≤ 0x3FC) ∨ (0x600 ≤ off ∧ off ≤ 0xFFC) ∨ (0x2020 ≤ off ∧ off ≤ 0x3FFC))

/-- A block from its halves, the left half first (R900). -/
def bytesOfHalves (l r : Half) : Block :=
  Vector.ofFn fun i => if h : i.val < 16 then l[i.val] else r[i.val - 16]

/-- Bit `n` of a byte string, bit 0 the lowest of byte 0 (R901). -/
def bitIn (v : Vector Byte m) (n : Nat) : Bool := (byteOf v (n / 8)).getLsbD (n % 8)

/-- A byte times `x` in GF(2^8) modulo `x^8 + x^4 + x^3 + x + 1` (R902). -/
def fieldShift (a : Byte) : Byte := (a <<< 1) ^^^ (if a.getLsbD 7 then 0x1B else 0)

/-- The product in GF(2^8), from the top bit of `b` down (R902). -/
def fieldMul (a b : Byte) : Byte :=
  (List.range 8).foldr (fun i product => fieldShift product ^^^ (if b.getLsbD i then a else 0)) 0

/-- The affine map `A` (R902). -/
def affineMap (b : Byte) : Byte :=
  b ^^^ b.rotateLeft 1 ^^^ b.rotateLeft 2 ^^^ b.rotateLeft 3 ^^^ b.rotateLeft 4

/-- The offsets of the registers a host may write as data (R202, R1106). -/
def DataOffset (off : Nat) : Prop :=
  off % 4 = 0 ∧ (off = 0x40 ∨ off = 0x44 ∨ (0x80 ≤ off ∧ off ≤ 0xBC) ∨ (0x100 ≤ off ∧ off ≤ 0x15C)
    ∨ off = 0x170 ∨ off = 0x174 ∨ off = 0x178 ∨ off = 0x180 ∨ off = 0x184 ∨ (0x400 ≤ off ∧ off ≤ 0x5FC)
    ∨ (0x1000 ≤ off ∧ off ≤ 0x201C))

/-- The offsets of the KEY words (R120). -/
def KeyOffset (off : Nat) : Prop := off % 4 = 0 ∧ 0x80 ≤ off ∧ off ≤ 0x9C

/-- The offsets a host may read while BUSY = 1 (R214). -/
def StatusOffset (off : Nat) : Prop :=
  off = 0x000 ∨ off = 0x004 ∨ off = 0x008 ∨ off = 0x010 ∨ off = 0x014 ∨ off = 0x018 ∨ off = 0x01C ∨ off = 0x020
    ∨ off = 0x024

/-- What a data register keeps of a word written to it: its reserved bits read 0 (R107, R127, R203). -/
def keptBits (off : Nat) (w : Word) : Word :=
  if off = 0x40 then w &&& 0x1
  else if off = 0x44 then w &&& 0xFFFF
  else if off = 0x174 then w &&& 0xFF
  else if off = 0x178 then w &&& 0x1F
  else w

/-- The byte of CBUF at index `j`, as host and engine see it (R207). -/
def byteIn (s : State) (j : Nat) : Byte := Cbuf.byteAt s.port.resets s.cbuf j

/-- `CBUF.block(i)` (R207). -/
def blockIn (s : State) (i : Nat) : Block := Vector.ofFn fun k => byteIn s (32 * i + k.val)

/-- `n`: the real blocks of the next cluster (R1001). -/
def clusterReal (t : StreamRegs) : Nat := min 128 (t.nblk.toNat - 128 * t.cidx.toNat)

/-- The next cluster is the final one (R1001). -/
def finalCluster (t : StreamRegs) : Bool := decide (t.nblk.toNat ≤ 128 * (t.cidx.toNat + 1))

/-- `m`: the blocks of the next cluster (R1001, R1017). -/
def clusterTotal (t : StreamRegs) : Nat := if finalCluster t then clusterReal t + 1 else clusterReal t

/-- Real block `i` of the next cluster as it is hashed and encrypted: on the final cluster the bytes of the last real
block from `L mod 32` on are 0 (R1004, R1012). -/
def plainBlock (s : State) (i : Nat) : Block :=
  let l := s.str.realLen.toNat % 32
  Vector.ofFn fun k =>
    if finalCluster s.str ∧ l ≠ 0 ∧ i = clusterReal s.str - 1 ∧ l ≤ k.val then 0 else byteIn s (32 * i + k.val)

/-- The offset of the count in the pad block: the first hashed byte of the last real block, modulo 32 (R1004). -/
def countOffset (last : Block) : Nat := ((params.hash last.toList)[0]).toNat % 32

/-- The pad block: the filler in CBUF.block(n), its byte at the count offset replaced by `L mod 32` (R1004). -/
def padBlock (s : State) : Block :=
  let n := clusterReal s.str
  Vector.ofFn fun k =>
    if k.val = countOffset (plainBlock s (n - 1)) then BitVec.ofNat 8 (s.str.realLen.toNat % 32)
    else byteIn s (32 * n + k.val)

/-- Block `i` of the next cluster as it is encrypted (R1012). -/
def inputBlock (s : State) (i : Nat) : Block := if i = clusterReal s.str then padBlock s else plainBlock s i

/-- The hash of blocks `f 0` to `f (n - 1)` (R1007). -/
def hashBlocks (f : Nat → Block) (n : Nat) : Block := params.hash (bytesOfBlocks ((List.range n).map f))

/-- The meaningful bytes of the last real block: a count of 0, or one out of range, is the whole block (R1009). -/
def meaningful (count : Byte) : Nat := if count.toNat = 0 ∨ 32 ≤ count.toNat then 32 else count.toNat

/-- Every general register that holds a value holds one below the capacity bound (R102). -/
def RegsInRange (s : State) : Prop := ∀ (i : Fin 16) (v : Int), s.big.gpr[i.val] = some v → v.natAbs < capacityBound params

/-- Control and error state (R1100, R1101, R1105, R1202, R1206): a running command finds no error and no DONE; DONE and
ERR do not stand together; ERR stands exactly with a recorded code, and without it ERRCMD is 0. -/
def CtlConsistent (c : CtlRegs) : Prop :=
  (c.busy = true → c.done = false ∧ c.err = false)
    ∧ ¬(c.done = true ∧ c.err = true)
    ∧ (c.err = true ↔ c.errCode ≠ .noError)
    ∧ (c.err = false → c.errCmd = 0)

/-- No transfer is open: every counter of R132 and CV are 0, and the hash list is empty (R145, R1015). -/
def TransferClosed (t : StreamRegs) : Prop :=
  t.cv = zeroBlock ∧ t.nblk = 0 ∧ t.cidx = 0 ∧ t.nclust = 0 ∧ t.blocks = 0 ∧ t.outLen = 0 ∧ t.off = 0
    ∧ t.padOff = 0 ∧ t.padCount = 0 ∧ t.realLen = 0 ∧ t.total = 0 ∧ t.lpad = 0 ∧ t.hcount = 0 ∧ t.hashes = []

/-- The geometry of an open transfer (R1001, R1010, R1011). -/
def TransferGeometry (t : StreamRegs) : Prop :=
  1 ≤ t.nblk.toNat
    ∧ t.nclust.toNat = ceilDiv t.nblk.toNat 128
    ∧ t.nclust.toNat ≤ params.hashlistMax
    ∧ t.lpad.toNat = 32 * t.nblk.toNat
    ∧ t.total.toNat = t.lpad.toNat + 64
    ∧ t.hashes.length = t.cidx.toNat

/-- The streaming state agrees with SSTATE (R130, R136, R1000, R1001). -/
def StreamConsistent (t : StreamRegs) : Prop :=
  t.hcount.toNat = t.hashes.length
    ∧ (t.authOk = true → t.authValid = true ∧ t.padErr = false)
    ∧ match t.sstate with
      | .idle => TransferClosed t
      | .enc => TransferGeometry t ∧ t.cidx.toNat < t.nclust.toNat ∧ t.off.toNat = 4096 * t.cidx.toNat
          ∧ ceilDiv t.realLen.toNat 32 = t.nblk.toNat
          ∧ t.authOk = false ∧ t.authValid = false ∧ t.padErr = false
      | .encDone => TransferGeometry t ∧ t.cidx = t.nclust ∧ t.off.toNat = 32 * t.nblk.toNat
          ∧ ceilDiv t.realLen.toNat 32 = t.nblk.toNat
          ∧ t.authOk = false ∧ t.authValid = false ∧ t.padErr = false
      | .dec => TransferGeometry t ∧ t.cidx.toNat < t.nclust.toNat ∧ t.off.toNat = 4096 * t.cidx.toNat
          ∧ t.realLen = 0 ∧ t.authOk = false ∧ t.authValid = false ∧ t.padErr = false
      | .decDone => TransferGeometry t ∧ t.cidx = t.nclust ∧ t.off.toNat = 32 * t.nblk.toNat
          ∧ ceilDiv t.realLen.toNat 32 = t.nblk.toNat ∧ t.authOk = false ∧ t.authValid = false
      | .finished => TransferGeometry t ∧ t.cidx = t.nclust ∧ t.off.toNat = 32 * t.nblk.toNat
          ∧ ceilDiv t.realLen.toNat 32 = t.nblk.toNat

/-- A key is established while a transfer is open (R800, R1012). -/
def KeyHeld (s : State) : Prop := s.str.sstate ≠ .idle → s.cip.keyValid = true

/-- The invariant of the machine. -/
structure Inv (s : State) : Prop where
  regs : RegsInRange s
  ctl : CtlConsistent s.ctl
  stream : StreamConsistent s.str
  key : KeyHeld s
  cbuf : Memory.wf s.cbuf
  window : ∀ i : Fin Config.maxDigitsLimit, params.maxDigits ≤ i.val → s.big.winDig[i.val] = 0

end Sys2Proof.Machine
end

