-- ==== Sys2Proof/Certificates/Slice0/Obligations.lean ====
section
/-! DEFINITION. The statements for the provers: the rules of the spec, file by file. Where a statement says
`errored code s`, the state is `s` with the error record of R1202 and nothing else (R1203). -/

open Sys2Proof Sys2Proof.Machine

/- Encoding: 30_encoding.md -/

/-- Decoding the word of a well-formed command gives the command back (R301 to R306). -/
def Obligations.DecodeOfEncoded : Prop := ∀ i : Instr, i.wf = true → decode (encode i) = .ok i

/-- A word that decodes is the word of the well-formed command it decodes to: no two words mean one command, and no bit
of a word is dropped (R305). -/
def Obligations.EncodeOfDecoded : Prop := ∀ (w : Word) (i : Instr), decode w = .ok i → i.wf = true ∧ encode i = w

/-- Words of 95_test_vectors.md section 2, at least one for every row of the opcode table, decode to the commands it lists;
words it calls illegal do not decode. -/
def Obligations.SpecWordsDecode : Prop :=
  decode 0x00000001 = .ok .nop
    ∧ decode 0x00000110 = .ok (.biMov (.general 1) (.general 0))
    ∧ decode 0x00003110 = .ok (.biMov (.const .k1) (.general 1))
    ∧ decode 0x0002E110 = .ok (.biMov (.general 1) (.reserved 23))
    ∧ decode 0x7FFFE011 = .ok (.biLdi (.general 0) 262143)
    ∧ decode 0x80000011 = .ok (.biLdi (.general 0) (-262144))
    ∧ decode 0xFFFFC111 = .ok (.biLdi (.general 1) (-2))
    ∧ decode 0x00000F11 = .ok (.biLdi (.general 15) 0)
    ∧ decode 0x00000012 = .ok (.biRel (.general 0))
    ∧ decode 0x00000313 = .ok (.biLoad (.general 3))
    ∧ decode 0x00008014 = .ok (.biStore (.general 4))
    ∧ decode 0x00148015 = .ok (.biCmp (.general 4) (.general 5))
    ∧ decode 0x00440118 = .ok (.biAdd (.general 1) (.general 0) (.const .k1))
    ∧ decode 0x0046A118 = .ok (.biAdd (.general 1) (.const .kmax) (.const .k1))
    ∧ decode 0x00040219 = .ok (.biSub (.general 2) (.general 0) (.general 1))
    ∧ decode 0x0004021A = .ok (.biMul (.general 2) (.general 0) (.general 1))
    ∧ decode 0x0004041C = .ok (.biDiv (.general 4) (.general 0) (.general 1))
    ∧ decode 0x0040011C = .ok (.biDiv (.general 1) (.general 0) (.const .k0))
    ∧ decode 0x000C451D = .ok (.biMod (.general 5) (.general 2) (.general 3))
    ∧ decode 0x01040420 = .ok (.biModpow (.general 4) (.general 0) (.general 1) (.general 2))
    ∧ decode 0x09CA4020 = .ok (.biModpow (.general 0) (.const .k2) (.const .k2) (.const .k10))
    ∧ decode 0x00040221 = .ok (.biModinv (.general 2) (.general 0) (.general 1))
    ∧ decode 0x00000028 = .ok .keyCommit
    ∧ decode 0x0000E029 = .ok (.keyDerive (.general 7))
    ∧ decode 0x00000030 = .ok .rkGen
    ∧ decode 0x00000031 = .ok .bcEnc
    ∧ decode 0x00000032 = .ok .bcDec
    ∧ decode 0x00000034 = .ok .blkXor
    ∧ decode 0x00000035 = .ok .blkLadd
    ∧ decode 0x00000036 = .ok .blkCmp
    ∧ decode 0x00000040 = .ok .stInite
    ∧ decode 0x00000041 = .ok .stInitd
    ∧ decode 0x00000042 = .ok .stCluster
    ∧ decode 0x00000043 = .ok .stFinish
    ∧ decode 0x00000044 = .ok .stCleanup
    ∧ decode 0x00000000 = .error (.unknownOpcode 0)
    ∧ decode 0x00040110 = .error (.nonZeroField 0x10)
    ∧ ∀ w ∈ [(0x00000100 : Word), 0x00100001, 0x10000110, 0x00000033, 0x00000016, 0x000000FF], ∀ i, decode w ≠ .ok i

/-- Exactly the words of the opcode map whose unused fields are 0 are commands; every other word in flight raises
ILLEGAL_OPCODE and does nothing else (R305, R307). -/
def Obligations.LegalWords : Prop :=
  (∀ w : Word, LegalWord w ↔ ∃ i, decode w = .ok i)
    ∧ ∀ s u : State, EngineNext s u → s.ctl.busy = true → ¬LegalWord s.ctl.lastCmd →
        step s = .next (errored .illegalOpcode u)

/-- A word of opcode 0x11 is BI.LDI, with rd in bits [12:8] and the sign-extended value of bits [31:13] as immediate;
no other word is BI.LDI (R302). -/
def Obligations.ImmediateField : Prop :=
  (∀ w : Word, w.toNat % 256 = 0x11 →
      decode w = .ok (.biLdi (regOfIndex (w.toNat / 2 ^ 8 % 2 ^ 5))
        (if 2 ^ 18 ≤ w.toNat / 2 ^ 13 then (w.toNat / 2 ^ 13 : Nat) - (2 : Int) ^ 19 else (w.toNat / 2 ^ 13 : Nat))))
    ∧ ∀ (w : Word) (rd : RegName) (imm : Int), decode w = .ok (.biLdi rd imm) →
        w.toNat % 256 = 0x11 ∧ -262144 ≤ imm ∧ imm ≤ 262143

/- Turns of the machine: 10_state.md, 47_system.md -/

/-- When the engine has the turn and a command is in flight, the step is the meaning of the command (R1100, R1101). The
turns are the model's (log entry 2). The commands and the machine are those with the parameters as an argument, at the
defaults (R7, R8). -/
def Obligations.StepRunsDecodedCommand : Prop :=
  (∀ (s u : State) (i : Instr), EngineNext s u → s.ctl.busy = true → decode s.ctl.lastCmd = .ok i → step s = exec i u)
    ∧ (∀ (i : Instr) (s : State), exec i s = execAt params i s) ∧ ∀ s : State, step s = stepAt params s

/-- A host write of `w` to CMD: refused with OVR while BUSY or ERR, else accepted (R1100). -/
def Obligations.CommandAcceptance : Prop :=
  ∀ (s u : State) (w : Word), HostNext (.write (windowAddr 0x018) 4 w) s u →
    (s.ctl.busy = true ∨ s.ctl.err = true → step s = .next { u with ctl.ovr := true })
      ∧ (s.ctl.busy = false → s.ctl.err = false →
          step s = .next { u with ctl.lastCmd := w, ctl.done := false, ctl.busy := true })

/-- Every command ends: it completes, with BUSY 0, DONE 1 and CMDCOUNT one more and no other control field changed but
CMPRES; or it raises an error that is not NONE, and the state is as it was but for the error record; and so does a word
that is no command (R1101, R1202, R1203, R1310). -/
def Obligations.EveryCommandEnds : Prop :=
  (∀ (i : Instr) (s : State), ∃ t, exec i s = .next t ∧
      (t.ctl = { completedCtl s.ctl with cmpRes := t.ctl.cmpRes } ∨ ∃ code, code ≠ .noError ∧ t = errored code s))
    ∧ ∀ s u : State, EngineNext s u → s.ctl.busy = true → (∀ i, decode s.ctl.lastCmd ≠ .ok i) →
        step s = .next (errored .illegalOpcode u)

/-- No command raises INTERNAL: the remainder of extended Euclid is never negative and the divider's remainder ends in
range (R704). -/
def Obligations.InternalNeverRaised : Prop :=
  ∀ (i : Instr) (s : State), s.ctl.errCode = .noError → exec i s ≠ .next (errored .internal s)

/-- What each command leaves alone when it answers a next state, of these parts: the model's own fields, the enables, OVR
and LASTCMD; CMPRES; the window; the key; the registers of the cipher; the streaming state; CBUF; and the general registers,
where the command has no register field. For the rest: `EveryCommandEnds` for the control registers, `RegisterFileFrame` for
the general registers of a command with register fields, and for what a stream command leaves of the streaming state
`IniteOpens`, `InitdOpens`, `ClusterEncrypts`, `ClusterDecrypts`, `FinishComputesTrailer` and `CleanupCloses` (R121, R124,
R125, R127, R131, R134, R135, R403). -/
def Obligations.CommandFrame : Prop :=
  ∀ (i : Instr) (s t : State), exec i s = .next t →
    t.port = s.port
      ∧ t.ctl.ieDone = s.ctl.ieDone ∧ t.ctl.ieErr = s.ctl.ieErr ∧ t.ctl.ovr = s.ctl.ovr ∧ t.ctl.lastCmd = s.ctl.lastCmd
      ∧ ((∀ ra rb, i ≠ .biCmp ra rb) → i ≠ .blkCmp → t.ctl.cmpRes = s.ctl.cmpRes)
      ∧ (operandShape i = none → t.big.gpr = s.big.gpr)
      ∧ ((∀ ra, i ≠ .biStore ra) →
          t.big.winSign = s.big.winSign ∧ t.big.winLen = s.big.winLen ∧ t.big.winDig = s.big.winDig)
      ∧ (i ≠ .keyCommit → (∀ ra, i ≠ .keyDerive ra) → t.cip.key = s.cip.key ∧ t.cip.keyValid = s.cip.keyValid)
      ∧ (i ∉ [.bcEnc, .bcDec, .blkXor, .blkLadd] → t.cip.blk = s.cip.blk)
      ∧ (i ≠ .rkGen → t.cip.rkey = s.cip.rkey)
      ∧ t.cip.blk2 = s.cip.blk2 ∧ t.cip.idxCluster = s.cip.idxCluster ∧ t.cip.idxBlock = s.cip.idxBlock
      ∧ t.cip.idxRound = s.cip.idxRound
      ∧ (i ∉ [.stInite, .stInitd, .stCluster, .stFinish, .stCleanup] → t.str = s.str)
      ∧ t.str.iv = s.str.iv ∧ t.str.rxTrailer = s.str.rxTrailer ∧ t.str.len = s.str.len
      ∧ (i ≠ .stCluster → t.cbuf = s.cbuf)

/-- What a command that does not raise an error does to the register file: a consuming command leaves its general
sources without a value, BI.REL releases, every register that is neither destination, source of a consuming command nor
released is as it was, and a command without register fields changes none (R403). -/
def Obligations.RegisterFileFrame : Prop :=
  ∀ (i : Instr) (s t : State), exec i s = .next t → (∀ code, t ≠ errored code s) → ∀ j : Fin 16,
    (∀ dst srcs cons, operandShape i = some (dst, srcs, cons) → dst ≠ some (.general j) →
        (cons = true → RegName.general j ∈ srcs → t.big.gpr[j.val] = none)
          ∧ (cons = false → i ≠ .biRel (.general j) → t.big.gpr[j.val] = s.big.gpr[j.val])
          ∧ (RegName.general j ∉ srcs → t.big.gpr[j.val] = s.big.gpr[j.val])
          ∧ (i = .biRel (.general j) → t.big.gpr[j.val] = none))
      ∧ (operandShape i = none → t.big.gpr[j.val] = s.big.gpr[j.val])

/- BigInt: 40_bigint_core.md -/

/-- The operand preamble of every command with register fields: the first failing check of R401, in its order; and none
of the four errors where no check fails (R401). -/
def Obligations.OperandErrors : Prop :=
  ∀ (i : Instr) (s : State) (dst : Option RegName) (srcs : List RegName) (cons : Bool),
    operandShape i = some (dst, srcs, cons) →
      (¬NoReserved (dst.toList ++ srcs) → exec i s = .next (errored .badRegister s))
        ∧ (NoReserved (dst.toList ++ srcs) → ¬NoConstDst dst → exec i s = .next (errored .constWrite s))
        ∧ (NoReserved (dst.toList ++ srcs) → NoConstDst dst → ¬NoEmpty s srcs →
            exec i s = .next (errored .emptyOperand s))
        ∧ (NoReserved (dst.toList ++ srcs) → NoConstDst dst → NoEmpty s srcs → cons = true → ¬NoDoubleUse srcs →
            exec i s = .next (errored .doubleUse s))
        ∧ (NoReserved (dst.toList ++ srcs) → NoConstDst dst → NoEmpty s srcs → (cons = true → NoDoubleUse srcs) →
            s.ctl.errCode = .noError → ∀ code ∈ [ErrCode.badRegister, .constWrite, .emptyOperand, .doubleUse],
              exec i s ≠ .next (errored code s))

/-- NOP does nothing but complete; BI.MOV copies a general register or a constant and keeps the source; BI.LDI loads every
immediate the encoding can hold (R1102, R410, R413). -/
def Obligations.NopMovLdi : Prop :=
  ∀ s : State,
    exec .nop s = .next { s with ctl := completedCtl s.ctl }
      ∧ (∀ (d : Fin 16) (ra : RegName) (v : Int), readReg s ra = some v →
          exec (.biMov (.general d) ra) s = .next (arithmeticResult s [] d v))
      ∧ ∀ (d : Fin 16) (imm : Int), -262144 ≤ imm → imm ≤ 262143 →
          exec (.biLdi (.general d) imm) s = .next (arithmeticResult s [] d imm)

/-- BI.LOAD loads the value staged in the window, and raises BAD_OPERAND when BIW_LEN is above MAX_DIGITS (R411). -/
def Obligations.LoadReadsWindow : Prop :=
  ∀ (s : State) (d : Fin 16),
    (s.big.winLen.toNat ≤ 128 →
      exec (.biLoad (.general d)) s = .next (arithmeticResult s [] d
        ((if s.big.winSign then -1 else 1) *
          (((List.range s.big.winLen.toNat).map fun i => (s.big.winDig.toList.getD i 0).toNat * 2 ^ (32 * i)).sum : Nat))))
      ∧ (128 < s.big.winLen.toNat → exec (.biLoad (.general d)) s = .next (errored .badOperand s))

/-- BI.STORE writes sign, component count and every digit of the window, and keeps the source (R412). -/
def Obligations.StoreWritesWindow : Prop :=
  ∀ (s : State) (ra : RegName) (v : Int), readReg s ra = some v →
    exec (.biStore ra) s = .next { s with
      big := { s.big with
        winSign := decide (v < 0)
        winLen := BitVec.ofNat 16 (max 1 ((v.natAbs.size + 31) / 32))
        winDig := Vector.ofFn fun i =>
          if i.val < 128 then BitVec.ofNat 32 (v.natAbs / 2 ^ (32 * i.val)) else s.big.winDig[i.val] }
      ctl := completedCtl s.ctl }

/-- BI.STORE then BI.LOAD gives the value back, for every value a register can hold (R411, R412). -/
def Obligations.StoreThenLoad : Prop :=
  ∀ (s : State) (d : Fin 16) (ra : RegName) (v : Int), readReg s ra = some v → v.natAbs < capacityBound params →
    ∃ t u, exec (.biStore ra) s = .next t ∧ exec (.biLoad (.general d)) t = .next u ∧ readReg u (.general d) = some v

/-- BI.REL: a register that holds a value loses it, a constant stays, an empty register and a reserved index are errors;
its word is opcode 0x12 with ra alone (R414). -/
def Obligations.RelReleases : Prop :=
  ∀ s : State,
    (∀ (j : Fin 16) (v : Int), s.big.gpr[j.val] = some v →
        exec (.biRel (.general j)) s =
          .next { s with big.gpr := s.big.gpr.set j.val none, ctl := completedCtl s.ctl })
      ∧ (∀ j : Fin 16, s.big.gpr[j.val] = none → exec (.biRel (.general j)) s = .next (errored .emptyOperand s))
      ∧ (∀ c : ConstReg, exec (.biRel (.const c)) s = .next { s with ctl := completedCtl s.ctl })
      ∧ (∀ n : Nat, exec (.biRel (.reserved n)) s = .next (errored .badRegister s))
      ∧ ∀ n : Nat, n < 32 → decode (BitVec.ofNat 32 (0x12 + n * 2 ^ 13)) = .ok (.biRel (regOfIndex n))

/-- BI.CMP writes the sign of the difference to CMPRES, and may name one register twice (R415, R135). -/
def Obligations.CmpSetsCmpRes : Prop :=
  ∀ (s : State) (ra rb : RegName) (a b : Int), readReg s ra = some a → readReg s rb = some b →
    exec (.biCmp ra rb) s = .next { s with
      ctl := { completedCtl s.ctl with cmpRes := if a = b then .equal else if b < a then .greater else .less } }

/-- The comparison procedure on signs and components gives integer order (R406). -/
def Obligations.ComparisonIsIntegerOrder : Prop :=
  ∀ a b : Int, compareUnit a b = if a = b then .equal else if b < a then .greater else .less

/- Add, subtract, multiply: 41_bigint_addmul.md -/

/-- BI.ADD, BI.SUB and BI.MUL write the exact result where it is in range, and consume their general sources; a result
out of range raises CAPACITY, and nothing is consumed (R501, R502, R506, R405). -/
def Obligations.AddSubMul : Prop :=
  ∀ (s : State) (d : Fin 16) (ra rb : RegName) (a b : Int), readReg s ra = some a → readReg s rb = some b →
    NoDoubleUse [ra, rb] →
      ((a + b).natAbs < capacityBound params → exec (.biAdd (.general d) ra rb) s = .next (arithmeticResult s [ra, rb] d (a + b)))
        ∧ (capacityBound params ≤ (a + b).natAbs → exec (.biAdd (.general d) ra rb) s = .next (errored .capacity s))
        ∧ ((a - b).natAbs < capacityBound params → exec (.biSub (.general d) ra rb) s = .next (arithmeticResult s [ra, rb] d (a - b)))
        ∧ (capacityBound params ≤ (a - b).natAbs → exec (.biSub (.general d) ra rb) s = .next (errored .capacity s))
        ∧ ((a * b).natAbs < capacityBound params → exec (.biMul (.general d) ra rb) s = .next (arithmeticResult s [ra, rb] d (a * b)))
        ∧ (capacityBound params ≤ (a * b).natAbs → exec (.biMul (.general d) ra rb) s = .next (errored .capacity s))

/-- The adder on component lists gives the normal form of the exact sum or difference (R500, R407). -/
def Obligations.AdderIsExact : Prop :=
  ∀ a b : Int, adderUnit false a b = normalForm (a + b) ∧ adderUnit true a b = normalForm (a - b)

/-- The normal form: its value is the integer, every component is below the radix, the top component is not 0 but for
the value 0, which is the single component 0 with sign + (R106, R102). -/
def Obligations.NormalFormIsNormal : Prop :=
  ∀ v : Int, (normalForm v).value = v ∧ (∀ x ∈ (normalForm v).mag, x < 2 ^ 32)
    ∧ (v ≠ 0 → (normalForm v).mag.getLast? ≠ some 0) ∧ normalForm 0 = ⟨false, [0]⟩

/-- The schoolbook path gives the product of the magnitudes; the multiplier gives the product whatever the threshold,
so both paths agree (R503, R504, R505, R507). -/
def Obligations.MultiplierPathsAgree : Prop :=
  (∀ a b : Nat, schoolbook a b = a * b) ∧ (∀ (thresh : Nat) (a b : Int), mulUnit thresh a b = a * b)
    ∧ ∀ (p : Params) (a b : Int), multiplier p a b = a * b

/- Divide: 42_bigint_div.md -/

/-- BI.DIV writes the quotient rounded toward zero, BI.MOD the residue in `[0, |b|)` (R600, R604, R605). -/
def Obligations.DivModExact : Prop :=
  ∀ (s : State) (d : Fin 16) (ra rb : RegName) (a b : Int), readReg s ra = some a → readReg s rb = some b →
    NoDoubleUse [ra, rb] → b ≠ 0 → a.natAbs < capacityBound params → b.natAbs < capacityBound params →
      exec (.biDiv (.general d) ra rb) s = .next (arithmeticResult s [ra, rb] d (tdiv a b))
        ∧ exec (.biMod (.general d) ra rb) s = .next (arithmeticResult s [ra, rb] d (emod a b))

/-- BI.DIV and BI.MOD by 0 raise DIV_BY_ZERO, consume nothing and write nothing (R603). -/
def Obligations.DivisionByZero : Prop :=
  ∀ (s : State) (d : Fin 16) (ra rb : RegName) (a : Int), readReg s ra = some a → readReg s rb = some 0 →
    NoDoubleUse [ra, rb] →
      exec (.biDiv (.general d) ra rb) s = .next (errored .divByZero s)
        ∧ exec (.biMod (.general d) ra rb) s = .next (errored .divByZero s)

/-- The division laws (R606). -/
def Obligations.DivisionLaws : Prop :=
  ∀ a b : Int, b ≠ 0 →
    0 ≤ emod a b ∧ emod a b < |b| ∧ |tdiv a b| = |a| / |b|
      ∧ (0 ≤ a ∨ b ∣ a → tdiv a b * b + emod a b = a)
      ∧ (¬(0 ≤ a ∨ b ∣ a) → tdiv a b * b + emod a b = a + |b|)

/-- The divider is exact; and where the divisor's top component is conditioned, the
approximation is the quotient or one more (R601, R602). -/
def Obligations.DividerIsExact : Prop :=
  (∀ n d : Nat, 0 < d → divmag n d = .ok (n / d, n % d))
    ∧ ∀ n d : Nat, 2 ^ 16 ≤ topComp d →
        approxQuot (bitLength n + 1) n d = (n / d : Nat) ∨ approxQuot (bitLength n + 1) n d = (n / d + 1 : Nat)

/- Modular exponentiation: 43_modexp.md -/

/-- BI.MODPOW with an exponent that is not negative writes `a^e mod m` (R702). -/
def Obligations.ModpowNonnegative : Prop :=
  ∀ (s : State) (d : Fin 16) (ra rb rc : RegName) (a e m : Int),
    readReg s ra = some a → readReg s rb = some e → readReg s rc = some m → NoDoubleUse [ra, rb, rc] →
    0 ≤ e → 0 < m → m.natAbs < capacityBound params →
      exec (.biModpow (.general d) ra rb rc) s = .next (arithmeticResult s [ra, rb, rc] d (a ^ e.natAbs % m))

/-- BI.MODPOW with a negative exponent writes the inverse of `a^|e|` modulo `m`, which is unique in `[0, m)`; where
there is none it raises NOT_COPRIME (R702). -/
def Obligations.ModpowNegative : Prop :=
  ∀ (s : State) (d : Fin 16) (ra rb rc : RegName) (a e m : Int),
    readReg s ra = some a → readReg s rb = some e → readReg s rc = some m → NoDoubleUse [ra, rb, rc] →
    e < 0 → 0 < m → m.natAbs < capacityBound params →
      (Int.gcd (a ^ e.natAbs) m = 1 → ∃ v : Int, 0 ≤ v ∧ v < m ∧ m ∣ a ^ e.natAbs * v - 1
          ∧ exec (.biModpow (.general d) ra rb rc) s = .next (arithmeticResult s [ra, rb, rc] d v))
        ∧ (Int.gcd (a ^ e.natAbs) m ≠ 1 →
            exec (.biModpow (.general d) ra rb rc) s = .next (errored .notCoprime s))

/-- BI.MODINV writes the inverse in `[0, m)`, or raises NOT_COPRIME (R703). -/
def Obligations.ModinvResult : Prop :=
  ∀ (s : State) (d : Fin 16) (ra rb : RegName) (a m : Int), readReg s ra = some a → readReg s rb = some m →
    NoDoubleUse [ra, rb] → 0 < m → m.natAbs < capacityBound params →
      (Int.gcd a m = 1 → ∃ v : Int, 0 ≤ v ∧ v < m ∧ m ∣ a * v - 1
          ∧ exec (.biModinv (.general d) ra rb) s = .next (arithmeticResult s [ra, rb] d v))
        ∧ (Int.gcd a m ≠ 1 → exec (.biModinv (.general d) ra rb) s = .next (errored .notCoprime s))

/-- A modulus of 0 raises DIV_BY_ZERO, a negative one BAD_OPERAND, in BI.MODPOW and BI.MODINV (R702, R703, R1204). -/
def Obligations.ModulusErrors : Prop :=
  ∀ (s : State) (d : Fin 16) (ra rb rc : RegName) (a e m : Int),
    readReg s ra = some a → readReg s rb = some e → readReg s rc = some m → NoDoubleUse [ra, rb, rc] →
      (m = 0 → exec (.biModpow (.general d) ra rb rc) s = .next (errored .divByZero s)
          ∧ exec (.biModinv (.general d) ra rc) s = .next (errored .divByZero s))
        ∧ (m < 0 → exec (.biModpow (.general d) ra rb rc) s = .next (errored .badOperand s)
            ∧ exec (.biModinv (.general d) ra rc) s = .next (errored .badOperand s))

/-- The laws of the pipeline, for every modulus of at least 2 (R705). -/
def Obligations.PipelineLaws : Prop :=
  ∀ a e m : Int, 2 ≤ m →
    (0 ≤ e → modpowOf a e m = .ok (a ^ e.natAbs % m))
      ∧ (Int.gcd a m = 1 → ∃ v w, modpowOf a e m = .ok v ∧ modpowOf a (-e) m = .ok w ∧ v * w % m = 1)
      ∧ modpowOf a e m = modpowOf (emod a m) e m
      ∧ (Int.gcd a m = 1 → ∃ v, modinvOf a m = .ok v ∧ v * a % m = 1)
      ∧ ∀ x y : Int, 0 ≤ x → 0 ≤ y → ∃ gx gy k, modpowOf a x m = .ok gx ∧ modpowOf a y m = .ok gy
          ∧ modpowOf gx y m = .ok k ∧ modpowOf gy x m = .ok k

/- Session key: 44_key_derivation.md -/

/-- KEY.COMMIT sets KEYVALID in state IDLE, whatever KEY holds; in every other state it raises STATE (R801). -/
def Obligations.KeyCommit : Prop :=
  ∀ s : State,
    (s.str.sstate = .idle → exec .keyCommit s = .next { s with cip.keyValid := true, ctl := completedCtl s.ctl })
      ∧ (s.str.sstate ≠ .idle → exec .keyCommit s = .next (errored .state s))

/-- KEY.DERIVE: the checks in their order, then the digest of the 192-byte big-endian secret into KEY; a general source
is consumed (R802). -/
def Obligations.KeyDerive : Prop :=
  ∀ (s : State) (ra : RegName),
    (¬NoReserved [ra] → exec (.keyDerive ra) s = .next (errored .badRegister s))
      ∧ (NoReserved [ra] → readReg s ra = none → exec (.keyDerive ra) s = .next (errored .emptyOperand s))
      ∧ ∀ v : Int, readReg s ra = some v →
          (s.str.sstate ≠ .idle → exec (.keyDerive ra) s = .next (errored .state s))
            ∧ (s.str.sstate = .idle → v < 0 ∨ 2 ^ 1536 ≤ v → exec (.keyDerive ra) s = .next (errored .badOperand s))
            ∧ (s.str.sstate = .idle → 0 ≤ v → v < 2 ^ 1536 →
                exec (.keyDerive ra) s = .next { s with
                  big.gpr := Vector.ofFn fun i => if ra = .general i then none else s.big.gpr[i.val]
                  cip := { s.cip with
                    keyValid := true
                    key := params.hash ((List.range 192).map fun i => BitVec.ofNat 8 (v.toNat / 256 ^ (191 - i))) }
                  ctl := completedCtl s.ctl })

/-- KEY and KEYVALID change only when the engine completes KEY.COMMIT or KEY.DERIVE, which set KEYVALID, at an accepted
host write of a KEY word, which clears it, and at reset (R800, R120). -/
def Obligations.KeyChangesOnlyByThreeEvents : Prop :=
  ∀ s t : State, step s = .next t → t.cip.key ≠ s.cip.key ∨ t.cip.keyValid ≠ s.cip.keyValid →
    ((∃ u, EngineNext s u) ∧ s.ctl.busy = true
        ∧ (decode s.ctl.lastCmd = .ok .keyCommit ∨ ∃ ra, decode s.ctl.lastCmd = .ok (.keyDerive ra))
        ∧ t.cip.keyValid = true)
      ∨ (∃ off w u, KeyOffset off ∧ HostNext (.write (windowAddr off) 4 w) s u ∧ s.ctl.busy = false ∧ s.str.sstate = .idle
          ∧ t.cip.keyValid = false)
      ∨ ((∃ w u, HostNext (.write (windowAddr 0x010) 4 w) s u ∧ w.getLsbD 8 = true) ∨ s.port.turns.head? = some .powerOn)
          ∧ t.cip.keyValid = false ∧ t.cip.key = Vector.replicate 32 0

/- Block cipher: 45_block_cipher.md -/

/-- RK.GEN, BC.ENC and BC.DEC: NO_KEY without a key; else the round key, the encryption or the decryption at the index
registers, and nothing else changes; with other parameters, the functions are those of the parameters (R8, R910, R911,
R912). -/
def Obligations.CipherCommands : Prop :=
  (∀ (p : Params) (s : State), s.cip.keyValid = true →
      execAt p .rkGen s = .next { s with
          cip.rkey := roundKey p s.cip.key s.cip.idxCluster.toNat s.cip.idxBlock.toNat s.cip.idxRound.toNat
          ctl := completedCtl s.ctl }
        ∧ execAt p .bcEnc s = .next { s with
            cip.blk := encryptBlock p s.cip.blk s.cip.key s.cip.idxCluster.toNat s.cip.idxBlock.toNat
            ctl := completedCtl s.ctl }
        ∧ execAt p .bcDec s = .next { s with
            cip.blk := decryptBlock p s.cip.blk s.cip.key s.cip.idxCluster.toNat s.cip.idxBlock.toNat
            ctl := completedCtl s.ctl })
  ∧ ∀ s : State,
    (s.cip.keyValid = false → ∀ i ∈ [Instr.rkGen, .bcEnc, .bcDec], exec i s = .next (errored .noKey s))
      ∧ (s.cip.keyValid = true →
          exec .rkGen s = .next { s with
              cip.rkey :=
                roundKey params s.cip.key s.cip.idxCluster.toNat s.cip.idxBlock.toNat s.cip.idxRound.toNat
              ctl := completedCtl s.ctl }
            ∧ exec .bcEnc s = .next { s with
                cip.blk := encryptBlock params s.cip.blk s.cip.key s.cip.idxCluster.toNat s.cip.idxBlock.toNat
                ctl := completedCtl s.ctl }
            ∧ exec .bcDec s = .next { s with
                cip.blk := decryptBlock params s.cip.blk s.cip.key s.cip.idxCluster.toNat s.cip.idxBlock.toNat
                ctl := completedCtl s.ctl })

/-- BLK.XOR byte by byte; BLK.LADD lane by lane, modulo 2^64, no carry between lanes; BLK.CMP equality (R913, R914, R915,
R908). -/
def Obligations.BlockCommands : Prop :=
  ∀ s : State,
    exec .blkXor s = .next { s with
        cip.blk := Vector.ofFn fun i => s.cip.blk[i.val] ^^^ s.cip.blk2[i.val]
        ctl := completedCtl s.ctl }
      ∧ (∃ z : Block, exec .blkLadd s = .next { s with cip.blk := z, ctl := completedCtl s.ctl }
          ∧ ∀ j, j < 4 → leValue ((z.toList.drop (8 * j)).take 8)
              = (leValue ((s.cip.blk.toList.drop (8 * j)).take 8) + leValue ((s.cip.blk2.toList.drop (8 * j)).take 8))
                % 2 ^ 64)
      ∧ exec .blkCmp s = .next { s with
          ctl := { completedCtl s.ctl with cmpRes := if s.cip.blk = s.cip.blk2 then .equal else .greater } }

/-- The cipher laws: decryption inverts encryption and encryption is a permutation of the blocks, whatever the
parameters; only the round indices 0 to 15 count; with this hardware's parameters the indices count modulo 128 (R907). -/
def Obligations.CipherLaws : Prop :=
  (∀ (p : Params) (x k : Block) (c b : Nat), decryptBlock p (encryptBlock p x k c b) k c b = x)
    ∧ (∀ (p : Params) (k : Block) (c b : Nat), Function.Bijective fun x => encryptBlock p x k c b)
    ∧ (∀ (p : Params) (f : Nat → Nat), (∀ r, r < 16 → f r = p.krotR r) → ∀ (x k : Block) (c b : Nat),
        encryptBlock { p with krotR := f } x k c b = encryptBlock p x k c b
          ∧ decryptBlock { p with krotR := f } x k c b = decryptBlock p x k c b)
    ∧ ∀ (x k : Block) (c b : Nat), encryptBlock params x k c b = encryptBlock params x k (c % 128) (b % 128)

/-- CBC decryption inverts CBC encryption for every list of blocks, whatever the parameters. The chaining value carried on
is the last ciphertext block, on both sides, and the blocks that follow are chained with it (R1002, R1003). -/
def Obligations.CbcInverse : Prop :=
  ∀ (p : Params) (k : Block) (c i : Nat) (cv : Block) (xs : List Block),
    cbcDecrypt p k c i cv (cbcEncrypt p k c i cv xs) = xs
      ∧ (cbcEncrypt p k c i cv xs).length = xs.length
      ∧ ∀ j, j < xs.length →
          (cbcEncrypt p k c i cv xs)[j]? =
            some (encryptBlock p (xorBytes (xs.getD j cv)
              (if j = 0 then cv else (cbcEncrypt p k c i cv xs).getD (j - 1) cv)) k c (i + j))
      ∧ lastBlock cv [] = cv ∧ (∀ y, lastBlock cv (xs ++ [y]) = y)
      ∧ ∀ ys : List Block,
          cbcEncrypt p k c i cv (xs ++ ys) = cbcEncrypt p k c i cv xs
              ++ cbcEncrypt p k c (i + xs.length) (lastBlock cv (cbcEncrypt p k c i cv xs)) ys
            ∧ cbcDecrypt p k c i cv (xs ++ ys) = cbcDecrypt p k c i cv xs
              ++ cbcDecrypt p k c (i + xs.length) (lastBlock cv xs) ys

/- Stream: 46_stream.md -/

/-- ST.INITE: the checks in their order, then an encrypt transfer open with the geometry of its length (R1010). -/
def Obligations.IniteOpens : Prop :=
  ∀ s : State,
    (s.cip.keyValid = false → exec .stInite s = .next (errored .noKey s))
      ∧ (s.cip.keyValid = true → s.str.sstate ≠ .idle → exec .stInite s = .next (errored .state s))
      ∧ (s.cip.keyValid = true → s.str.sstate = .idle →
          s.str.len = 0 ∨ 65536 < ceilDiv (ceilDiv s.str.len.toNat 32) 128 →
            exec .stInite s = .next (errored .badLength s))
      ∧ (s.cip.keyValid = true → s.str.sstate = .idle → s.str.len ≠ 0 →
          ceilDiv (ceilDiv s.str.len.toNat 32) 128 ≤ 65536 →
            ∃ t, exec .stInite s = .next t ∧ t.str.nblk.toNat = ceilDiv s.str.len.toNat 32
              ∧ t.str.nclust.toNat = ceilDiv (ceilDiv s.str.len.toNat 32) 128
              ∧ t.str.lpad.toNat = 32 * ceilDiv s.str.len.toNat 32
              ∧ t.str.total.toNat = 32 * ceilDiv s.str.len.toNat 32 + 64
              ∧ t = { s with
                  ctl := completedCtl s.ctl
                  str := { s.str with
                    sstate := .enc, cv := s.str.iv, hashes := [], hcount := 0
                    trailer := Vector.replicate 32 0, authOk := false, authValid := false, padErr := false
                    nblk := t.str.nblk, nclust := t.str.nclust, lpad := t.str.lpad, total := t.str.total
                    cidx := 0, blocks := 0, outLen := 0, off := 0, padOff := 0, padCount := 0
                    realLen := s.str.len } })

/-- ST.INITD: the checks in their order, then a decrypt transfer open with the geometry of the padded length (R1011). -/
def Obligations.InitdOpens : Prop :=
  ∀ s : State,
    (s.cip.keyValid = false → exec .stInitd s = .next (errored .noKey s))
      ∧ (s.cip.keyValid = true → s.str.sstate ≠ .idle → exec .stInitd s = .next (errored .state s))
      ∧ (s.cip.keyValid = true → s.str.sstate = .idle →
          s.str.len = 0 ∨ s.str.len.toNat % 32 ≠ 0 ∨ 65536 < ceilDiv (s.str.len.toNat / 32) 128 →
            exec .stInitd s = .next (errored .badLength s))
      ∧ (s.cip.keyValid = true → s.str.sstate = .idle → s.str.len ≠ 0 → s.str.len.toNat % 32 = 0 →
          ceilDiv (s.str.len.toNat / 32) 128 ≤ 65536 →
            ∃ t, exec .stInitd s = .next t ∧ t.str.nblk.toNat = s.str.len.toNat / 32
              ∧ t.str.nclust.toNat = ceilDiv (s.str.len.toNat / 32) 128
              ∧ t.str.total.toNat = s.str.len.toNat + 64
              ∧ t = { s with
                  ctl := completedCtl s.ctl
                  str := { s.str with
                    sstate := .dec, cv := s.str.iv, hashes := [], hcount := 0
                    trailer := Vector.replicate 32 0, authOk := false, authValid := false, padErr := false
                    nblk := t.str.nblk, nclust := t.str.nclust, lpad := s.str.len, total := t.str.total
                    cidx := 0, blocks := 0, outLen := 0, off := 0, padOff := 0, padCount := 0, realLen := 0 } })

/-- The transfer state machine: in the states R1000 lists, the stream commands move SSTATE as it lists; outside them they
raise STATE, ST.INITE and ST.INITD checking the key first; and no other command moves it (R1000, R1204). -/
def Obligations.StreamStates : Prop :=
  ∀ s : State,
    (s.str.sstate ≠ .idle → s.cip.keyValid = true →
        exec .stInite s = .next (errored .state s) ∧ exec .stInitd s = .next (errored .state s))
      ∧ (s.str.sstate ∉ [.enc, .dec] → exec .stCluster s = .next (errored .state s))
      ∧ (s.str.sstate ∉ [.encDone, .decDone] → exec .stFinish s = .next (errored .state s))
      ∧ (s.str.sstate = .enc → ∃ t, exec .stCluster s = .next t
          ∧ t.str.sstate = if finalCluster s.str then .encDone else .enc)
      ∧ (s.str.sstate = .dec → ∃ t, exec .stCluster s = .next t
          ∧ t.str.sstate = if finalCluster s.str then .decDone else .dec)
      ∧ (s.str.sstate ∈ [.encDone, .decDone] → ∃ t, exec .stFinish s = .next t ∧ t.str.sstate = .finished)
      ∧ (∃ t, exec .stCleanup s = .next t ∧ t.str.sstate = .idle)
      ∧ ∀ (i : Instr) (t : State), exec i s = .next t → t.str.sstate ≠ s.str.sstate →
          (i = .stInite ∧ s.str.sstate = .idle ∧ t.str.sstate = .enc)
            ∨ (i = .stInitd ∧ s.str.sstate = .idle ∧ t.str.sstate = .dec)
            ∨ (i = .stCluster ∧ finalCluster s.str = true ∧
                (s.str.sstate = .enc ∧ t.str.sstate = .encDone ∨ s.str.sstate = .dec ∧ t.str.sstate = .decDone))
            ∨ (i = .stFinish ∧ s.str.sstate ∈ [.encDone, .decDone] ∧ t.str.sstate = .finished)
            ∨ (i = .stCleanup ∧ t.str.sstate = .idle)

/-- ST.CLUSTER in state ENC: each block of CBUF is the encryption of the input block chained with the block before; the
bytes beyond are as before; the cluster hash is taken over the plaintext; the counters move on (R1012). The premise is
the invariant of a transfer. -/
def Obligations.ClusterEncrypts : Prop :=
  ∀ s : State, s.str.sstate = .enc → StreamConsistent s.str → ∃ t, exec .stCluster s = .next t
    ∧ (∀ i, i < clusterTotal s.str →
        blockIn t i = encryptBlock params
          (xorBytes (inputBlock s i) (if i = 0 then s.str.cv else blockIn t (i - 1))) s.cip.key s.str.cidx.toNat i)
    ∧ (∀ j, 32 * clusterTotal s.str ≤ j → byteIn t j = byteIn s j)
    ∧ t = { s with
        cbuf := t.cbuf
        ctl := completedCtl s.ctl
        str := { s.str with
          hashes := s.str.hashes ++ [hashBlocks (plainBlock s) (clusterReal s.str)]
          hcount := s.str.hcount + 1
          padOff := if finalCluster s.str then
              BitVec.ofNat 8 (countOffset (plainBlock s (clusterReal s.str - 1))) else s.str.padOff
          padCount := if finalCluster s.str then BitVec.ofNat 8 (s.str.realLen.toNat % 32) else s.str.padCount
          cv := blockIn t (clusterTotal s.str - 1)
          blocks := BitVec.ofNat 32 (clusterTotal s.str)
          outLen := BitVec.ofNat 32 (32 * clusterTotal s.str)
          off := s.str.off + BitVec.ofNat 64 (32 * clusterReal s.str)
          cidx := s.str.cidx + 1
          sstate := if finalCluster s.str then .encDone else .enc } }

/-- ST.CLUSTER in state DEC: each block of CBUF is the decryption chained with the ciphertext block before; the pad count
is read at its offset, out of range sets PADERR; length and counters follow (R1013). The premise is the invariant of a
transfer. -/
def Obligations.ClusterDecrypts : Prop :=
  ∀ s : State, s.str.sstate = .dec → StreamConsistent s.str → ∃ (t : State) (offset : Nat) (count : Byte),
    exec .stCluster s = .next t
      ∧ (∀ i, i < clusterTotal s.str →
          blockIn t i = xorBytes (decryptBlock params (blockIn s i) s.cip.key s.str.cidx.toNat i)
            (if i = 0 then s.str.cv else blockIn s (i - 1)))
      ∧ (∀ j, 32 * clusterTotal s.str ≤ j → byteIn t j = byteIn s j)
      ∧ offset = countOffset (blockIn t (clusterReal s.str - 1))
      ∧ count = byteIn t (32 * clusterReal s.str + offset)
      ∧ t = { s with
          cbuf := t.cbuf
          ctl := completedCtl s.ctl
          str := { s.str with
            hashes := s.str.hashes ++ [hashBlocks (blockIn t) (clusterReal s.str)]
            hcount := s.str.hcount + 1
            padErr := if finalCluster s.str ∧ 32 ≤ count.toNat then true else s.str.padErr
            padOff := if finalCluster s.str then BitVec.ofNat 8 offset else s.str.padOff
            padCount := if finalCluster s.str then count else s.str.padCount
            realLen := if finalCluster s.str then
                BitVec.ofNat 64 (32 * (s.str.nblk.toNat - 1) + meaningful count) else s.str.realLen
            outLen := if finalCluster s.str then
                BitVec.ofNat 32 (32 * (clusterReal s.str - 1) + meaningful count)
              else BitVec.ofNat 32 (32 * clusterReal s.str)
            cv := blockIn s (clusterTotal s.str - 1)
            blocks := BitVec.ofNat 32 (clusterTotal s.str)
            off := s.str.off + BitVec.ofNat 64 (32 * clusterReal s.str)
            cidx := s.str.cidx + 1
            sstate := if finalCluster s.str then .decDone else .dec } }

/-- ST.FINISH: the trailer is the hash of the recorded cluster hashes in order; a decrypt transfer gets its integrity
result; any other state is an error (R1014). So a receiver whose cluster hashes are the sender's, with the sender's trailer
received and no PADERR, gets AUTH_OK = 1 (R1018). The premise is the invariant of a transfer. -/
def Obligations.FinishComputesTrailer : Prop :=
  (∀ s : State, StreamConsistent s.str →
    (s.str.sstate = .encDone → exec .stFinish s = .next { s with
        ctl := completedCtl s.ctl
        str := { s.str with trailer := params.hash (bytesOfBlocks s.str.hashes), sstate := .finished } })
      ∧ (s.str.sstate = .decDone → exec .stFinish s = .next { s with
          ctl := completedCtl s.ctl
          str := { s.str with
            trailer := params.hash (bytesOfBlocks s.str.hashes)
            authOk := decide (params.hash (bytesOfBlocks s.str.hashes) = s.str.rxTrailer ∧ s.str.padErr = false)
            authValid := true
            sstate := .finished } })
      ∧ (s.str.sstate ≠ .encDone → s.str.sstate ≠ .decDone → exec .stFinish s = .next (errored .state s)))
    ∧ ∀ e d e' : State, StreamConsistent e.str → StreamConsistent d.str → e.str.sstate = .encDone →
        d.str.sstate = .decDone → exec .stFinish e = .next e' → d.str.hashes = e.str.hashes →
        d.str.rxTrailer = e'.str.trailer → ∃ d', exec .stFinish d = .next d'
          ∧ d'.str.authValid = true ∧ d'.str.authOk = !d.str.padErr

/-- ST.CLEANUP, the word 0x00000044 and no other, ends the transfer in every state: counters, CV and the hash list are
cleared, everything else is kept (R1015). -/
def Obligations.CleanupCloses : Prop :=
  (∀ w : Word, decode w = .ok .stCleanup ↔ w = 0x44) ∧ ∀ s : State, exec .stCleanup s = .next { s with
    ctl := completedCtl s.ctl
    str := { s.str with
      sstate := .idle, cv := Vector.replicate 32 0, hashes := [], hcount := 0
      nblk := 0, cidx := 0, nclust := 0, blocks := 0, outLen := 0, off := 0, padOff := 0, padCount := 0
      realLen := 0, total := 0, lpad := 0 } }

/-- Decrypting a cluster gives the encrypted plaintext back, and both sides stay in step: from a sender and a receiver
that agree on key, cluster index, block count, chaining value and hashes, the receiver's ST.CLUSTER on the sender's
output leaves the plaintext in CBUF, the same chaining value and hashes, and on the final cluster the real length with
no PADERR (R1018). -/
def Obligations.ClusterRoundTrip : Prop :=
  ∀ e d e' : State, e.str.sstate = .enc → d.str.sstate = .dec → StreamConsistent e.str → StreamConsistent d.str →
    d.cip.key = e.cip.key → d.str.cidx = e.str.cidx → d.str.nblk = e.str.nblk → d.str.cv = e.str.cv →
    d.str.hashes = e.str.hashes → exec .stCluster e = .next e' →
    (∀ j, j < 32 * clusterTotal e.str → byteIn d j = byteIn e' j) →
      ∃ d', exec .stCluster d = .next d'
        ∧ (∀ i, i < clusterReal e.str → blockIn d' i = plainBlock e i)
        ∧ d'.cip.key = e'.cip.key ∧ d'.str.cidx = e'.str.cidx ∧ d'.str.nblk = e'.str.nblk ∧ d'.str.cv = e'.str.cv
        ∧ d'.str.hashes = e'.str.hashes
        ∧ d'.str.padErr = false
        ∧ (finalCluster e.str = true → d'.str.realLen = e.str.realLen
            ∧ d'.str.outLen.toNat + 4096 * e.str.cidx.toNat = e.str.realLen.toNat)

/- Reset, controls and the register window: 10_state.md, 20_memory.md, 47_system.md, 60_exceptions.md -/

/-- The table of reset values (R145): general registers without a value, the constant registers with their constants, which
they hold in every state (R101, R104), every other register 0, the window words with their constants, and the interrupt output deasserted. Each byte of CBUF, which the table leaves unspecified, holds the free
value of U3 (log entries 3, 4 and 24: the model's choice is the free value's form, not its value). -/
def Obligations.ResetValues : Prop :=
  (∀ i : Fin 16, State.reset.big.gpr[i.val] = none)
    ∧ (∀ s : State, readReg s (regOfIndex 16) = some 0 ∧ readReg s (regOfIndex 17) = some 1
        ∧ readReg s (regOfIndex 18) = some 2 ∧ readReg s (regOfIndex 19) = some 10 ∧ readReg s (regOfIndex 20) = some (-1)
        ∧ readReg s (regOfIndex 21) = some 2147483647 ∧ readReg s (regOfIndex 22) = some (-2147483648))
    ∧ State.reset.big.winSign = false ∧ State.reset.big.winLen = 0 ∧ State.reset.big.winDig = Vector.replicate 768 0
    ∧ wordAt State.reset 0x000 = 0x57534350 ∧ wordAt State.reset 0x004 = 0x20008010
    ∧ wordAt State.reset 0x008 = 0x08801020 ∧ wordAt State.reset 0x010 = 0
    ∧ wordAt State.reset 0x014 = 0 ∧ wordAt State.reset 0x018 = 0
    ∧ wordAt State.reset 0x01C = 0 ∧ wordAt State.reset 0x020 = 0
    ∧ wordAt State.reset 0x024 = 0 ∧ wordAt State.reset 0x048 = 0x007F0000
    ∧ State.reset.cip = ⟨Vector.replicate 32 0, false, Vector.replicate 32 0, Vector.replicate 32 0,
        Vector.replicate 16 0, 0, 0, 0⟩
    ∧ State.reset.str = ⟨.idle, false, false, false, Vector.replicate 32 0, Vector.replicate 32 0, Vector.replicate 32 0,
        Vector.replicate 32 0, 0, 0, 0, 0, 0, 0, 0, 0, 0, 0, 0, 0, 0, []⟩
    ∧ irq State.reset = false
    ∧ ∀ j, byteIn State.reset j = Config.cbufFree 0 j

/-- Power-on and a CTRL write with SOFTRST reset the block at any time, a command in flight abandoned: every part of the
state is as after reset, but for the model's own fields and the fresh free contents of CBUF (R1103, R1300; the counter
of resets is the model's, log entry 4). -/
def Obligations.ResetSources : Prop :=
  ∀ s : State,
    (∀ rest, s.port.turns = .powerOn :: rest →
        step s = .next { State.reset with port := { s.port with turns := rest, resets := s.port.resets + 1 } })
      ∧ ∀ (u : State) (w : Word), HostNext (.write (windowAddr 0x010) 4 w) s u → w.getLsbD 8 = true →
          step s = .next { State.reset with port := { u.port with resets := u.port.resets + 1 } }

/-- A CTRL write without SOFTRST: ERRCLR clears the error record and OVR; both write the enables, and nothing else
changes, BUSY or not. A STATUS write clears DONE with a 1 in bit 1, and has no effect without (R1104, R1105). -/
def Obligations.ErrorClearAndDoneClear : Prop :=
  ∀ (s u : State) (w : Word),
    (HostNext (.write (windowAddr 0x010) 4 w) s u → w.getLsbD 8 = false → w.getLsbD 9 = true → step s = .next { u with
        ctl := { u.ctl with err := false, ovr := false, errCode := .noError, errCmd := 0,
                            ieDone := w.getLsbD 0, ieErr := w.getLsbD 1 } })
      ∧ (HostNext (.write (windowAddr 0x010) 4 w) s u → w.getLsbD 8 = false → w.getLsbD 9 = false →
          step s = .next { u with ctl := { u.ctl with ieDone := w.getLsbD 0, ieErr := w.getLsbD 1 } })
      ∧ (HostNext (.write (windowAddr 0x014) 4 w) s u → w.getLsbD 1 = true → step s = .next { u with ctl.done := false })
      ∧ (HostNext (.write (windowAddr 0x014) 4 w) s u → w.getLsbD 1 = false → step s = .next u)

/-- Refused writes change nothing but OVR: CMD while BUSY or ERR, a data register while BUSY, a KEY word outside IDLE
(R1106). Writes to read-only registers and reserved offsets change nothing at all (R203). -/
def Obligations.RefusedAndIgnoredWrites : Prop :=
  ∀ (s u : State) (off : Nat) (w : Word), HostNext (.write (windowAddr off) 4 w) s u →
    (off = 0x018 → s.ctl.busy = true ∨ s.ctl.err = true → step s = .next { u with ctl.ovr := true })
      ∧ (DataOffset off → s.ctl.busy = true → step s = .next { u with ctl.ovr := true })
      ∧ (KeyOffset off → s.str.sstate ≠ .idle → step s = .next { u with ctl.ovr := true })
      ∧ (off % 4 = 0 → off < 0x4000 → ¬DataOffset off → off ≠ 0x010 → off ≠ 0x014 → off ≠ 0x018 → step s = .next u)

/-- A host read changes no register: only the model's record of the reply. While BUSY = 0, and of the status group at
any time, it answers the register's word (R212, R214; the reply list and the counter of free values are the model's, log
entries 2 and 5). And which register the word at each offset is: the map of the window, but for the words of StatusWords
and of CbufByteOrder (R202, R203, R206, R208, R213). -/
def Obligations.ReadsHaveNoEffect : Prop :=
  (∀ s : State,
    wordAt s 0x000 = 0x57534350 ∧ wordAt s 0x004 = 0x20008010 ∧ wordAt s 0x008 = 0x08801020
      ∧ (wordAt s 0x040).toNat = s.big.winSign.toNat ∧ (wordAt s 0x044).toNat = s.big.winLen.toNat
      ∧ (∀ i : Fin 768, i.val < 128 → wordAt s (0x400 + 4 * i.val) = s.big.winDig[i.val])
      ∧ ArrayAt s 0x080 s.cip.key ∧ ArrayAt s 0x0A0 s.str.iv ∧ ArrayAt s 0x0C0 s.str.cv
      ∧ ArrayAt s 0x0E0 s.str.trailer ∧ ArrayAt s 0x100 s.str.rxTrailer
      ∧ ArrayAt s 0x120 s.cip.blk ∧ ArrayAt s 0x140 s.cip.blk2 ∧ ArrayAt s 0x160 s.cip.rkey
      ∧ wordAt s 0x170 = s.cip.idxCluster ∧ (wordAt s 0x174).toNat = s.cip.idxBlock.toNat
      ∧ (wordAt s 0x178).toNat = s.cip.idxRound.toNat
      ∧ pairAt s 0x180 = s.str.len ∧ pairAt s 0x188 = s.str.nblk
      ∧ wordAt s 0x190 = s.str.cidx ∧ wordAt s 0x194 = s.str.nclust ∧ wordAt s 0x198 = s.str.blocks
      ∧ wordAt s 0x19C = s.str.outLen ∧ pairAt s 0x1A0 = s.str.off
      ∧ (wordAt s 0x1A8).toNat = 2 ^ 8 * s.str.padOff.toNat + s.str.padCount.toNat
      ∧ pairAt s 0x1AC = s.str.realLen ∧ pairAt s 0x1B4 = s.str.total ∧ pairAt s 0x1BC = s.str.lpad
      ∧ wordAt s 0x1C4 = s.str.hcount
      ∧ ∀ off, ReservedOffset off → wordAt s off = 0)
  ∧ ∀ (s u : State) (off : Nat), HostNext (.read (windowAddr off) 4) s u → off % 4 = 0 → off < 0x4000 →
    (∃ (v : Word) (k : Nat), step s = .next { u with port := { u.port with replies := v :: u.port.replies, busyReads := k } })
      ∧ (s.ctl.busy = false ∨ StatusOffset off → step s = .next { u with
          port := { u.port with replies := wordAt s off :: u.port.replies } })

/-- Every access that is not an aligned 32-bit access inside the window, the 16 KiB from CORE_BASE, is a bus error: the step
stops with that fault and answers no state, so nothing in the block changes (R201, R205, U7). -/
def Obligations.BusErrors : Prop :=
  ∀ (s u : State) (addr size : Nat),
    ¬(size = 4 ∧ addr % 4 = 0 ∧ params.coreBase ≤ addr ∧ addr < params.coreBase + 0x4000) →
      (HostNext (.read addr size) s u → step s = .fault (.busError addr size))
        ∧ ∀ w : Word, HostNext (.write addr size w) s u → step s = .fault (.busError addr size)

/-- An accepted write to a data register, read back: the word but for the reserved bits. Every other word of the window
reads as before, STATUS too unless a KEY word is written, and so does every piece of state that no word shows. A KEY word is
accepted while no transfer is open, every other data register also during one. Which register an offset names is
`ReadsHaveNoEffect`'s (R107, R120 to R134, R203, R204, R1106). -/
def Obligations.WriteThenRead : Prop :=
  ∀ (s u : State) (off : Nat) (w : Word), HostNext (.write (windowAddr off) 4 w) s u → s.ctl.busy = false →
    DataOffset off → (KeyOffset off → s.str.sstate = .idle) → ∃ t, step s = .next t
      ∧ wordAt t off = keptBits off w
      ∧ (∀ off', off' % 4 = 0 → off' < 0x4000 → off' ≠ off → (KeyOffset off → off' ≠ 0x014) →
          wordAt t off' = wordAt s off')
      ∧ t.big.gpr = s.big.gpr ∧ t.str.hashes = s.str.hashes ∧ t.ctl = s.ctl ∧ t.port = u.port

/-- An accepted write of a KEY word changes that word's bytes, bits [8k+7 : 8k] to byte 4j+k, clears KEYVALID, and
changes nothing else (R120, R206). -/
def Obligations.KeyWordWrite : Prop :=
  ∀ (s u : State) (j : Nat) (w : Word), j < 8 → HostNext (.write (windowAddr (0x080 + 4 * j)) 4 w) s u → s.ctl.busy = false →
    s.str.sstate = .idle →
      step s = .next { u with cip := { u.cip with
        keyValid := false
        key := Vector.ofFn fun i =>
          if i.val / 4 = j then w.extractLsb' (8 * (i.val % 4)) 8 else u.cip.key[i.val] } }

/-- CBUF: a word written at 0x1000 + 4k is bytes 4k to 4k+3, bits [8(j mod 4)+7 : 8(j mod 4)] for byte j, and every other
byte is as before; a word read there packs the same bytes; block i is the bytes 32i to 32i+31 (R207). -/
def Obligations.CbufByteOrder : Prop :=
  ∀ (s u : State) (k : Nat) (w : Word), k < 1032 → s.ctl.busy = false →
    (HostNext (.write (windowAddr (0x1000 + 4 * k)) 4 w) s u → ∃ t, step s = .next t ∧ t = { u with cbuf := t.cbuf }
        ∧ ∀ j, byteIn t j = if j / 4 = k then w.extractLsb' (8 * (j % 4)) 8 else byteIn s j)
      ∧ (HostNext (.read (windowAddr (0x1000 + 4 * k)) 4) s u → ∃ v : Word,
          step s = .next { u with port := { u.port with replies := v :: u.port.replies } }
            ∧ ∀ i, i < 4 → v.extractLsb' (8 * i) 8 = byteIn s (4 * k + i))
      ∧ ∀ (i : Nat) (j : Fin 32), (Cbuf.block s.port.resets s.cbuf i)[j.val] = byteIn s (32 * i + j.val)

/-- STATUS and BI_VALID bit by bit, the words of CTRL, LASTCMD, ERRCODE, ERRCMD and CMDCOUNT, the number of every error
code, and the interrupt output (R108, R113 to R118, R1200, R1207). -/
def Obligations.StatusWords : Prop :=
  ∀ s : State,
    (wordAt s 0x014).toNat =
        s.ctl.busy.toNat + 2 * s.ctl.done.toNat + 4 * s.ctl.err.toNat + 8 * s.ctl.ovr.toNat
          + 16 * (match s.ctl.cmpRes with | .equal => 0 | .greater => 1 | .less => 3)
          + 64 * s.cip.keyValid.toNat + 128 * s.str.authOk.toNat + 256 * s.str.authValid.toNat
          + 512 * s.str.padErr.toNat
          + 4096 * (match s.str.sstate with
            | .idle => 0 | .enc => 1 | .encDone => 2 | .dec => 3 | .decDone => 4 | .finished => 5)
      ∧ (∀ i : Fin 16, (wordAt s 0x048).getLsbD i.val = (s.big.gpr[i.val]).isSome)
      ∧ (wordAt s 0x048).extractLsb' 16 16 = 0x007F
      ∧ (wordAt s 0x010).toNat = s.ctl.ieDone.toNat + 2 * s.ctl.ieErr.toNat
      ∧ wordAt s 0x018 = s.ctl.lastCmd ∧ wordAt s 0x020 = s.ctl.errCmd ∧ wordAt s 0x024 = s.ctl.cmdCount
      ∧ wordAt s 0x01C = (match s.ctl.errCode with
          | .noError => 0x00 | .illegalOpcode => 0x01 | .badRegister => 0x02 | .constWrite => 0x03
          | .emptyOperand => 0x04 | .doubleUse => 0x05 | .divByZero => 0x06 | .notCoprime => 0x07
          | .badOperand => 0x08 | .capacity => 0x09 | .internal => 0x0A | .noKey => 0x0B | .state => 0x0C
          | .badLength => 0x0D)
      ∧ (irq s = true ↔ s.ctl.done = true ∧ s.ctl.ieDone = true ∨ s.ctl.err = true ∧ s.ctl.ieErr = true)

/- The invariant of the machine -/

/-- The state after reset has the invariant. -/
def Obligations.ResetInv : Prop := Inv State.reset

/-- Every step, of host, engine or platform, keeps the invariant: registers in range, control and error state
consistent, the streaming state consistent with SSTATE, a key held while a transfer is open, CBUF in its canonical form
(R102, R130, R133, R800, R1001, R1101, R1105, R1202). -/
def Obligations.StepKeepsInv : Prop := ∀ s t : State, Inv s → step s = .next t → Inv t

/- The round key and the round function: 45_block_cipher.md -/

/-- The round key, the round function and the rounds. Bit `n` of a round key is bit `n + r + c` of the left half of the key
exclusive-or bit `n + r + b` of its right half, counted modulo 128; bit `n` of the round function is bit `n + 8 + r` of the
substituted bytes, each the S-box of an input byte exclusive-or its round-key byte; the rounds 0 to 15 of encryption update
the left half where the round is even and the right half where it is odd. The S-box of a byte is the affine map of its
inverse in GF(2^8), or of 0 for the byte 0, exclusive-or 0x63; so it permutes the bytes, and it has the values that R902 gives
as examples (R901 to R905). -/
def Obligations.RoundFunctionBits : Prop :=
  (∀ (k : Block) (c b r n : Nat), n < 128 →
      bitIn (roundKey params k c b r) n
        = (bitIn k ((n + r + c) % 128) ^^ bitIn k (128 + (n + r + b) % 128)))
    ∧ (∀ (x : Half) (k : Block) (c b r n : Nat), n < 128 →
        bitIn (roundF params x k c b r) n
          = bitIn (Vector.ofFn fun i : Fin 16 => aesSbox (x[i.val] ^^^ (roundKey params k c b r)[i.val]))
              ((n + 8 + r) % 128))
    ∧ (∀ (p : Params) (x k : Block) (c b : Nat), ∃ L R : Nat → Half,
        bytesOfHalves (L 0) (R 0) = x
          ∧ (∀ r, r < 16 → r % 2 = 0 → L (r + 1) = xorBytes (L r) (roundF p (R r) k c b r) ∧ R (r + 1) = R r)
          ∧ (∀ r, r < 16 → r % 2 = 1 → R (r + 1) = xorBytes (R r) (roundF p (L r) k c b r) ∧ L (r + 1) = L r)
          ∧ encryptBlock p x k c b = bytesOfHalves (L 16) (R 16))
    ∧ (∀ a : Byte, ∃ b : Byte, (if a = 0 then b = 0 else fieldMul a b = 1) ∧ aesSbox a = affineMap b ^^^ 0x63)
    ∧ Function.Bijective aesSbox ∧ aesSbox 0x00 = 0x63 ∧ aesSbox 0x53 = 0xED ∧ aesSbox 0xFF = 0x16
end

