-- ==== Sys2Proof/Laws/Bytes.lean ====
section
/-! SUPPORT. The laws of byte strings: exclusive or cancels, halves and words read back. -/

namespace Sys2Proof.Machine

@[simp] theorem getElem_xorBytes (x y : Vector Byte n) (i : Nat) (h : i < n) : (xorBytes x y)[i] = x[i] ^^^ y[i] := by
  simp [xorBytes]

/-- Exclusive or with the same string twice gives the first back. -/
theorem xorBytes_cancel (x y : Vector Byte n) : xorBytes (xorBytes x y) y = x := by
  apply Vector.ext
  intro i h
  simp

@[simp] theorem leftHalf_joinHalves (l r : Half) : leftHalf (joinHalves l r) = l := by
  apply Vector.ext
  intro i h
  simp [leftHalf, joinHalves]

@[simp] theorem rightHalf_joinHalves (l r : Half) : rightHalf (joinHalves l r) = r := by
  apply Vector.ext
  intro i h
  simp [rightHalf, joinHalves]

@[simp] theorem joinHalves_halves (x : Block) : joinHalves (leftHalf x) (rightHalf x) = x := by
  apply Vector.ext
  intro i h
  by_cases hi : i < 16
  · simp [joinHalves, leftHalf, hi]
  · have : 16 + (i - 16) = i := by omega
    simp [joinHalves, rightHalf, hi, this]

theorem getElem_setWord (v : Vector Byte n) (j : Nat) (w : Word) (i : Nat) (h : i < n) :
    (setWord v j w)[i] = if i / 4 = j then byteOfWord w (i % 4) else v[i] := by simp [setWord]

/-- The four bytes of a word make the word. -/
theorem wordOfBytes_byteOfWord (w : Word) :
    wordOfBytes (byteOfWord w 0) (byteOfWord w 1) (byteOfWord w 2) (byteOfWord w 3) = w := by
  apply BitVec.eq_of_getLsbD_eq
  intro i hi
  simp only [wordOfBytes, byteOfWord, BitVec.getLsbD_append, BitVec.getLsbD_extractLsb']
  have h32 : i < 32 := hi
  interval_cases i <;> simp

/-- A word of a byte-array register reads back as it was written. -/
theorem getWord_setWord_same (v : Vector Byte n) (j : Nat) (w : Word) (h : 4 * j + 3 < n) :
    getWord (setWord v j w) j = w := by
  have e : ∀ k, k < 4 → byteOf (setWord v j w) (4 * j + k) = byteOfWord w k := by
    intro k hk
    have hlt : 4 * j + k < n := by omega
    have h1 : (4 * j + k) / 4 = j := by omega
    have h2 : (4 * j + k) % 4 = k := by omega
    simp [byteOf, hlt, getElem_setWord, h1, h2]
  rw [getWord, show 4 * j = 4 * j + 0 by rfl, e 0 (by omega), e 1 (by omega), e 2 (by omega), e 3 (by omega)]
  exact wordOfBytes_byteOfWord w

/-- A write of one word leaves the others. -/
theorem getWord_setWord_other (v : Vector Byte n) (i j : Nat) (w : Word) (h : i ≠ j) :
    getWord (setWord v j w) i = getWord v i := by
  have e : ∀ k, k < 4 → byteOf (setWord v j w) (4 * i + k) = byteOf v (4 * i + k) := by
    intro k hk
    by_cases hlt : 4 * i + k < n
    · have h1 : (4 * i + k) / 4 = i := by omega
      simp [byteOf, hlt, getElem_setWord, h1, h]
    · simp [byteOf, hlt]
  rw [getWord, show 4 * i = 4 * i + 0 by rfl, e 0 (by omega), e 1 (by omega), e 2 (by omega), e 3 (by omega)]
  rfl

/-- A round is its own inverse, for any parameters: the half it reads is the half it leaves. -/
theorem feistelRound_self (p : Params) (k : Block) (c b r : Nat) (lr : Half × Half) :
    feistelRound p k c b r (feistelRound p k c b r lr) = lr := by
  unfold feistelRound
  split <;> simp [xorBytes_cancel]

@[simp] theorem length_cbcEncrypt (p : Params) (k : Block) (c i : Nat) (prev : Block) (xs : List Block) :
    (cbcEncrypt p k c i prev xs).length = xs.length := by
  induction xs generalizing i prev with
  | nil => rfl
  | cons x xs ih => simp [cbcEncrypt, ih]

@[simp] theorem length_cbcDecrypt (p : Params) (k : Block) (c i : Nat) (prev : Block) (ys : List Block) :
    (cbcDecrypt p k c i prev ys).length = ys.length := by
  induction ys generalizing i prev with
  | nil => rfl
  | cons y ys ih => simp [cbcDecrypt, ih]

end Sys2Proof.Machine
end

