-- ==== Sys2Proof/Laws/State.lean ====
section
/-! SUPPORT. What each update of the state leaves alone and what it sets: one lemma per field, true by `rfl`. -/

namespace Sys2Proof.Machine

@[simp] theorem complete_big (s : State) : (complete s).big = s.big := rfl
@[simp] theorem complete_cip (s : State) : (complete s).cip = s.cip := rfl
@[simp] theorem complete_str (s : State) : (complete s).str = s.str := rfl
@[simp] theorem complete_cbuf (s : State) : (complete s).cbuf = s.cbuf := rfl
@[simp] theorem complete_port (s : State) : (complete s).port = s.port := rfl
@[simp] theorem complete_ctl_busy (s : State) : (complete s).ctl.busy = false := rfl
@[simp] theorem complete_ctl_done (s : State) : (complete s).ctl.done = true := rfl
@[simp] theorem complete_ctl_cmdCount (s : State) : (complete s).ctl.cmdCount = s.ctl.cmdCount + 1 := rfl
@[simp] theorem complete_ctl_ieDone (s : State) : (complete s).ctl.ieDone = s.ctl.ieDone := rfl
@[simp] theorem complete_ctl_ieErr (s : State) : (complete s).ctl.ieErr = s.ctl.ieErr := rfl
@[simp] theorem complete_ctl_err (s : State) : (complete s).ctl.err = s.ctl.err := rfl
@[simp] theorem complete_ctl_ovr (s : State) : (complete s).ctl.ovr = s.ctl.ovr := rfl
@[simp] theorem complete_ctl_cmpRes (s : State) : (complete s).ctl.cmpRes = s.ctl.cmpRes := rfl
@[simp] theorem complete_ctl_lastCmd (s : State) : (complete s).ctl.lastCmd = s.ctl.lastCmd := rfl
@[simp] theorem complete_ctl_errCode (s : State) : (complete s).ctl.errCode = s.ctl.errCode := rfl
@[simp] theorem complete_ctl_errCmd (s : State) : (complete s).ctl.errCmd = s.ctl.errCmd := rfl

@[simp] theorem raiseError_big (c : ErrCode) (s : State) : (raiseError c s).big = s.big := rfl
@[simp] theorem raiseError_cip (c : ErrCode) (s : State) : (raiseError c s).cip = s.cip := rfl
@[simp] theorem raiseError_str (c : ErrCode) (s : State) : (raiseError c s).str = s.str := rfl
@[simp] theorem raiseError_cbuf (c : ErrCode) (s : State) : (raiseError c s).cbuf = s.cbuf := rfl
@[simp] theorem raiseError_port (c : ErrCode) (s : State) : (raiseError c s).port = s.port := rfl
@[simp] theorem raiseError_ctl_busy (c : ErrCode) (s : State) : (raiseError c s).ctl.busy = false := rfl
@[simp] theorem raiseError_ctl_err (c : ErrCode) (s : State) : (raiseError c s).ctl.err = true := rfl
@[simp] theorem raiseError_ctl_errCode (c : ErrCode) (s : State) : (raiseError c s).ctl.errCode = if s.ctl.errCode = .noError then c else s.ctl.errCode := rfl
@[simp] theorem raiseError_ctl_errCmd (c : ErrCode) (s : State) : (raiseError c s).ctl.errCmd = if s.ctl.errCode = .noError then s.ctl.lastCmd else s.ctl.errCmd := rfl
@[simp] theorem raiseError_ctl_ieDone (c : ErrCode) (s : State) : (raiseError c s).ctl.ieDone = s.ctl.ieDone := rfl
@[simp] theorem raiseError_ctl_ieErr (c : ErrCode) (s : State) : (raiseError c s).ctl.ieErr = s.ctl.ieErr := rfl
@[simp] theorem raiseError_ctl_done (c : ErrCode) (s : State) : (raiseError c s).ctl.done = s.ctl.done := rfl
@[simp] theorem raiseError_ctl_ovr (c : ErrCode) (s : State) : (raiseError c s).ctl.ovr = s.ctl.ovr := rfl
@[simp] theorem raiseError_ctl_cmpRes (c : ErrCode) (s : State) : (raiseError c s).ctl.cmpRes = s.ctl.cmpRes := rfl
@[simp] theorem raiseError_ctl_lastCmd (c : ErrCode) (s : State) : (raiseError c s).ctl.lastCmd = s.ctl.lastCmd := rfl
@[simp] theorem raiseError_ctl_cmdCount (c : ErrCode) (s : State) : (raiseError c s).ctl.cmdCount = s.ctl.cmdCount := rfl

@[simp] theorem errClear_big (d e : Bool) (s : State) : (errClear d e s).big = s.big := rfl
@[simp] theorem errClear_cip (d e : Bool) (s : State) : (errClear d e s).cip = s.cip := rfl
@[simp] theorem errClear_str (d e : Bool) (s : State) : (errClear d e s).str = s.str := rfl
@[simp] theorem errClear_cbuf (d e : Bool) (s : State) : (errClear d e s).cbuf = s.cbuf := rfl
@[simp] theorem errClear_port (d e : Bool) (s : State) : (errClear d e s).port = s.port := rfl
@[simp] theorem errClear_ctl_ieDone (d e : Bool) (s : State) : (errClear d e s).ctl.ieDone = d := rfl
@[simp] theorem errClear_ctl_ieErr (d e : Bool) (s : State) : (errClear d e s).ctl.ieErr = e := rfl
@[simp] theorem errClear_ctl_err (d e : Bool) (s : State) : (errClear d e s).ctl.err = false := rfl
@[simp] theorem errClear_ctl_ovr (d e : Bool) (s : State) : (errClear d e s).ctl.ovr = false := rfl
@[simp] theorem errClear_ctl_errCode (d e : Bool) (s : State) : (errClear d e s).ctl.errCode = .noError := rfl
@[simp] theorem errClear_ctl_errCmd (d e : Bool) (s : State) : (errClear d e s).ctl.errCmd = 0 := rfl
@[simp] theorem errClear_ctl_busy (d e : Bool) (s : State) : (errClear d e s).ctl.busy = s.ctl.busy := rfl
@[simp] theorem errClear_ctl_done (d e : Bool) (s : State) : (errClear d e s).ctl.done = s.ctl.done := rfl
@[simp] theorem errClear_ctl_cmpRes (d e : Bool) (s : State) : (errClear d e s).ctl.cmpRes = s.ctl.cmpRes := rfl
@[simp] theorem errClear_ctl_lastCmd (d e : Bool) (s : State) : (errClear d e s).ctl.lastCmd = s.ctl.lastCmd := rfl
@[simp] theorem errClear_ctl_cmdCount (d e : Bool) (s : State) : (errClear d e s).ctl.cmdCount = s.ctl.cmdCount := rfl

@[simp] theorem refuseWrite_big (s : State) : (refuseWrite s).big = s.big := rfl
@[simp] theorem refuseWrite_cip (s : State) : (refuseWrite s).cip = s.cip := rfl
@[simp] theorem refuseWrite_str (s : State) : (refuseWrite s).str = s.str := rfl
@[simp] theorem refuseWrite_cbuf (s : State) : (refuseWrite s).cbuf = s.cbuf := rfl
@[simp] theorem refuseWrite_port (s : State) : (refuseWrite s).port = s.port := rfl
@[simp] theorem refuseWrite_ctl_ovr (s : State) : (refuseWrite s).ctl.ovr = true := rfl
@[simp] theorem refuseWrite_ctl_ieDone (s : State) : (refuseWrite s).ctl.ieDone = s.ctl.ieDone := rfl
@[simp] theorem refuseWrite_ctl_ieErr (s : State) : (refuseWrite s).ctl.ieErr = s.ctl.ieErr := rfl
@[simp] theorem refuseWrite_ctl_busy (s : State) : (refuseWrite s).ctl.busy = s.ctl.busy := rfl
@[simp] theorem refuseWrite_ctl_done (s : State) : (refuseWrite s).ctl.done = s.ctl.done := rfl
@[simp] theorem refuseWrite_ctl_err (s : State) : (refuseWrite s).ctl.err = s.ctl.err := rfl
@[simp] theorem refuseWrite_ctl_cmpRes (s : State) : (refuseWrite s).ctl.cmpRes = s.ctl.cmpRes := rfl
@[simp] theorem refuseWrite_ctl_lastCmd (s : State) : (refuseWrite s).ctl.lastCmd = s.ctl.lastCmd := rfl
@[simp] theorem refuseWrite_ctl_errCode (s : State) : (refuseWrite s).ctl.errCode = s.ctl.errCode := rfl
@[simp] theorem refuseWrite_ctl_errCmd (s : State) : (refuseWrite s).ctl.errCmd = s.ctl.errCmd := rfl
@[simp] theorem refuseWrite_ctl_cmdCount (s : State) : (refuseWrite s).ctl.cmdCount = s.ctl.cmdCount := rfl

@[simp] theorem setCmpRes_big (r : CmpRes) (s : State) : (setCmpRes r s).big = s.big := rfl
@[simp] theorem setCmpRes_cip (r : CmpRes) (s : State) : (setCmpRes r s).cip = s.cip := rfl
@[simp] theorem setCmpRes_str (r : CmpRes) (s : State) : (setCmpRes r s).str = s.str := rfl
@[simp] theorem setCmpRes_cbuf (r : CmpRes) (s : State) : (setCmpRes r s).cbuf = s.cbuf := rfl
@[simp] theorem setCmpRes_port (r : CmpRes) (s : State) : (setCmpRes r s).port = s.port := rfl
@[simp] theorem setCmpRes_ctl_cmpRes (r : CmpRes) (s : State) : (setCmpRes r s).ctl.cmpRes = r := rfl
@[simp] theorem setCmpRes_ctl_ieDone (r : CmpRes) (s : State) : (setCmpRes r s).ctl.ieDone = s.ctl.ieDone := rfl
@[simp] theorem setCmpRes_ctl_ieErr (r : CmpRes) (s : State) : (setCmpRes r s).ctl.ieErr = s.ctl.ieErr := rfl
@[simp] theorem setCmpRes_ctl_busy (r : CmpRes) (s : State) : (setCmpRes r s).ctl.busy = s.ctl.busy := rfl
@[simp] theorem setCmpRes_ctl_done (r : CmpRes) (s : State) : (setCmpRes r s).ctl.done = s.ctl.done := rfl
@[simp] theorem setCmpRes_ctl_err (r : CmpRes) (s : State) : (setCmpRes r s).ctl.err = s.ctl.err := rfl
@[simp] theorem setCmpRes_ctl_ovr (r : CmpRes) (s : State) : (setCmpRes r s).ctl.ovr = s.ctl.ovr := rfl
@[simp] theorem setCmpRes_ctl_lastCmd (r : CmpRes) (s : State) : (setCmpRes r s).ctl.lastCmd = s.ctl.lastCmd := rfl
@[simp] theorem setCmpRes_ctl_errCode (r : CmpRes) (s : State) : (setCmpRes r s).ctl.errCode = s.ctl.errCode := rfl
@[simp] theorem setCmpRes_ctl_errCmd (r : CmpRes) (s : State) : (setCmpRes r s).ctl.errCmd = s.ctl.errCmd := rfl
@[simp] theorem setCmpRes_ctl_cmdCount (r : CmpRes) (s : State) : (setCmpRes r s).ctl.cmdCount = s.ctl.cmdCount := rfl

@[simp] theorem resetBlock_big (s : State) : (resetBlock s).big = BigRegs.reset := rfl
@[simp] theorem resetBlock_ctl (s : State) : (resetBlock s).ctl = CtlRegs.reset := rfl
@[simp] theorem resetBlock_cip (s : State) : (resetBlock s).cip = CipherRegs.reset := rfl
@[simp] theorem resetBlock_str (s : State) : (resetBlock s).str = StreamRegs.reset := rfl
@[simp] theorem resetBlock_cbuf (s : State) : (resetBlock s).cbuf = [] := rfl
@[simp] theorem resetBlock_port_turns (s : State) : (resetBlock s).port.turns = s.port.turns := rfl
@[simp] theorem resetBlock_port_replies (s : State) : (resetBlock s).port.replies = s.port.replies := rfl
@[simp] theorem resetBlock_port_busyReads (s : State) : (resetBlock s).port.busyReads = s.port.busyReads := rfl
@[simp] theorem resetBlock_port_resets (s : State) : (resetBlock s).port.resets = s.port.resets + 1 := rfl

@[simp] theorem writeGpr_ctl (i : Fin 16) (v : Int) (s : State) : (writeGpr i v s).ctl = s.ctl := rfl
@[simp] theorem writeGpr_cip (i : Fin 16) (v : Int) (s : State) : (writeGpr i v s).cip = s.cip := rfl
@[simp] theorem writeGpr_str (i : Fin 16) (v : Int) (s : State) : (writeGpr i v s).str = s.str := rfl
@[simp] theorem writeGpr_cbuf (i : Fin 16) (v : Int) (s : State) : (writeGpr i v s).cbuf = s.cbuf := rfl
@[simp] theorem writeGpr_port (i : Fin 16) (v : Int) (s : State) : (writeGpr i v s).port = s.port := rfl
@[simp] theorem writeGpr_big_gpr (i : Fin 16) (v : Int) (s : State) : (writeGpr i v s).big.gpr = s.big.gpr.set i.val (some v) := rfl
@[simp] theorem writeGpr_big_winSign (i : Fin 16) (v : Int) (s : State) : (writeGpr i v s).big.winSign = s.big.winSign := rfl
@[simp] theorem writeGpr_big_winLen (i : Fin 16) (v : Int) (s : State) : (writeGpr i v s).big.winLen = s.big.winLen := rfl
@[simp] theorem writeGpr_big_winDig (i : Fin 16) (v : Int) (s : State) : (writeGpr i v s).big.winDig = s.big.winDig := rfl

@[simp] theorem clearGpr_ctl (i : Fin 16) (s : State) : (clearGpr i s).ctl = s.ctl := rfl
@[simp] theorem clearGpr_cip (i : Fin 16) (s : State) : (clearGpr i s).cip = s.cip := rfl
@[simp] theorem clearGpr_str (i : Fin 16) (s : State) : (clearGpr i s).str = s.str := rfl
@[simp] theorem clearGpr_cbuf (i : Fin 16) (s : State) : (clearGpr i s).cbuf = s.cbuf := rfl
@[simp] theorem clearGpr_port (i : Fin 16) (s : State) : (clearGpr i s).port = s.port := rfl
@[simp] theorem clearGpr_big_gpr (i : Fin 16) (s : State) : (clearGpr i s).big.gpr = s.big.gpr.set i.val none := rfl
@[simp] theorem clearGpr_big_winSign (i : Fin 16) (s : State) : (clearGpr i s).big.winSign = s.big.winSign := rfl
@[simp] theorem clearGpr_big_winLen (i : Fin 16) (s : State) : (clearGpr i s).big.winLen = s.big.winLen := rfl
@[simp] theorem clearGpr_big_winDig (i : Fin 16) (s : State) : (clearGpr i s).big.winDig = s.big.winDig := rfl

@[simp] theorem establishKey_big (k : Block) (s : State) : (establishKey k s).big = s.big := rfl
@[simp] theorem establishKey_ctl (k : Block) (s : State) : (establishKey k s).ctl = s.ctl := rfl
@[simp] theorem establishKey_str (k : Block) (s : State) : (establishKey k s).str = s.str := rfl
@[simp] theorem establishKey_cbuf (k : Block) (s : State) : (establishKey k s).cbuf = s.cbuf := rfl
@[simp] theorem establishKey_port (k : Block) (s : State) : (establishKey k s).port = s.port := rfl
@[simp] theorem establishKey_cip_key (k : Block) (s : State) : (establishKey k s).cip.key = k := rfl
@[simp] theorem establishKey_cip_keyValid (k : Block) (s : State) : (establishKey k s).cip.keyValid = true := rfl
@[simp] theorem establishKey_cip_blk (k : Block) (s : State) : (establishKey k s).cip.blk = s.cip.blk := rfl
@[simp] theorem establishKey_cip_blk2 (k : Block) (s : State) : (establishKey k s).cip.blk2 = s.cip.blk2 := rfl
@[simp] theorem establishKey_cip_rkey (k : Block) (s : State) : (establishKey k s).cip.rkey = s.cip.rkey := rfl
@[simp] theorem establishKey_cip_idxCluster (k : Block) (s : State) : (establishKey k s).cip.idxCluster = s.cip.idxCluster := rfl
@[simp] theorem establishKey_cip_idxBlock (k : Block) (s : State) : (establishKey k s).cip.idxBlock = s.cip.idxBlock := rfl
@[simp] theorem establishKey_cip_idxRound (k : Block) (s : State) : (establishKey k s).cip.idxRound = s.cip.idxRound := rfl

@[simp] theorem setBlk_big (x : Block) (s : State) : (setBlk x s).big = s.big := rfl
@[simp] theorem setBlk_ctl (x : Block) (s : State) : (setBlk x s).ctl = s.ctl := rfl
@[simp] theorem setBlk_str (x : Block) (s : State) : (setBlk x s).str = s.str := rfl
@[simp] theorem setBlk_cbuf (x : Block) (s : State) : (setBlk x s).cbuf = s.cbuf := rfl
@[simp] theorem setBlk_port (x : Block) (s : State) : (setBlk x s).port = s.port := rfl
@[simp] theorem setBlk_cip_blk (x : Block) (s : State) : (setBlk x s).cip.blk = x := rfl
@[simp] theorem setBlk_cip_key (x : Block) (s : State) : (setBlk x s).cip.key = s.cip.key := rfl
@[simp] theorem setBlk_cip_keyValid (x : Block) (s : State) : (setBlk x s).cip.keyValid = s.cip.keyValid := rfl
@[simp] theorem setBlk_cip_blk2 (x : Block) (s : State) : (setBlk x s).cip.blk2 = s.cip.blk2 := rfl
@[simp] theorem setBlk_cip_rkey (x : Block) (s : State) : (setBlk x s).cip.rkey = s.cip.rkey := rfl
@[simp] theorem setBlk_cip_idxCluster (x : Block) (s : State) : (setBlk x s).cip.idxCluster = s.cip.idxCluster := rfl
@[simp] theorem setBlk_cip_idxBlock (x : Block) (s : State) : (setBlk x s).cip.idxBlock = s.cip.idxBlock := rfl
@[simp] theorem setBlk_cip_idxRound (x : Block) (s : State) : (setBlk x s).cip.idxRound = s.cip.idxRound := rfl

@[simp] theorem openTransfer_big (q : SState) (n k l p : Nat) (s : State) : (openTransfer q n k l p s).big = s.big := rfl
@[simp] theorem openTransfer_ctl (q : SState) (n k l p : Nat) (s : State) : (openTransfer q n k l p s).ctl = s.ctl := rfl
@[simp] theorem openTransfer_cip (q : SState) (n k l p : Nat) (s : State) : (openTransfer q n k l p s).cip = s.cip := rfl
@[simp] theorem openTransfer_cbuf (q : SState) (n k l p : Nat) (s : State) : (openTransfer q n k l p s).cbuf = s.cbuf := rfl
@[simp] theorem openTransfer_port (q : SState) (n k l p : Nat) (s : State) : (openTransfer q n k l p s).port = s.port := rfl
@[simp] theorem openTransfer_str_sstate (q : SState) (n k l p : Nat) (s : State) : (openTransfer q n k l p s).str.sstate = q := rfl
@[simp] theorem openTransfer_str_iv (q : SState) (n k l p : Nat) (s : State) : (openTransfer q n k l p s).str.iv = s.str.iv := rfl
@[simp] theorem openTransfer_str_rxTrailer (q : SState) (n k l p : Nat) (s : State) : (openTransfer q n k l p s).str.rxTrailer = s.str.rxTrailer := rfl
@[simp] theorem openTransfer_str_len (q : SState) (n k l p : Nat) (s : State) : (openTransfer q n k l p s).str.len = s.str.len := rfl

@[simp] theorem closeTransfer_big (s : State) : (closeTransfer s).big = s.big := rfl
@[simp] theorem closeTransfer_ctl (s : State) : (closeTransfer s).ctl = s.ctl := rfl
@[simp] theorem closeTransfer_cip (s : State) : (closeTransfer s).cip = s.cip := rfl
@[simp] theorem closeTransfer_cbuf (s : State) : (closeTransfer s).cbuf = s.cbuf := rfl
@[simp] theorem closeTransfer_port (s : State) : (closeTransfer s).port = s.port := rfl
@[simp] theorem closeTransfer_str_sstate (s : State) : (closeTransfer s).str.sstate = .idle := rfl
@[simp] theorem closeTransfer_str_iv (s : State) : (closeTransfer s).str.iv = s.str.iv := rfl
@[simp] theorem closeTransfer_str_rxTrailer (s : State) : (closeTransfer s).str.rxTrailer = s.str.rxTrailer := rfl
@[simp] theorem closeTransfer_str_len (s : State) : (closeTransfer s).str.len = s.str.len := rfl
@[simp] theorem closeTransfer_str_trailer (s : State) : (closeTransfer s).str.trailer = s.str.trailer := rfl
@[simp] theorem closeTransfer_str_authOk (s : State) : (closeTransfer s).str.authOk = s.str.authOk := rfl
@[simp] theorem closeTransfer_str_authValid (s : State) : (closeTransfer s).str.authValid = s.str.authValid := rfl
@[simp] theorem closeTransfer_str_padErr (s : State) : (closeTransfer s).str.padErr = s.str.padErr := rfl

@[simp] theorem encryptCluster_big (p : Params) (s : State) : (encryptCluster p s).big = s.big := rfl
@[simp] theorem encryptCluster_ctl (p : Params) (s : State) : (encryptCluster p s).ctl = s.ctl := rfl
@[simp] theorem encryptCluster_cip (p : Params) (s : State) : (encryptCluster p s).cip = s.cip := rfl
@[simp] theorem encryptCluster_port (p : Params) (s : State) : (encryptCluster p s).port = s.port := rfl
@[simp] theorem encryptCluster_str_iv (p : Params) (s : State) : (encryptCluster p s).str.iv = s.str.iv := rfl
@[simp] theorem encryptCluster_str_rxTrailer (p : Params) (s : State) : (encryptCluster p s).str.rxTrailer = s.str.rxTrailer := rfl
@[simp] theorem encryptCluster_str_len (p : Params) (s : State) : (encryptCluster p s).str.len = s.str.len := rfl
@[simp] theorem encryptCluster_str_trailer (p : Params) (s : State) : (encryptCluster p s).str.trailer = s.str.trailer := rfl
@[simp] theorem encryptCluster_str_authOk (p : Params) (s : State) : (encryptCluster p s).str.authOk = s.str.authOk := rfl
@[simp] theorem encryptCluster_str_authValid (p : Params) (s : State) : (encryptCluster p s).str.authValid = s.str.authValid := rfl
@[simp] theorem encryptCluster_str_padErr (p : Params) (s : State) : (encryptCluster p s).str.padErr = s.str.padErr := rfl
@[simp] theorem encryptCluster_str_nblk (p : Params) (s : State) : (encryptCluster p s).str.nblk = s.str.nblk := rfl
@[simp] theorem encryptCluster_str_nclust (p : Params) (s : State) : (encryptCluster p s).str.nclust = s.str.nclust := rfl
@[simp] theorem encryptCluster_str_realLen (p : Params) (s : State) : (encryptCluster p s).str.realLen = s.str.realLen := rfl
@[simp] theorem encryptCluster_str_total (p : Params) (s : State) : (encryptCluster p s).str.total = s.str.total := rfl
@[simp] theorem encryptCluster_str_lpad (p : Params) (s : State) : (encryptCluster p s).str.lpad = s.str.lpad := rfl

@[simp] theorem decryptCluster_big (p : Params) (s : State) : (decryptCluster p s).big = s.big := rfl
@[simp] theorem decryptCluster_ctl (p : Params) (s : State) : (decryptCluster p s).ctl = s.ctl := rfl
@[simp] theorem decryptCluster_cip (p : Params) (s : State) : (decryptCluster p s).cip = s.cip := rfl
@[simp] theorem decryptCluster_port (p : Params) (s : State) : (decryptCluster p s).port = s.port := rfl
@[simp] theorem decryptCluster_str_iv (p : Params) (s : State) : (decryptCluster p s).str.iv = s.str.iv := rfl
@[simp] theorem decryptCluster_str_rxTrailer (p : Params) (s : State) : (decryptCluster p s).str.rxTrailer = s.str.rxTrailer := rfl
@[simp] theorem decryptCluster_str_len (p : Params) (s : State) : (decryptCluster p s).str.len = s.str.len := rfl
@[simp] theorem decryptCluster_str_trailer (p : Params) (s : State) : (decryptCluster p s).str.trailer = s.str.trailer := rfl
@[simp] theorem decryptCluster_str_authOk (p : Params) (s : State) : (decryptCluster p s).str.authOk = s.str.authOk := rfl
@[simp] theorem decryptCluster_str_authValid (p : Params) (s : State) : (decryptCluster p s).str.authValid = s.str.authValid := rfl
@[simp] theorem decryptCluster_str_nblk (p : Params) (s : State) : (decryptCluster p s).str.nblk = s.str.nblk := rfl
@[simp] theorem decryptCluster_str_nclust (p : Params) (s : State) : (decryptCluster p s).str.nclust = s.str.nclust := rfl
@[simp] theorem decryptCluster_str_total (p : Params) (s : State) : (decryptCluster p s).str.total = s.str.total := rfl
@[simp] theorem decryptCluster_str_lpad (p : Params) (s : State) : (decryptCluster p s).str.lpad = s.str.lpad := rfl

end Sys2Proof.Machine
end

