-- ==== Sys2Proof/Laws/Ops.lean ====
section
/-! SUPPORT. What each shared operation of the commands can do, said once. -/

namespace Sys2Proof.Machine

/-- Completion in the words of the statements (R1101). -/
theorem complete_eq (s : State) : complete s = { s with ctl := completedCtl s.ctl } := rfl

/-- Error entry in the words of the statements (R1202). -/
theorem raiseError_eq (c : ErrCode) (s : State) : raiseError c s = errored c s := rfl

@[simp] theorem finishCommand_ok (s t : State) : finishCommand s (.ok t) = .next (complete t) := rfl

@[simp] theorem finishCommand_error (s : State) (c : ErrCode) :
    finishCommand s (.error c) = .next (raiseError c s) := rfl

/- What consuming a source and writing a register leave alone (R402, R403). -/

@[simp] theorem writeReg_ctl (s : State) (r : RegName) (v : Int) : (writeReg s r v).ctl = s.ctl := by cases r <;> rfl
@[simp] theorem writeReg_cip (s : State) (r : RegName) (v : Int) : (writeReg s r v).cip = s.cip := by cases r <;> rfl
@[simp] theorem writeReg_str (s : State) (r : RegName) (v : Int) : (writeReg s r v).str = s.str := by cases r <;> rfl
@[simp] theorem writeReg_cbuf (s : State) (r : RegName) (v : Int) : (writeReg s r v).cbuf = s.cbuf := by cases r <;> rfl
@[simp] theorem writeReg_port (s : State) (r : RegName) (v : Int) : (writeReg s r v).port = s.port := by cases r <;> rfl
@[simp] theorem writeReg_big_winSign (s : State) (r : RegName) (v : Int) : (writeReg s r v).big.winSign = s.big.winSign := by cases r <;> rfl
@[simp] theorem writeReg_big_winLen (s : State) (r : RegName) (v : Int) : (writeReg s r v).big.winLen = s.big.winLen := by cases r <;> rfl
@[simp] theorem writeReg_big_winDig (s : State) (r : RegName) (v : Int) : (writeReg s r v).big.winDig = s.big.winDig := by cases r <;> rfl

@[simp] theorem consume_ctl (s : State) (r : RegName) : (consume s r).ctl = s.ctl := by cases r <;> rfl
@[simp] theorem consume_cip (s : State) (r : RegName) : (consume s r).cip = s.cip := by cases r <;> rfl
@[simp] theorem consume_str (s : State) (r : RegName) : (consume s r).str = s.str := by cases r <;> rfl
@[simp] theorem consume_cbuf (s : State) (r : RegName) : (consume s r).cbuf = s.cbuf := by cases r <;> rfl
@[simp] theorem consume_port (s : State) (r : RegName) : (consume s r).port = s.port := by cases r <;> rfl
@[simp] theorem consume_big_winSign (s : State) (r : RegName) : (consume s r).big.winSign = s.big.winSign := by cases r <;> rfl
@[simp] theorem consume_big_winLen (s : State) (r : RegName) : (consume s r).big.winLen = s.big.winLen := by cases r <;> rfl
@[simp] theorem consume_big_winDig (s : State) (r : RegName) : (consume s r).big.winDig = s.big.winDig := by cases r <;> rfl

/-- The two ends of a command (R1101, R1202). -/
theorem finishCommand_cases {s t : State} {r : CmdResult} (h : finishCommand s r = .next t) :
    (∃ u, r = .ok u ∧ t = complete u) ∨ (∃ c, r = .error c ∧ t = raiseError c s) := by
  cases r with
  | ok u => exact .inl ⟨u, rfl, by simpa using h.symm⟩
  | error c => exact .inr ⟨c, rfl, by simpa using h.symm⟩

/-- A command with operands has its effect exactly when the preamble finds no error. -/
theorem withOperands_ok {s t : State} {dst : Option RegName} {srcs : List RegName} {cons : Bool} {body : CmdResult} :
    withOperands s dst srcs cons body = .ok t ↔ preamble s dst srcs cons = none ∧ body = .ok t := by
  unfold withOperands
  cases preamble s dst srcs cons <;> simp

theorem withOperands_of_none {s : State} {dst : Option RegName} {srcs : List RegName} {cons : Bool}
    {body : CmdResult} (h : preamble s dst srcs cons = none) : withOperands s dst srcs cons body = body := by
  simp [withOperands, h]

theorem withOperands_of_some {s : State} {dst : Option RegName} {srcs : List RegName} {cons : Bool}
    {body : CmdResult} {c : ErrCode} (h : preamble s dst srcs cons = some c) :
    withOperands s dst srcs cons body = .error c := by
  simp [withOperands, h]

/-- A source that holds a value is neither reserved nor empty. -/
theorem not_reserved_of_readReg {s : State} {r : RegName} {v : Int} (h : readReg s r = some v) :
    isReserved r = false ∧ isEmpty s r = false := by
  cases r <;> simp_all [readReg, isReserved, isEmpty]

theorem regValue_of_readReg {s : State} {r : RegName} {v : Int} (h : readReg s r = some v) : regValue s r = v := by
  simp [regValue, h]

/-- The double-use check says what R404 says. -/
theorem usesTwice_false {srcs : List RegName} (h : NoDoubleUse srcs) : usesTwice srcs = false := by
  induction srcs with
  | nil => rfl
  | cons r rest ih =>
    have hrest : NoDoubleUse rest := fun i => by
      have := h i
      rw [List.count_cons] at this
      omega
    simp only [usesTwice, ih hrest, Bool.or_false]
    cases r with
    | general i =>
      have := h i
      rw [List.count_cons_self] at this
      have h0 : rest.count (RegName.general i) = 0 := by omega
      rw [List.count_eq_zero] at h0
      simp [isConst, isReserved, h0]
    | const c => simp [isConst]
    | reserved n => simp [isReserved]

theorem usesTwice_true {srcs : List RegName} (h : ¬NoDoubleUse srcs) : usesTwice srcs = true := by
  induction srcs with
  | nil => exact absurd (fun i => by simp) h
  | cons r rest ih =>
    by_cases hr : NoDoubleUse rest
    · simp only [NoDoubleUse, not_forall] at h
      obtain ⟨i, hi⟩ := h
      have := hr i
      rw [List.count_cons] at hi
      have hri : r = RegName.general i := by
        by_contra hne
        simp [hne] at hi
        omega
      subst hri
      have h1 : rest.count (RegName.general i) ≠ 0 := by simp at hi; omega
      have hm : RegName.general i ∈ rest := by
        by_contra hn
        exact h1 (List.count_eq_zero.mpr hn)
      simp [usesTwice, isConst, isReserved, hm]
    · simp [usesTwice, ih hr]

/-- The preamble of a consuming command whose operands are ready finds no error (R401). -/
theorem preamble_ready {s : State} {d : Fin 16} {srcs : List RegName} {cons : Bool}
    (hv : ∀ r ∈ srcs, ∃ v, readReg s r = some v) (hd : cons = true → NoDoubleUse srcs) :
    preamble s (some (.general d)) srcs cons = none := by
  have h1 : srcs.any isReserved = false := by
    rw [List.any_eq_false]
    intro r hr
    obtain ⟨v, h⟩ := hv r hr
    simp [(not_reserved_of_readReg h).1]
  have h2 : srcs.any (isEmpty s) = false := by
    rw [List.any_eq_false]
    intro r hr
    obtain ⟨v, h⟩ := hv r hr
    simp [(not_reserved_of_readReg h).2]
  unfold preamble
  simp only [Option.toList_some, List.singleton_append, List.any_cons, h1, h2, Option.any_some, isReserved, isConst]
  cases cons
  · simp
  · simp [usesTwice_false (hd rfl)]

/-- The preamble of a command without a destination (R401). -/
theorem preamble_ready_noDst {s : State} {srcs : List RegName} {cons : Bool}
    (hv : ∀ r ∈ srcs, ∃ v, readReg s r = some v) (hd : cons = true → NoDoubleUse srcs) :
    preamble s none srcs cons = none := by
  have h1 : srcs.any isReserved = false := by
    rw [List.any_eq_false]
    intro r hr
    obtain ⟨v, h⟩ := hv r hr
    simp [(not_reserved_of_readReg h).1]
  have h2 : srcs.any (isEmpty s) = false := by
    rw [List.any_eq_false]
    intro r hr
    obtain ⟨v, h⟩ := hv r hr
    simp [(not_reserved_of_readReg h).2]
  unfold preamble
  simp only [Option.toList_none, List.nil_append, h1, h2, Option.any_none]
  cases cons
  · simp
  · simp [usesTwice_false (hd rfl)]

/-- The register file with a list of sources consumed. -/
def consumedRegs (g : Vector (Option Int) 16) (srcs : List RegName) : Vector (Option Int) 16 :=
  Vector.ofFn fun i => if RegName.general i ∈ srcs then none else g[i.val]

/-- Consuming a list of sources: the general registers in it hold no value, everything else is as before (R403). -/
theorem foldl_consume (srcs : List RegName) (s : State) :
    srcs.foldl consume s = { s with big.gpr := consumedRegs s.big.gpr srcs } := by
  induction srcs generalizing s with
  | nil =>
    have : consumedRegs s.big.gpr [] = s.big.gpr := by
      apply Vector.ext
      intro i h
      simp [consumedRegs]
    simp [this]
  | cons r rest ih =>
    rw [List.foldl_cons, ih]
    cases r with
    | general j =>
      simp only [consume, clearGpr]
      congr 2
      apply Vector.ext
      intro i h
      simp only [consumedRegs, Vector.getElem_ofFn, List.mem_cons, RegName.general.injEq, Vector.getElem_set]
      by_cases hij : (⟨i, h⟩ : Fin 16) = j
      · subst hij; simp
      · have : ¬ j.val = i := fun e => hij (Fin.ext e.symm)
        simp [hij, this]
    | const c => simp [consume, consumedRegs]
    | reserved n => simp [consume, consumedRegs]

/-- The destination write, all of it (R402): CAPACITY, or the sources consumed and the destination written. -/
theorem commit_general (p : Params) (s : State) (d : Fin 16) (v : Int) (srcs : List RegName) :
    commit p s (.general d) v srcs
      = if capacityBound p ≤ v.natAbs then .error .capacity else .ok { s with big.gpr := regsAfter s srcs d v } := by
  unfold commit
  split
  · rfl
  · simp only [writeReg, writeGpr, foldl_consume, regsAfter, consumedRegs]
    congr 3
    apply Vector.ext
    intro i h
    simp only [Vector.getElem_set, Vector.getElem_ofFn]
    by_cases hid : (⟨i, h⟩ : Fin 16) = d
    · subst hid; simp
    · have : ¬ d.val = i := fun e => hid (Fin.ext e.symm)
      simp [hid, this]

/-- Where a destination write succeeds, only the register file changes, and the value is below the capacity (R402,
R405). -/
theorem commit_ok {p : Params} {s t : State} {r : RegName} {v : Int} {srcs : List RegName} (h : commit p s r v srcs = .ok t) :
    v.natAbs < capacityBound p ∧ t = writeReg (srcs.foldl consume s) r v := by
  unfold commit at h
  split at h
  · cases h
  · next hc => exact ⟨by omega, by simpa using h.symm⟩

end Sys2Proof.Machine
end

