-- ==== Sys2Proof/Laws/Exec.lean ====
section
/-! SUPPORT. Every meaning is a rule and its end: what `exec` can answer, said once for all commands. -/

namespace Sys2Proof.Machine

/-- A meaning is its rule, then completion or error entry (R1101, R1202). -/
theorem exec_eq (i : Instr) (s : State) : exec i s = finishCommand s (commandRule params i s) := by
  cases i <;> rfl

/-- The commands at the default parameters are the commands (R7). -/
theorem execAt_params (i : Instr) (s : State) : execAt params i s = exec i s := (exec_eq i s).symm

/-- The machine at the default parameters is the machine (R7). -/
theorem stepAt_params (s : State) : stepAt params s = step s := by
  have h : execAt params = exec := funext fun i => funext fun s => execAt_params i s
  simp only [stepAt, step, h]

/-- What a command can answer: its effect completed, or the error entry on the state it found. -/
theorem exec_cases {i : Instr} {s t : State} (h : exec i s = .next t) :
    (∃ u, commandRule params i s = .ok u ∧ t = complete u) ∨ (∃ c, commandRule params i s = .error c ∧ t = raiseError c s) :=
  finishCommand_cases (exec_eq i s ▸ h)

theorem relRule_ok {ra : RegName} {s t : State} (h : relRule ra s = .ok t) : t = consume s ra := by
  cases ra with
  | general i =>
    simp only [relRule] at h
    split at h
    · cases h
    · simpa [consume] using h.symm
  | const c => simpa [relRule, consume] using h.symm
  | reserved n => simp [relRule] at h

theorem withKey_ok {s t : State} {body : CmdResult} (h : withKey s body = .ok t) :
    s.cip.keyValid = true ∧ body = .ok t := by
  unfold withKey at h
  split at h
  · exact ⟨by assumption, h⟩
  · cases h

theorem commitValue_ok {p : Params} {s t : State} {r : RegName} {v : Except ErrCode Int} {srcs : List RegName}
    (h : commitValue p s r v srcs = .ok t) : ∃ x, v = .ok x ∧ commit p s r x srcs = .ok t := by
  cases v with
  | error c => cases h
  | ok x => exact ⟨x, rfl, h⟩

end Sys2Proof.Machine
end

