-- ==== Sys2Proof/Laws/Errors.lean ====
section
/-! SUPPORT. Which error each part of a command can raise, said once: the preamble in the words of the statements, and
the errors of the arithmetic and of the destination write. -/

namespace Sys2Proof.Machine

theorem any_isReserved (rs : List RegName) : rs.any isReserved = true ↔ ¬NoReserved rs := by
  unfold NoReserved
  rw [List.any_eq_true]
  constructor
  · rintro ⟨r, h, hr⟩ hn
    cases r <;> simp [isReserved] at hr
    exact hn _ h
  · intro h
    by_contra hc
    exact h fun n hn => hc ⟨_, hn, rfl⟩

theorem any_isEmpty (s : State) (rs : List RegName) : rs.any (isEmpty s) = true ↔ ¬NoEmpty s rs := by
  unfold NoEmpty
  rw [List.any_eq_true]
  constructor
  · rintro ⟨r, h, hr⟩ hn
    cases r <;> simp [isEmpty] at hr
    exact hn _ h hr
  · intro h
    by_contra hc
    exact h fun j hj he => hc ⟨_, hj, by simp [isEmpty, he]⟩

theorem any_isConst (dst : Option RegName) : dst.any isConst = true ↔ ¬NoConstDst dst := by
  unfold NoConstDst
  cases dst with
  | none => simp
  | some r => cases r <;> simp [isConst]

theorem usesTwice_iff (rs : List RegName) : usesTwice rs = true ↔ ¬NoDoubleUse rs :=
  ⟨fun h hd => Bool.false_ne_true ((usesTwice_false hd).symm.trans h), usesTwice_true⟩

open Classical in
/-- The operand preamble, all of it, in the words of the statements (R401). -/
theorem preamble_eq (s : State) (dst : Option RegName) (srcs : List RegName) (cons : Bool) :
    preamble s dst srcs cons =
      if ¬NoReserved (dst.toList ++ srcs) then some .badRegister
      else if ¬NoConstDst dst then some .constWrite
      else if ¬NoEmpty s srcs then some .emptyOperand
      else if cons = true ∧ ¬NoDoubleUse srcs then some .doubleUse
      else none := by
  unfold preamble
  simp only [any_isReserved, any_isEmpty, any_isConst, Bool.and_eq_true, usesTwice_iff]

/-- BI.REL's own checks are the preamble's (R414). -/
theorem relRule_of_preamble (s : State) (ra : RegName) :
    relRule ra s = withOperands s none [ra] false (.ok (consume s ra)) := by
  cases ra with
  | general j =>
    cases h : s.big.gpr[j.val] <;>
      simp [relRule, withOperands, preamble, isReserved, isEmpty, consume, h]
  | const c => simp [relRule, withOperands, preamble, isReserved, isEmpty, consume]
  | reserved n => simp [relRule, withOperands, preamble, isReserved]

theorem commit_error {p : Params} {s : State} {r : RegName} {v : Int} {srcs : List RegName} {c : ErrCode}
    (h : commit p s r v srcs = .error c) : c = .capacity := by
  unfold commit at h
  split at h
  · cases h; rfl
  · cases h

theorem divmag_error {n d : Nat} {c : ErrCode} (h : divmag n d = .error c) : c = .internal := by
  unfold divmag at h
  split at h
  · cases h
  · split at h
    · cases h
    · split at h
      · cases h
      · split at h
        · cases h
        · dsimp only at h
          split at h
          · cases h
          · cases h; rfl

theorem egcdSteps_error {fuel : Nat} {a b : Int} {c : ErrCode} (h : egcdSteps fuel a b = .error c) :
    c = .internal := by
  induction fuel generalizing a b with
  | zero => cases h; rfl
  | succ f ih =>
    unfold egcdSteps at h
    split at h
    · cases h
    · dsimp only at h
      split at h
      · cases h; rfl
      · split at h
        · next hh => cases h; exact ih hh
        · cases h

theorem modinv_error {a m : Int} {c : ErrCode} (h : modinv a m = .error c) : c = .internal ∨ c = .notCoprime := by
  unfold modinv at h
  split at h
  · next hh =>
    cases h
    left
    unfold egcd at hh
    split at hh
    · next h2 => cases hh; exact egcdSteps_error h2
    · cases hh
  · split at h
    · cases h
    · cases h; right; rfl

theorem quotientOf_error {a b : Int} {c : ErrCode} (h : quotientOf a b = .error c) :
    c = .divByZero ∨ c = .internal := by
  unfold quotientOf at h
  split at h
  · cases h; left; rfl
  · split at h
    · next h2 => cases h; right; exact divmag_error h2
    · cases h

theorem residueOf_error {a b : Int} {c : ErrCode} (h : residueOf a b = .error c) :
    c = .divByZero ∨ c = .internal := by
  unfold residueOf at h
  split at h
  · cases h; left; rfl
  · split at h
    · next h2 => cases h; right; exact divmag_error h2
    · cases h

theorem modpowOf_error {a e m : Int} {c : ErrCode} (h : modpowOf a e m = .error c) :
    c = .divByZero ∨ c = .badOperand ∨ c = .notCoprime ∨ c = .internal := by
  unfold modpowOf at h
  split at h
  · cases h; simp
  · split at h
    · cases h; simp
    · dsimp only at h
      split at h
      · rcases modinv_error h with rfl | rfl <;> simp
      · cases h

theorem modinvOf_error {a m : Int} {c : ErrCode} (h : modinvOf a m = .error c) :
    c = .divByZero ∨ c = .badOperand ∨ c = .notCoprime ∨ c = .internal := by
  unfold modinvOf at h
  split at h
  · cases h; simp
  · split at h
    · cases h; simp
    · rcases modinv_error h with rfl | rfl <;> simp

theorem commitValue_error {p : Params} {s : State} {r : RegName} {v : Except ErrCode Int} {srcs : List RegName} {c : ErrCode}
    (h : commitValue p s r v srcs = .error c) : v = .error c ∨ c = .capacity := by
  cases v with
  | error d => left; simpa [commitValue] using h
  | ok x => right; exact commit_error h

end Sys2Proof.Machine
end

