-- ==== Sys2Proof/Laws/Memory.lean ====
section
/-! SUPPORT. The laws of CBUF: a read after a write, what a write leaves alone, and the canonical form. -/

namespace Sys2Proof.Machine

theorem Cbuf.lookup_append (m₁ m₂ : List Host.Cell) (j : Nat) :
    Cbuf.lookup (m₁ ++ m₂) j = (Cbuf.lookup m₁ j).or (Cbuf.lookup m₂ j) := by
  induction m₁ with
  | nil => rfl
  | cons c m ih =>
    obtain ⟨a, b⟩ := c
    simp only [List.cons_append, Cbuf.lookup]
    split
    · rfl
    · exact ih

theorem Cbuf.lookup_filter (p : Nat → Bool) (m : List Host.Cell) (j : Nat) :
    Cbuf.lookup (m.filter fun c => p c.1) j = if p j then Cbuf.lookup m j else none := by
  induction m with
  | nil => simp [Cbuf.lookup]
  | cons c m ih =>
    obtain ⟨a, b⟩ := c
    by_cases hp : p a = true
    · rw [List.filter_cons_of_pos (by simpa using hp)]
      simp only [Cbuf.lookup]
      by_cases hj : a = j
      · subst hj; simp [hp]
      · simp [hj, ih]
    · rw [List.filter_cons_of_neg (by simpa using hp), ih]
      by_cases hj : a = j
      · subst hj; simp [hp]
      · simp [Cbuf.lookup, hj]

theorem Cbuf.lookup_cells (bs : List Byte) (a j : Nat) :
    Cbuf.lookup (Cbuf.cells a bs) j = if a ≤ j then bs[j - a]? else none := by
  induction bs generalizing a with
  | nil => simp [Cbuf.cells, Cbuf.lookup]
  | cons b bs ih =>
    simp only [Cbuf.cells, Cbuf.lookup]
    rcases Nat.lt_trichotomy j a with h | rfl | h
    · rw [if_neg (by omega), ih, if_neg (by omega), if_neg (by omega)]
    · simp
    · rw [if_neg (by omega), ih, if_pos (by omega), if_pos (by omega)]
      obtain ⟨k, rfl⟩ : ∃ k, j = a + 1 + k := ⟨j - (a + 1), by omega⟩
      rw [show a + 1 + k - (a + 1) = k by omega, show a + 1 + k - a = k + 1 by omega]
      rfl

/-- What a write does, all of it: the bytes written stand at their indices, every other index is as before. -/
theorem Cbuf.lookup_write (m : List Host.Cell) (a : Nat) (bs : List Byte) (j : Nat) :
    Cbuf.lookup (Cbuf.write m a bs) j
      = if a ≤ j ∧ j < a + bs.length then bs[j - a]? else Cbuf.lookup m j := by
  unfold Cbuf.write
  rw [Cbuf.lookup_append, Cbuf.lookup_append, Cbuf.lookup_cells,
    Cbuf.lookup_filter (fun k => decide (k < a)), Cbuf.lookup_filter (fun k => decide (a + bs.length ≤ k))]
  by_cases h1 : j < a
  · have h3 : ¬ a + bs.length ≤ j := by omega
    simp [h1, Nat.not_le.mpr h1, h3]
  · by_cases h2 : j < a + bs.length
    · have : j - a < bs.length := by omega
      simp [h1, h2, Nat.le_of_not_lt h1, List.getElem?_eq_getElem this]
    · have : bs[j - a]? = none := by simp; omega
      simp [h1, h2, Nat.le_of_not_lt h1, this, Nat.le_of_not_lt h2]

/-- A read inside the bytes just written. -/
theorem Cbuf.byteAt_write_inside {a j : Nat} {bs : List Byte} (e : Nat) (m : List Host.Cell) (h : a ≤ j)
    (h' : j < a + bs.length) : Cbuf.byteAt e (Cbuf.write m a bs) j = bs[j - a]'(by omega) := by
  have hlt : j - a < bs.length := by omega
  simp [Cbuf.byteAt, Cbuf.lookup_write, h, h', List.getElem?_eq_getElem hlt]

/-- A read outside the bytes just written. -/
theorem Cbuf.byteAt_write_outside {a j : Nat} {bs : List Byte} (e : Nat) (m : List Host.Cell)
    (h : ¬(a ≤ j ∧ j < a + bs.length)) : Cbuf.byteAt e (Cbuf.write m a bs) j = Cbuf.byteAt e m j := by
  simp [Cbuf.byteAt, Cbuf.lookup_write, h]

theorem Cbuf.mem_cells {bs : List Byte} {a : Nat} {c : Host.Cell} (h : c ∈ Cbuf.cells a bs) :
    a ≤ c.1 ∧ c.1 < a + bs.length := by
  induction bs generalizing a with
  | nil => simp [Cbuf.cells] at h
  | cons b bs ih =>
    simp only [Cbuf.cells, List.mem_cons] at h
    rcases h with rfl | h
    · simp
    · have := ih h; simp only [List.length_cons]; omega

theorem Cbuf.cells_sorted (bs : List Byte) (a : Nat) : (Cbuf.cells a bs).Pairwise fun x y => x.1 < y.1 := by
  induction bs generalizing a with
  | nil => exact List.Pairwise.nil
  | cons b bs ih =>
    refine List.Pairwise.cons (fun c hc => ?_) (ih (a + 1))
    have := Cbuf.mem_cells hc
    simp only; omega

/-- Every write inside CBUF keeps the canonical form. -/
theorem Cbuf.write_wf {m : List Host.Cell} {a : Nat} {bs : List Byte} (h : Memory.wf m)
    (hb : a + bs.length ≤ Config.cbufBytes) : Memory.wf (Cbuf.write m a bs) := by
  refine ⟨?_, ?_⟩
  · unfold Cbuf.write
    rw [List.pairwise_append, List.pairwise_append]
    refine ⟨⟨h.1.filter _, Cbuf.cells_sorted bs a, ?_⟩, h.1.filter _, ?_⟩
    · intro x hx y hy
      have hx := (List.mem_filter.mp hx).2
      have hy := Cbuf.mem_cells hy
      simp at hx; omega
    · intro x hx y hy
      have hy := (List.mem_filter.mp hy).2
      simp at hy
      rcases List.mem_append.mp hx with hx | hx
      · have hx := (List.mem_filter.mp hx).2
        simp at hx; omega
      · have hx := Cbuf.mem_cells hx; omega
  · intro c hc
    unfold Cbuf.write at hc
    rcases List.mem_append.mp hc with hc | hc
    · rcases List.mem_append.mp hc with hc | hc
      · exact h.2 c (List.mem_filter.mp hc).1
      · have := Cbuf.mem_cells hc; omega
    · exact h.2 c (List.mem_filter.mp hc).1

theorem Memory.wf_nil : Memory.wf [] := ⟨List.Pairwise.nil, fun _ h => nomatch h⟩

@[simp] theorem Cbuf.length_read (e : Nat) (m : List Host.Cell) (a len : Nat) :
    (Cbuf.read e m a len).length = len := by simp [Cbuf.read]

theorem Cbuf.getElem_read (e : Nat) (m : List Host.Cell) (a len i : Nat) (h : i < (Cbuf.read e m a len).length) :
    (Cbuf.read e m a len)[i] = Cbuf.byteAt e m (a + i) := by simp [Cbuf.read]

@[simp] theorem Cbuf.length_blocks (e : Nat) (m : List Host.Cell) (n : Nat) :
    (Cbuf.blocks e m n).length = n := by simp [Cbuf.blocks]

theorem Cbuf.getElem_block (e : Nat) (m : List Host.Cell) (i k : Nat) (h : k < 32) :
    (Cbuf.block e m i)[k] = Cbuf.byteAt e m (32 * i + k) := by simp [Cbuf.block]

@[simp] theorem length_bytesOfBlocks (bs : List Block) : (bytesOfBlocks bs).length = 32 * bs.length := by
  induction bs with
  | nil => rfl
  | cons b bs ih =>
    show (b.toList ++ bytesOfBlocks bs).length = _
    simp only [List.length_append, ih, Vector.length_toList, List.length_cons]
    omega

theorem getElem?_bytesOfBlocks (bs : List Block) (j : Nat) (h : j < 32 * bs.length) :
    (bytesOfBlocks bs)[j]? = some ((bs[j / 32]'(by omega))[j % 32]'(by omega)) := by
  induction bs generalizing j with
  | nil => simp at h
  | cons b bs ih =>
    simp only [List.length_cons] at h
    show (b.toList ++ bytesOfBlocks bs)[j]? = _
    by_cases hj : j < 32
    · rw [List.getElem?_append_left (by simpa using hj)]
      have h0 : j / 32 = 0 := by omega
      have h1 : j % 32 = j := by omega
      simp [h0, h1, hj]
    · obtain ⟨k, rfl⟩ : ∃ k, j = k + 32 := ⟨j - 32, by omega⟩
      rw [List.getElem?_append_right (by simp)]
      have hk : k + 32 - b.toList.length = k := by simp
      rw [hk, ih k (by omega)]
      have h0 : (k + 32) / 32 = k / 32 + 1 := by omega
      have h1 : (k + 32) % 32 = k % 32 := by omega
      simp [h0, h1]

/-- Blocks written over CBUF: byte `j` is byte `j mod 32` of block `j div 32`, and bytes past the last block stay. -/
theorem Cbuf.byteAt_writeBlocks (e : Nat) (m : List Host.Cell) (bs : List Block) (j : Nat) :
    Cbuf.byteAt e (Cbuf.writeBlocks m bs) j
      = if h : j < 32 * bs.length then (bs[j / 32]'(by omega))[j % 32]'(by omega) else Cbuf.byteAt e m j := by
  unfold Cbuf.writeBlocks
  split
  · next h =>
    have hin : 0 ≤ j ∧ j < 0 + (bytesOfBlocks bs).length := by simpa using h
    rw [Cbuf.byteAt, Cbuf.lookup_write, if_pos hin, Nat.sub_zero, getElem?_bytesOfBlocks bs j h]
    rfl
  · next h => exact Cbuf.byteAt_write_outside e m (by simpa using h)

/-- The blocks just written read back. -/
theorem Cbuf.blocks_writeBlocks (e : Nat) (m : List Host.Cell) (bs : List Block) :
    Cbuf.blocks e (Cbuf.writeBlocks m bs) bs.length = bs := by
  apply List.ext_getElem
  · simp
  · intro i h1 h2
    apply Vector.ext
    intro k hk
    have h : 32 * i + k < 32 * bs.length := by omega
    simp only [Cbuf.blocks, List.getElem_map, List.getElem_range, Cbuf.getElem_block, Cbuf.byteAt_writeBlocks, h,
      dite_true]
    congr 2 <;> omega

end Sys2Proof.Machine
end

