-- ==== Sys2Proof/Laws/Params.lean ====
section
/-! SUPPORT. The integer view of a half-block bit by bit, and the default parameters in their ranges. -/

namespace Sys2Proof.Machine

/-- A right rotation by `k` takes bit `n` from bit `n + k` (R13). -/
theorem getLsbD_rotr128 (x : BitVec 128) (k n : Nat) (h : n < 128) :
    (rotr128 x k).getLsbD n = x.getLsbD ((n + k) % 128) := by
  have hk : k % 128 < 128 := Nat.mod_lt _ (by decide)
  rw [show (n + k) % 128 = (n + k % 128) % 128 by omega]
  unfold rotr128
  generalize k % 128 = r at *
  rw [BitVec.getLsbD_rotateRight, Nat.mod_eq_of_lt hk]
  by_cases hh : n < 128 - r
  · rw [Nat.mod_eq_of_lt (by omega : n + r < 128), Nat.add_comm n r]
    simp [hh]
  · rw [show (n + r) % 128 = n - (128 - r) by omega]
    simp [h, hh]

/-- Bit `n` of a little-endian value is bit `n` mod 8 of byte `n` div 8 (R901). -/
theorem testBit_leValue (l : List Byte) (n : Nat) : (leValue l).testBit n = (l.getD (n / 8) 0).getLsbD (n % 8) := by
  induction l generalizing n with
  | nil => simp [leValue]
  | cons b bs ih =>
    have hl : leValue (b :: bs) = 2 ^ 8 * leValue bs + b.toNat := by simp [leValue]; omega
    rw [hl, Nat.testBit_two_pow_mul_add _ b.isLt]
    by_cases h : n < 8
    · simp [h, Nat.div_eq_of_lt h, Nat.mod_eq_of_lt h, BitVec.testBit_toNat]
    · rw [if_neg h, ih, show n / 8 = (n - 8) / 8 + 1 by omega, show n % 8 = (n - 8) % 8 by omega]
      simp

theorem getLsbD_leHalfToInt (h : Half) (n : Nat) (hn : n < 128) : (leHalfToInt h).getLsbD n = bitIn h n := by
  simp only [leHalfToInt, BitVec.getLsbD_ofNat, hn, decide_true, Bool.true_and, testBit_leValue, bitIn, byteOf]
  congr 1
  have : n / 8 < 16 := by omega
  simp [this]

theorem bitIn_le16 (x : BitVec 128) (n : Nat) (hn : n < 128) : bitIn (le16 x) n = x.getLsbD n := by
  have h16 : n / 8 < 16 := by omega
  have h8 : n % 8 < 8 := by omega
  simp only [bitIn, byteOf, le16]
  simp [h16, h8]
  congr 1
  omega

/-- Two byte strings with the same bits are the same. -/
theorem ext_bitIn {v w : Vector Byte m} (h : ∀ n, n < 8 * m → bitIn v n = bitIn w n) : v = w := by
  apply Vector.ext
  intro i hi
  apply BitVec.eq_of_getLsbD_eq
  intro b hb
  have := h (8 * i + b) (by omega)
  rw [bitIn, bitIn, show (8 * i + b) / 8 = i by omega, show (8 * i + b) % 8 = b by omega] at this
  simpa [byteOf, hi] using this

/-- The default view of a half-block is a bijection (R901). -/
theorem le16_leHalfToInt (h : Half) : le16 (leHalfToInt h) = h :=
  ext_bitIn fun n hn => by rw [bitIn_le16 _ _ (by omega), getLsbD_leHalfToInt _ _ (by omega)]

theorem leHalfToInt_le16 (x : BitVec 128) : leHalfToInt (le16 x) = x := by
  apply BitVec.eq_of_getLsbD_eq
  intro n hn
  rw [getLsbD_leHalfToInt _ _ hn, bitIn_le16 _ _ hn]

/-- The S-box table has no value twice (R902). -/
theorem aesSbox_injective : Function.Injective aesSbox := by
  have h : (List.range 256).Pairwise (fun a b => aesSbox (BitVec.ofNat 8 a) ≠ aesSbox (BitVec.ofNat 8 b)) := by
    decide +kernel
  intro a b e
  rw [List.pairwise_iff_getElem] at h
  by_contra hne
  have ha := a.isLt
  have hb := b.isLt
  rcases Nat.lt_trichotomy a.toNat b.toNat with hlt | heq | hgt
  · exact h a.toNat b.toNat (by simpa using ha) (by simpa using hb) hlt (by simpa using e)
  · exact hne (BitVec.eq_of_toNat_eq heq)
  · exact h b.toNat a.toNat (by simpa using hb) (by simpa using ha) hgt (by simpa using e.symm)

/-- The default parameters are in their ranges (R7). -/
theorem params_valid : params.Valid where
  maxDigits := by decide
  karatsubaThresh := by decide
  hashlistMax := by decide
  coreBase := Nat.mul_mod_right _ _
  sbox := aesSbox_injective
  rotBase := by decide
  krotC n := by show n % 128 ≤ 127; omega
  krotB n := by show n % 128 ≤ 127; omega
  krotR n := by show n % 128 ≤ 127; omega
  intToHalf := le16_leHalfToInt
  halfToInt := leHalfToInt_le16

end Sys2Proof.Machine
end

