-- ==== Sys2Proof/Laws/PerInstr.lean ====
section
/-! SUPPORT. A family over the commands: the word of a well-formed command carries its row's opcode, and 0 in every
field that R305 requires to be 0. -/

namespace Sys2Proof.Laws.EncodedFields

/-- The row's opcode (30_encoding.md R306). -/
def opcode : Instr → Nat
  | .nop => 0x01
  | .biMov _ _ => 0x10
  | .biLdi _ _ => 0x11
  | .biRel _ => 0x12
  | .biLoad _ => 0x13
  | .biStore _ => 0x14
  | .biCmp _ _ => 0x15
  | .biAdd _ _ _ => 0x18
  | .biSub _ _ _ => 0x19
  | .biMul _ _ _ => 0x1A
  | .biDiv _ _ _ => 0x1C
  | .biMod _ _ _ => 0x1D
  | .biModpow _ _ _ _ => 0x20
  | .biModinv _ _ _ => 0x21
  | .keyCommit => 0x28
  | .keyDerive _ => 0x29
  | .rkGen => 0x30
  | .bcEnc => 0x31
  | .bcDec => 0x32
  | .blkXor => 0x34
  | .blkLadd => 0x35
  | .blkCmp => 0x36
  | .stInite => 0x40
  | .stInitd => 0x41
  | .stCluster => 0x42
  | .stFinish => 0x43
  | .stCleanup => 0x44

/-- The fields the row marks "-", and res (R305). -/
def unusedFields (w : Word) : Instr → List Nat
  | .biMov _ _ => [fieldRb w, fieldRc w, fieldRes w]
  | .biLdi _ _ => []
  | .biRel _ => [fieldRd w, fieldRb w, fieldRc w, fieldRes w]
  | .biLoad _ => [fieldRa w, fieldRb w, fieldRc w, fieldRes w]
  | .biStore _ => [fieldRd w, fieldRb w, fieldRc w, fieldRes w]
  | .biCmp _ _ => [fieldRd w, fieldRc w, fieldRes w]
  | .biModpow _ _ _ _ => [fieldRes w]
  | .keyDerive _ => [fieldRd w, fieldRb w, fieldRc w, fieldRes w]
  | .biAdd _ _ _ | .biSub _ _ _ | .biMul _ _ _ | .biDiv _ _ _ | .biMod _ _ _ | .biModinv _ _ _ =>
    [fieldRc w, fieldRes w]
  | .nop | .keyCommit | .rkGen | .bcEnc | .bcDec | .blkXor | .blkLadd | .blkCmp => [fieldHigh w]
  | .stInite | .stInitd | .stCluster | .stFinish | .stCleanup => [fieldHigh w]

/-- The word of `i` has its row's opcode and 0 in the unused fields. -/
def Statement (i : Instr) : Prop :=
  i.wf = true → fieldOpcode (encode i) = opcode i ∧ ∀ f ∈ unusedFields (encode i) i, f = 0

theorem regIndex_lt {r : RegName} (h : r.wf = true) : regIndex r < 32 := by
  cases r with
  | general i => simp only [regIndex]; omega
  | const c => cases c <;> decide
  | reserved n => simp [RegName.wf] at h; simp only [regIndex]; omega

theorem toNat_wordR {op rd ra rb rc : Nat} (h0 : op < 256) (h1 : rd < 32) (h2 : ra < 32) (h3 : rb < 32)
    (h4 : rc < 32) : (wordR op rd ra rb rc).toNat = op + rd * 2 ^ 8 + ra * 2 ^ 13 + rb * 2 ^ 18 + rc * 2 ^ 23 := by
  simp only [wordR, BitVec.toNat_ofNat]
  exact Nat.mod_eq_of_lt (by omega)

theorem toNat_wordI {op rd : Nat} {imm : Int} (h0 : op < 256) (h1 : rd < 32) :
    (wordI op rd imm).toNat = op + rd * 2 ^ 8 + (BitVec.ofInt 19 imm).toNat * 2 ^ 13 := by
  have := (BitVec.ofInt 19 imm).isLt
  simp only [wordI, BitVec.toNat_ofNat]
  exact Nat.mod_eq_of_lt (by omega)

section Fields

variable {op rd ra rb rc : Nat} (h0 : op < 256) (h1 : rd < 32) (h2 : ra < 32) (h3 : rb < 32) (h4 : rc < 32)
include h0 h1 h2 h3 h4

theorem fieldOpcode_wordR : fieldOpcode (wordR op rd ra rb rc) = op := by
  rw [fieldOpcode, BitVec.extractLsb'_toNat, toNat_wordR h0 h1 h2 h3 h4, Nat.shiftRight_eq_div_pow]
  omega

theorem fieldRd_wordR : fieldRd (wordR op rd ra rb rc) = rd := by
  rw [fieldRd, BitVec.extractLsb'_toNat, toNat_wordR h0 h1 h2 h3 h4, Nat.shiftRight_eq_div_pow]
  omega

theorem fieldRa_wordR : fieldRa (wordR op rd ra rb rc) = ra := by
  rw [fieldRa, BitVec.extractLsb'_toNat, toNat_wordR h0 h1 h2 h3 h4, Nat.shiftRight_eq_div_pow]
  omega

theorem fieldRb_wordR : fieldRb (wordR op rd ra rb rc) = rb := by
  rw [fieldRb, BitVec.extractLsb'_toNat, toNat_wordR h0 h1 h2 h3 h4, Nat.shiftRight_eq_div_pow]
  omega

theorem fieldRc_wordR : fieldRc (wordR op rd ra rb rc) = rc := by
  rw [fieldRc, BitVec.extractLsb'_toNat, toNat_wordR h0 h1 h2 h3 h4, Nat.shiftRight_eq_div_pow]
  omega

theorem fieldRes_wordR : fieldRes (wordR op rd ra rb rc) = 0 := by
  rw [fieldRes, BitVec.extractLsb'_toNat, toNat_wordR h0 h1 h2 h3 h4, Nat.shiftRight_eq_div_pow]
  omega

/-- The fields of a format-R word (R301). -/
theorem fields_wordR :
    fieldOpcode (wordR op rd ra rb rc) = op ∧ fieldRd (wordR op rd ra rb rc) = rd
      ∧ fieldRa (wordR op rd ra rb rc) = ra ∧ fieldRb (wordR op rd ra rb rc) = rb
      ∧ fieldRc (wordR op rd ra rb rc) = rc ∧ fieldRes (wordR op rd ra rb rc) = 0 :=
  ⟨fieldOpcode_wordR h0 h1 h2 h3 h4, fieldRd_wordR h0 h1 h2 h3 h4, fieldRa_wordR h0 h1 h2 h3 h4,
    fieldRb_wordR h0 h1 h2 h3 h4, fieldRc_wordR h0 h1 h2 h3 h4, fieldRes_wordR h0 h1 h2 h3 h4⟩

end Fields

theorem fieldOpcode_wordI {op rd : Nat} {imm : Int} (h0 : op < 256) (h1 : rd < 32) :
    fieldOpcode (wordI op rd imm) = op := by
  rw [fieldOpcode, BitVec.extractLsb'_toNat, toNat_wordI h0 h1, Nat.shiftRight_eq_div_pow]
  omega

theorem fieldRd_wordI {op rd : Nat} {imm : Int} (h0 : op < 256) (h1 : rd < 32) :
    fieldRd (wordI op rd imm) = rd := by
  rw [fieldRd, BitVec.extractLsb'_toNat, toNat_wordI h0 h1, Nat.shiftRight_eq_div_pow]
  omega

/-- The immediate field of a format-I word (R302). -/
theorem immBits_wordI {op rd : Nat} {imm : Int} (h0 : op < 256) (h1 : rd < 32) :
    (wordI op rd imm).extractLsb' 13 19 = BitVec.ofInt 19 imm := by
  have := (BitVec.ofInt 19 imm).isLt
  apply BitVec.eq_of_toNat_eq
  rw [BitVec.extractLsb'_toNat, toNat_wordI h0 h1, Nat.shiftRight_eq_div_pow]
  generalize (BitVec.ofInt 19 imm).toNat = x at *
  omega

theorem biMov (rd ra : RegName) : Statement (.biMov rd ra) := by
  intro h
  simp only [Instr.wf, Bool.and_eq_true] at h
  obtain ⟨hrd, hra⟩ := h
  have f := fields_wordR (op := 0x10) (rd := regIndex rd) (ra := regIndex ra) (rb := 0) (rc := 0)
    (by decide) (regIndex_lt hrd) (regIndex_lt hra) (by decide) (by decide)
  simp [encode, opcode, unusedFields, f]

theorem biRel (ra : RegName) : Statement (.biRel ra) := by
  intro h
  have hra : ra.wf = true := h
  have f := fields_wordR (op := 0x12) (rd := 0) (ra := regIndex ra) (rb := 0) (rc := 0)
    (by decide) (by decide) (regIndex_lt hra) (by decide) (by decide)
  simp [encode, opcode, unusedFields, f]

theorem biLoad (rd : RegName) : Statement (.biLoad rd) := by
  intro h
  have hrd : rd.wf = true := h
  have f := fields_wordR (op := 0x13) (rd := regIndex rd) (ra := 0) (rb := 0) (rc := 0)
    (by decide) (regIndex_lt hrd) (by decide) (by decide) (by decide)
  simp [encode, opcode, unusedFields, f]

theorem biStore (ra : RegName) : Statement (.biStore ra) := by
  intro h
  have hra : ra.wf = true := h
  have f := fields_wordR (op := 0x14) (rd := 0) (ra := regIndex ra) (rb := 0) (rc := 0)
    (by decide) (by decide) (regIndex_lt hra) (by decide) (by decide)
  simp [encode, opcode, unusedFields, f]

theorem biCmp (ra rb : RegName) : Statement (.biCmp ra rb) := by
  intro h
  simp only [Instr.wf, Bool.and_eq_true] at h
  obtain ⟨hra, hrb⟩ := h
  have f := fields_wordR (op := 0x15) (rd := 0) (ra := regIndex ra) (rb := regIndex rb) (rc := 0)
    (by decide) (by decide) (regIndex_lt hra) (regIndex_lt hrb) (by decide)
  simp [encode, opcode, unusedFields, f]

theorem biAdd (rd ra rb : RegName) : Statement (.biAdd rd ra rb) := by
  intro h
  simp only [Instr.wf, Bool.and_eq_true] at h
  obtain ⟨⟨hrd, hra⟩, hrb⟩ := h
  have f := fields_wordR (op := 0x18) (rd := regIndex rd) (ra := regIndex ra) (rb := regIndex rb) (rc := 0)
    (by decide) (regIndex_lt hrd) (regIndex_lt hra) (regIndex_lt hrb) (by decide)
  simp [encode, opcode, unusedFields, f]

theorem biSub (rd ra rb : RegName) : Statement (.biSub rd ra rb) := by
  intro h
  simp only [Instr.wf, Bool.and_eq_true] at h
  obtain ⟨⟨hrd, hra⟩, hrb⟩ := h
  have f := fields_wordR (op := 0x19) (rd := regIndex rd) (ra := regIndex ra) (rb := regIndex rb) (rc := 0)
    (by decide) (regIndex_lt hrd) (regIndex_lt hra) (regIndex_lt hrb) (by decide)
  simp [encode, opcode, unusedFields, f]

theorem biMul (rd ra rb : RegName) : Statement (.biMul rd ra rb) := by
  intro h
  simp only [Instr.wf, Bool.and_eq_true] at h
  obtain ⟨⟨hrd, hra⟩, hrb⟩ := h
  have f := fields_wordR (op := 0x1A) (rd := regIndex rd) (ra := regIndex ra) (rb := regIndex rb) (rc := 0)
    (by decide) (regIndex_lt hrd) (regIndex_lt hra) (regIndex_lt hrb) (by decide)
  simp [encode, opcode, unusedFields, f]

theorem biDiv (rd ra rb : RegName) : Statement (.biDiv rd ra rb) := by
  intro h
  simp only [Instr.wf, Bool.and_eq_true] at h
  obtain ⟨⟨hrd, hra⟩, hrb⟩ := h
  have f := fields_wordR (op := 0x1C) (rd := regIndex rd) (ra := regIndex ra) (rb := regIndex rb) (rc := 0)
    (by decide) (regIndex_lt hrd) (regIndex_lt hra) (regIndex_lt hrb) (by decide)
  simp [encode, opcode, unusedFields, f]

theorem biMod (rd ra rb : RegName) : Statement (.biMod rd ra rb) := by
  intro h
  simp only [Instr.wf, Bool.and_eq_true] at h
  obtain ⟨⟨hrd, hra⟩, hrb⟩ := h
  have f := fields_wordR (op := 0x1D) (rd := regIndex rd) (ra := regIndex ra) (rb := regIndex rb) (rc := 0)
    (by decide) (regIndex_lt hrd) (regIndex_lt hra) (regIndex_lt hrb) (by decide)
  simp [encode, opcode, unusedFields, f]

theorem biModpow (rd ra rb rc : RegName) : Statement (.biModpow rd ra rb rc) := by
  intro h
  simp only [Instr.wf, Bool.and_eq_true] at h
  obtain ⟨⟨⟨hrd, hra⟩, hrb⟩, hrc⟩ := h
  have f := fields_wordR (op := 0x20) (rd := regIndex rd) (ra := regIndex ra) (rb := regIndex rb) (rc := regIndex rc)
    (by decide) (regIndex_lt hrd) (regIndex_lt hra) (regIndex_lt hrb) (regIndex_lt hrc)
  simp [encode, opcode, unusedFields, f]

theorem biModinv (rd ra rb : RegName) : Statement (.biModinv rd ra rb) := by
  intro h
  simp only [Instr.wf, Bool.and_eq_true] at h
  obtain ⟨⟨hrd, hra⟩, hrb⟩ := h
  have f := fields_wordR (op := 0x21) (rd := regIndex rd) (ra := regIndex ra) (rb := regIndex rb) (rc := 0)
    (by decide) (regIndex_lt hrd) (regIndex_lt hra) (regIndex_lt hrb) (by decide)
  simp [encode, opcode, unusedFields, f]

theorem keyDerive (ra : RegName) : Statement (.keyDerive ra) := by
  intro h
  have hra : ra.wf = true := h
  have f := fields_wordR (op := 0x29) (rd := 0) (ra := regIndex ra) (rb := 0) (rc := 0)
    (by decide) (by decide) (regIndex_lt hra) (by decide) (by decide)
  simp [encode, opcode, unusedFields, f]

theorem biLdi (rd : RegName) (imm : Int) : Statement (.biLdi rd imm) := by
  intro h
  simp only [Instr.wf, Bool.and_eq_true] at h
  have f := fieldOpcode_wordI (op := 0x11) (imm := imm) (by decide) (regIndex_lt h.1)
  simp [encode, opcode, unusedFields, f]

theorem nop : Statement .nop := fun _ => by decide

theorem keyCommit : Statement .keyCommit := fun _ => by decide

theorem rkGen : Statement .rkGen := fun _ => by decide

theorem bcEnc : Statement .bcEnc := fun _ => by decide

theorem bcDec : Statement .bcDec := fun _ => by decide

theorem blkXor : Statement .blkXor := fun _ => by decide

theorem blkLadd : Statement .blkLadd := fun _ => by decide

theorem blkCmp : Statement .blkCmp := fun _ => by decide

theorem stInite : Statement .stInite := fun _ => by decide

theorem stInitd : Statement .stInitd := fun _ => by decide

theorem stCluster : Statement .stCluster := fun _ => by decide

theorem stFinish : Statement .stFinish := fun _ => by decide

theorem stCleanup : Statement .stCleanup := fun _ => by decide

end Sys2Proof.Laws.EncodedFields
end

