-- ==== Sys2Proof/Laws/Step.lean ====
section
/-! SUPPORT. What one step can do, said once: every answer of `step`, by whose turn it is. -/

namespace Sys2Proof.Machine

theorem step_engine {s u : State} (h : EngineNext s u) : step s = engineTurn exec u := by
  rcases h with ⟨h, rfl⟩ | ⟨rest, h, rfl⟩ <;> simp [step, takeTurn, h]

theorem step_host {a : HostAccess} {s u : State} (h : HostNext a s u) : step s = hostAccess params a u := by
  obtain ⟨rest, h, rfl⟩ := h
  simp [step, takeTurn, h]

theorem step_powerOn {s : State} {rest : List Turn} (h : s.port.turns = .powerOn :: rest) :
    step s = .next (resetBlock { s with port.turns := rest }) := by
  simp [step, takeTurn, h]

/-- The next turn is the engine's, the host's or the platform's. -/
theorem turn_cases (s : State) :
    (∃ u, EngineNext s u) ∨ (∃ a u, HostNext a s u) ∨ ∃ rest, s.port.turns = .powerOn :: rest := by
  cases h : s.port.turns with
  | nil => exact .inl ⟨s, .inl ⟨h, rfl⟩⟩
  | cons t rest =>
    cases t with
    | engine => exact .inl ⟨_, .inr ⟨rest, h, rfl⟩⟩
    | host a => exact .inr (.inl ⟨a, _, rest, h, rfl⟩)
    | powerOn => exact .inr (.inr ⟨rest, rfl⟩)

/-- The engine's turn: idle, a command run, or an illegal word. -/
theorem engineTurn_cases {u t : State} (h : engineTurn exec u = .next t) :
    (u.ctl.busy = false ∧ t = u)
      ∨ (u.ctl.busy = true ∧ ∃ i, decode u.ctl.lastCmd = .ok i ∧ exec i u = .next t)
      ∨ (u.ctl.busy = true ∧ (∃ e, decode u.ctl.lastCmd = .error e) ∧ t = raiseError .illegalOpcode u) := by
  unfold engineTurn at h
  split at h
  · next hb =>
    unfold runCommand at h
    split at h
    · next i hd => exact .inr (.inl ⟨hb, i, hd, h⟩)
    · next e hd => exact .inr (.inr ⟨hb, ⟨e, hd⟩, by simpa using h.symm⟩)
  · next hb => exact .inl ⟨by simpa using hb, by simpa using h.symm⟩

/-- The addresses of the window, by their offsets (R201). -/
theorem windowOffset_add {p : Params} (hp : p.coreBase % Config.windowBytes = 0) {off : Nat}
    (h : off < Config.windowBytes) : windowOffset p (p.coreBase + off) = some off := by
  unfold windowOffset
  rw [if_pos ⟨by omega, by omega⟩, Nat.add_mod, hp, Nat.zero_add, Nat.mod_mod, Nat.mod_eq_of_lt h]

theorem params_coreBase_mod : params.coreBase % Config.windowBytes = 0 := Nat.mul_mod_right _ _

/-- An access to an aligned offset of the window is legal, and names that offset (R204). -/
theorem accessOffset_windowAddr {off : Nat} (h4 : off % 4 = 0) (h : off < Config.windowBytes) :
    accessOffset params (windowAddr off) 4 = some off := by
  have hb : params.coreBase % 4 = 0 := by
    have := params_coreBase_mod
    simp only [Config.windowBytes] at this
    omega
  unfold accessOffset windowAddr
  rw [if_pos ⟨rfl, by omega⟩]
  exact windowOffset_add params_coreBase_mod h

/-- What a legal access names (R204). -/
theorem accessOffset_cases {p : Params} {addr size off : Nat} (h : accessOffset p addr size = some off) :
    size = 4 ∧ addr % 4 = 0 ∧ p.coreBase ≤ addr ∧ addr < p.coreBase + Config.windowBytes
      ∧ off = addr % Config.windowBytes := by
  unfold accessOffset windowOffset at h
  split at h
  · next h1 =>
    split at h
    · next h2 => exact ⟨h1.1, h1.2, h2.1, h2.2, (Option.some.inj h).symm⟩
    · cases h
  · cases h

/-- A host write to an aligned offset of the window (R204, R212). -/
theorem step_write {s u : State} {off : Nat} {w : Word} (hn : HostNext (.write (windowAddr off) 4 w) s u)
    (h4 : off % 4 = 0) (h : off < Config.windowBytes) : step s = .next (writeWord (winReg params off) w u) := by
  rw [step_host hn]
  simp only [hostAccess, accessOffset_windowAddr h4 h]

/-- A host read of an aligned offset of the window (R204, R212). -/
theorem step_read {s u : State} {off : Nat} (hn : HostNext (.read (windowAddr off) 4) s u)
    (h4 : off % 4 = 0) (h : off < Config.windowBytes) : step s = .next (hostRead params (winReg params off) u) := by
  rw [step_host hn]
  simp only [hostAccess, accessOffset_windowAddr h4 h]

/-- The host's turn: a legal read or a legal write. -/
theorem hostAccess_cases {a : HostAccess} {u t : State} (h : hostAccess params a u = .next t) :
    (∃ addr off, a = .read addr 4 ∧ accessOffset params addr 4 = some off ∧ t = hostRead params (winReg params off) u)
      ∨ ∃ addr off w, a = .write addr 4 w ∧ accessOffset params addr 4 = some off
          ∧ t = writeWord (winReg params off) w u := by
  cases a with
  | read addr size =>
    simp only [hostAccess] at h
    split at h
    · next off hl =>
      obtain rfl := (accessOffset_cases hl).1
      exact .inl ⟨addr, off, rfl, hl, by simpa using h.symm⟩
    · cases h
  | write addr size w =>
    simp only [hostAccess] at h
    split at h
    · next off hl =>
      obtain rfl := (accessOffset_cases hl).1
      exact .inr ⟨addr, off, w, rfl, hl, by simpa using h.symm⟩
    · cases h

end Sys2Proof.Machine
end

