-- ==== Sys2Proof/Laws/Stream.lean ====
section
/-! SUPPORT. What the parts of ST.CLUSTER do: the geometry of an open transfer, the prepared plaintext, the chaining. -/

namespace Sys2Proof.Machine

theorem realBlocks_eq (s : State) : realBlocks s = clusterReal s.str := rfl

theorem isFinal_eq (s : State) : isFinal s = finalCluster s.str := rfl

theorem clusterSize_eq (s : State) : clusterSize s = clusterTotal s.str := rfl

/-- The cluster an open transfer processes next has 1 to 128 real blocks, and is final exactly when it is the last
(R1001). -/
theorem geometry_next {t : StreamRegs} (h : TransferGeometry t) (hlt : t.cidx.toNat < t.nclust.toNat) :
    1 ≤ clusterReal t ∧ clusterReal t ≤ 128 ∧ t.nblk.toNat ≤ 2 ^ 23
      ∧ 128 * t.cidx.toNat + clusterReal t ≤ t.nblk.toNat
      ∧ (finalCluster t = true ↔ t.cidx.toNat + 1 = t.nclust.toNat)
      ∧ (finalCluster t = true → 128 * t.cidx.toNat + clusterReal t = t.nblk.toNat)
      ∧ (finalCluster t = false → clusterReal t = 128) := by
  obtain ⟨h1, h2, h3, -⟩ := h
  simp only [ceilDiv, params] at h2 h3
  unfold clusterReal finalCluster
  simp only [decide_eq_true_eq, decide_eq_false_iff_not]
  omega

theorem clusterTotal_bounds {t : StreamRegs} (h : TransferGeometry t) (hlt : t.cidx.toNat < t.nclust.toNat) :
    1 ≤ clusterTotal t ∧ clusterReal t ≤ clusterTotal t ∧ clusterTotal t ≤ 129 := by
  have := geometry_next h hlt
  unfold clusterTotal
  split <;> omega

/-- The byte of the prepared plaintext: 0 in the tail of the last real block of the final cluster (R1004). -/
theorem byteAt_zeroTail (s : State) (e i k : Nat) (h : 1 ≤ realBlocks s) (hk : k < 32) :
    Cbuf.byteAt e (zeroTail s) (32 * i + k)
      = if isFinal s = true ∧ s.str.realLen.toNat % 32 ≠ 0 ∧ i = realBlocks s - 1 ∧ s.str.realLen.toNat % 32 ≤ k then 0
        else Cbuf.byteAt e s.cbuf (32 * i + k) := by
  unfold zeroTail
  dsimp only
  have hr : s.str.realLen.toNat % 32 < 32 := Nat.mod_lt _ (by decide)
  generalize s.str.realLen.toNat % 32 = r at *
  by_cases hf : isFinal s = true ∧ r ≠ 0
  · rw [if_pos hf]
    by_cases hin : i = realBlocks s - 1 ∧ r ≤ k
    · rw [if_pos ⟨hf.1, hf.2, hin.1, hin.2⟩, Cbuf.byteAt_write_inside _ _ (by omega) (by simp; omega)]
      simp
    · rw [if_neg (by tauto), Cbuf.byteAt_write_outside]
      simp only [List.length_replicate]
      omega
  · rw [if_neg hf, if_neg (by tauto)]

/-- A real block of the prepared plaintext (R1004). -/
theorem block_zeroTail (s : State) (i : Nat) (h : 1 ≤ realBlocks s) :
    Cbuf.block s.port.resets (zeroTail s) i = plainBlock s i := by
  apply Vector.ext
  intro k hk
  simp only [Cbuf.block, plainBlock, Vector.getElem_ofFn, byteIn]
  exact byteAt_zeroTail s _ i k h hk

/-- The count offset of the prepared cluster (R1004). -/
theorem padOffset_zeroTail (s : State) (h : 1 ≤ realBlocks s) :
    padOffset params s (zeroTail s) (realBlocks s) = countOffset (plainBlock s (clusterReal s.str - 1)) := by
  unfold padOffset countOffset
  rw [block_zeroTail s _ h, ← realBlocks_eq]
  simp [byteOf]

theorem inputBlock_pad (s : State) : inputBlock s (realBlocks s) = padBlock s := if_pos rfl

theorem inputBlock_plain (s : State) {i : Nat} (h : i ≠ realBlocks s) : inputBlock s i = plainBlock s i := if_neg h

theorem clusterSize_final {s : State} (h : isFinal s = true) : clusterSize s = realBlocks s + 1 := if_pos h

theorem clusterSize_open {s : State} (h : ¬isFinal s = true) : clusterSize s = realBlocks s := if_neg h

/-- The pad block, byte by byte (R1004). -/
theorem getElem_padBlock (s : State) (h : 1 ≤ realBlocks s) (k : Nat) (hk : k < 32) :
    (padBlock s)[k] = if k = padOffset params s (zeroTail s) (realBlocks s) then BitVec.ofNat 8 (s.str.realLen.toNat % 32)
      else Cbuf.byteAt s.port.resets s.cbuf (32 * realBlocks s + k) := by
  rw [padOffset_zeroTail s h]
  simp only [padBlock, Vector.getElem_ofFn, byteIn]
  rfl

/-- The prepared cluster on its final cluster and otherwise. -/
theorem plainCluster_final {s : State} (h : isFinal s = true) :
    plainCluster params s = Cbuf.write (zeroTail s) (32 * realBlocks s + padOffset params s (zeroTail s) (realBlocks s))
      [BitVec.ofNat 8 (s.str.realLen.toNat % 32)] := if_pos h

theorem plainCluster_open {s : State} (h : ¬isFinal s = true) : plainCluster params s = zeroTail s := if_neg h

/-- The blocks ST.CLUSTER encrypts (R1012). -/
theorem block_plainCluster (s : State) (i : Nat) (h : 1 ≤ realBlocks s) (hi : i < clusterSize s) :
    Cbuf.block s.port.resets (plainCluster params s) i = inputBlock s i := by
  by_cases hf : isFinal s = true
  · have ho : padOffset params s (zeroTail s) (realBlocks s) < 32 := Nat.mod_lt _ (by decide)
    rw [clusterSize_final hf] at hi
    apply Vector.ext
    intro k hk
    rw [Cbuf.getElem_block _ _ _ _ hk, plainCluster_final hf]
    by_cases hin : i = realBlocks s
    · subst hin
      rw [inputBlock_pad, getElem_padBlock s h k hk]
      by_cases hko : k = padOffset params s (zeroTail s) (realBlocks s)
      · rw [if_pos hko, Cbuf.byteAt_write_inside _ _ (by omega) (by simp; omega)]
        simp
      · rw [if_neg hko, Cbuf.byteAt_write_outside _ _ (by simp; omega), byteAt_zeroTail s _ _ _ h hk,
          if_neg (by omega)]
    · rw [inputBlock_plain s hin, Cbuf.byteAt_write_outside _ _ (by simp; omega), ← Cbuf.getElem_block _ _ _ _ hk,
        block_zeroTail s _ h]
  · rw [clusterSize_open hf] at hi
    rw [plainCluster_open hf, inputBlock_plain s (by omega), block_zeroTail s _ h]

/-- The prepared cluster beyond its last block is CBUF (R1012). -/
theorem byteAt_plainCluster_beyond (s : State) (e j : Nat) (h : 1 ≤ realBlocks s) (hj : 32 * clusterSize s ≤ j) :
    Cbuf.byteAt e (plainCluster params s) j = Cbuf.byteAt e s.cbuf j := by
  have ho : padOffset params s (zeroTail s) (realBlocks s) < 32 := Nat.mod_lt _ (by decide)
  have hz : Cbuf.byteAt e (zeroTail s) j = Cbuf.byteAt e s.cbuf j := by
    have hs : realBlocks s ≤ clusterSize s := by unfold clusterSize; split <;> omega
    have := byteAt_zeroTail s e (j / 32) (j % 32) h (Nat.mod_lt _ (by decide))
    rw [Nat.div_add_mod] at this
    rw [this, if_neg]
    omega
  by_cases hf : isFinal s = true
  · rw [clusterSize_final hf] at hj
    rw [plainCluster_final hf, Cbuf.byteAt_write_outside _ _ (by simp; omega), hz]
  · rw [plainCluster_open hf, hz]

/-- Ciphertext block `j` is the encryption of plaintext block `j` chained with the ciphertext block before (R1002). -/
theorem getElem_cbcEncrypt (p : Params) (k : Block) (c i : Nat) (prev : Block) (xs : List Block) (j : Nat)
    (h : j < xs.length) :
    (cbcEncrypt p k c i prev xs)[j]'(by simpa using h) =
      encryptBlock p (xorBytes xs[j]
        (if _ : j = 0 then prev else (cbcEncrypt p k c i prev xs)[j - 1]'(by simp; omega))) k c (i + j) := by
  induction xs generalizing i prev j with
  | nil => simp at h
  | cons x xs ih =>
    cases j with
    | zero => simp [cbcEncrypt]
    | succ j =>
      simp only [cbcEncrypt, List.getElem_cons_succ, Nat.add_one_sub_one]
      rw [ih (i + 1) _ j (by simpa using h)]
      have e : i + 1 + j = i + (j + 1) := by omega
      rw [e]
      cases j with
      | zero => simp
      | succ j => simp

/-- Plaintext block `j` is the decryption of ciphertext block `j` chained with the ciphertext block before (R1003). -/
theorem getElem_cbcDecrypt (p : Params) (k : Block) (c i : Nat) (prev : Block) (ys : List Block) (j : Nat)
    (h : j < ys.length) :
    (cbcDecrypt p k c i prev ys)[j]'(by simpa using h) =
      xorBytes (decryptBlock p ys[j] k c (i + j)) (if _ : j = 0 then prev else ys[j - 1]'(by omega)) := by
  induction ys generalizing i prev j with
  | nil => simp at h
  | cons y ys ih =>
    cases j with
    | zero => simp [cbcDecrypt]
    | succ j =>
      simp only [cbcDecrypt, List.getElem_cons_succ, Nat.add_one_sub_one]
      rw [ih (i + 1) _ j (by simpa using h)]
      have e : i + 1 + j = i + (j + 1) := by omega
      rw [e]
      cases j with
      | zero => simp
      | succ j => simp

end Sys2Proof.Machine
end

