-- ==== Sys2Proof/Laws/Window.lean ====
section
/-! SUPPORT. The map of the window, array by array, and the bytes and halves of its words. -/

namespace Sys2Proof.Machine

/-- Byte `k` of a packed word (R206, R207). -/
theorem wordOfBytes_byte (b0 b1 b2 b3 : Byte) (k : Nat) (h : k < 4) :
    (wordOfBytes b0 b1 b2 b3).extractLsb' (8 * k) 8 = [b0, b1, b2, b3].getD k 0 := by
  apply BitVec.eq_of_getLsbD_eq
  intro i hi
  simp only [wordOfBytes, BitVec.getLsbD_append, BitVec.getLsbD_extractLsb', hi, decide_true, Bool.true_and]
  interval_cases k
  · rw [if_pos (by omega)]; simp
  · rw [if_neg (by omega), if_pos (by omega)]; simp
  · rw [if_neg (by omega), if_neg (by omega), if_pos (by omega)]
    rw [show 8 * 2 + i - 8 - 8 = i by omega]; rfl
  · rw [if_neg (by omega), if_neg (by omega), if_neg (by omega)]
    rw [show 8 * 3 + i - 8 - 8 - 8 = i by omega]; rfl

/-- Byte `k` of word `j` of a byte-array register is byte `4j + k` (R206). -/
theorem getWord_byte (v : Vector Byte n) (j k : Nat) (hk : k < 4) (h : 4 * j + k < n) :
    (getWord v j).extractLsb' (8 * k) 8 = v[4 * j + k] := by
  rw [getWord, wordOfBytes_byte _ _ _ _ _ hk]
  interval_cases k <;> simp [byteOf, h]
  all_goals
    have : 4 * j < n := by omega
    simp [this]

/-- The byte-array registers of eight words, by offset (R202). -/
theorem winReg_arrays : ∀ j : Fin 8,
    winReg params (0x080 + 4 * j.val) = .key j ∧ winReg params (0x0A0 + 4 * j.val) = .iv j
      ∧ winReg params (0x0C0 + 4 * j.val) = .cv j ∧ winReg params (0x0E0 + 4 * j.val) = .trailer j
      ∧ winReg params (0x100 + 4 * j.val) = .rxTrailer j ∧ winReg params (0x120 + 4 * j.val) = .blk j
      ∧ winReg params (0x140 + 4 * j.val) = .blk2 j := by decide +kernel

theorem winReg_rkey : ∀ j : Fin 4, winReg params (0x160 + 4 * j.val) = .rkey j := by decide +kernel

theorem winReg_biwDig : ∀ i : Fin Config.maxDigitsLimit, i.val < 128 →
    winReg params (0x400 + 4 * i.val) = .biwDig i := by decide +kernel

/-- The two words of a 64-bit register make it (R213). -/
theorem word64_append (x : BitVec 64) : (word64 x true ++ word64 x false : BitVec 64) = x := by
  show x.extractLsb' 32 32 ++ x.extractLsb' 0 32 = x
  apply BitVec.eq_of_toNat_eq
  have := x.isLt
  simp only [BitVec.toNat_append, BitVec.extractLsb'_toNat, Nat.shiftRight_eq_div_pow]
  rw [← Nat.shiftLeft_add_eq_or_of_lt (by omega), Nat.shiftLeft_eq]
  omega

end Sys2Proof.Machine
end

