-- ==== Sys2Proof/Machine/Assembly.lean ====
section
/-! DEFINITION. The assembler notation of a command and the pseudo-instructions (30_encoding.md R310, R311). No step of
the machine uses them. -/

namespace Sys2Proof.Machine

/-- How a register is written (R310). A reserved index has no name: 95_test_vectors.md writes it as `index 23`. -/
def regName : RegName → String
  | .general i => "B" ++ toString i.val
  | .const .k0 => "K0"
  | .const .k1 => "K1"
  | .const .k2 => "K2"
  | .const .k10 => "K10"
  | .const .km1 => "KM1"
  | .const .kmax => "KMAX"
  | .const .kmin => "KMIN"
  | .reserved n => "index " ++ toString n

/-- The mnemonic of a command (R306). -/
def mnemonic : Instr → String
  | .nop => "NOP"
  | .biMov _ _ => "BI.MOV"
  | .biLdi _ _ => "BI.LDI"
  | .biRel _ => "BI.REL"
  | .biLoad _ => "BI.LOAD"
  | .biStore _ => "BI.STORE"
  | .biCmp _ _ => "BI.CMP"
  | .biAdd _ _ _ => "BI.ADD"
  | .biSub _ _ _ => "BI.SUB"
  | .biMul _ _ _ => "BI.MUL"
  | .biDiv _ _ _ => "BI.DIV"
  | .biMod _ _ _ => "BI.MOD"
  | .biModpow _ _ _ _ => "BI.MODPOW"
  | .biModinv _ _ _ => "BI.MODINV"
  | .keyCommit => "KEY.COMMIT"
  | .keyDerive _ => "KEY.DERIVE"
  | .rkGen => "RK.GEN"
  | .bcEnc => "BC.ENC"
  | .bcDec => "BC.DEC"
  | .blkXor => "BLK.XOR"
  | .blkLadd => "BLK.LADD"
  | .blkCmp => "BLK.CMP"
  | .stInite => "ST.INITE"
  | .stInitd => "ST.INITD"
  | .stCluster => "ST.CLUSTER"
  | .stFinish => "ST.FINISH"
  | .stCleanup => "ST.CLEANUP"

/-- The operands of a command, in the order rd, ra, rb, rc (R310). -/
def operandTexts : Instr → List String
  | .biMov rd ra => [regName rd, regName ra]
  | .biLdi rd imm => [regName rd, toString imm]
  | .biRel r | .biLoad r | .biStore r | .keyDerive r => [regName r]
  | .biCmp ra rb => [regName ra, regName rb]
  | .biAdd rd ra rb | .biSub rd ra rb | .biMul rd ra rb | .biDiv rd ra rb | .biMod rd ra rb | .biModinv rd ra rb =>
    [regName rd, regName ra, regName rb]
  | .biModpow rd ra rb rc => [regName rd, regName ra, regName rb, regName rc]
  | .nop | .keyCommit | .rkGen | .bcEnc | .bcDec | .blkXor | .blkLadd | .blkCmp => []
  | .stInite | .stInitd | .stCluster | .stFinish | .stCleanup => []

/-- A command as a line of assembler (R310). -/
def assemblyLine (i : Instr) : String :=
  match operandTexts i with
  | [] => mnemonic i
  | ops => mnemonic i ++ " " ++ String.intercalate ", " ops

/-- The pseudo-instructions (R311). A temporary `bt` or `bu` is a general register. -/
inductive Pseudo where
  | dup (rd ra : RegName)
  | clr (rd : RegName)
  | neg (rd ra : RegName)
  | inc (rd ra : RegName)
  | dec (rd ra : RegName)
  | sqr (rd ra : RegName) (bt : Fin 16)
  | divmod (rq rr ra rb : RegName) (bt bu : Fin 16)
  | keeppow (rd ra rb rc : RegName) (bt : Fin 16)
deriving DecidableEq, Repr

/-- The commands a pseudo-instruction stands for (R311). -/
def expandPseudo : Pseudo → List Instr
  | .dup rd ra => [.biMov rd ra]
  | .clr rd => [.biLdi rd 0]
  | .neg rd ra => [.biSub rd (.const .k0) ra]
  | .inc rd ra => [.biAdd rd ra (.const .k1)]
  | .dec rd ra => [.biSub rd ra (.const .k1)]
  | .sqr rd ra bt => [.biMov (.general bt) ra, .biMul rd ra (.general bt)]
  | .divmod rq rr ra rb bt bu =>
    [.biMov (.general bt) ra, .biMov (.general bu) rb, .biDiv rq ra rb, .biMod rr (.general bt) (.general bu)]
  | .keeppow rd ra rb rc bt => [.biMov (.general bt) rc, .biModpow rd ra rb (.general bt)]

/-- A temporary is a register different from every other operand; BI.DIVMOD's results and temporaries are distinct
(R311). -/
def pseudoWf : Pseudo → Bool
  | .dup _ _ | .clr _ | .neg _ _ | .inc _ _ | .dec _ _ => true
  | .sqr rd ra bt => decide (RegName.general bt ≠ rd ∧ RegName.general bt ≠ ra)
  | .divmod rq rr ra rb bt bu =>
    decide (rq ≠ rr ∧ bt ≠ bu) && [rq, rr, ra, rb].all fun r => decide (r ≠ .general bt ∧ r ≠ .general bu)
  | .keeppow rd ra rb rc bt => [rd, ra, rb, rc].all fun r => decide (r ≠ .general bt)

end Sys2Proof.Machine
end

