-- ==== Sys2Proof/Tests/Slice0.lean ====
section
/-! SUPPORT. Tests: ill-formed terms, decoding of words the spec writes out, one step of each command on the spec's own
examples, and for each statement with hypotheses a state and operands that meet them. -/

open Sys2Proof Sys2Proof.Machine

namespace Sys2Proof.Tests

set_option Elab.async false

/- Well-formedness: each check refuses an ill-formed term (R302, R304). -/

theorem test_wf_refuses_imm :
    Instr.wf (.biLdi (.general 0) 262144) = false ∧ Instr.wf (.biLdi (.general 0) (-262145)) = false := by decide

theorem test_wf_accepts_imm_bounds :
    Instr.wf (.biLdi (.reserved 31) 262143) = true ∧ Instr.wf (.biLdi (.reserved 23) (-262144)) = true := by decide

/-- Index 22 is KMIN and index 32 has no field: no reserved register is either. Each operand place of each command. -/
theorem test_wf_refuses_registers :
    ([.biMov (.reserved 32) (.general 0), .biMov (.general 0) (.reserved 22), .biLdi (.reserved 32) 0,
      .biRel (.reserved 32), .biLoad (.reserved 22), .biStore (.reserved 32), .biCmp (.reserved 22) (.general 0),
      .biCmp (.general 0) (.reserved 32)] : List Instr).all (fun i => !i.wf) = true := by decide

theorem test_wf_refuses_registers_three :
    ([.biAdd, .biSub, .biMul, .biDiv, .biMod, .biModinv] : List (RegName → RegName → RegName → Instr)).all
      (fun f => !(f (.reserved 32) (.general 0) (.general 1)).wf && !(f (.general 0) (.reserved 22) (.general 1)).wf
        && !(f (.general 0) (.general 1) (.reserved 32)).wf) = true := by decide

theorem test_wf_refuses_registers_four :
    ([.biModpow (.reserved 32) (.general 0) (.general 1) (.general 2),
      .biModpow (.general 0) (.reserved 22) (.general 1) (.general 2),
      .biModpow (.general 0) (.general 1) (.reserved 32) (.general 2),
      .biModpow (.general 0) (.general 1) (.general 2) (.reserved 22), .keyDerive (.reserved 32)] : List Instr).all
      (fun i => !i.wf) = true := by decide

/- Decoding: the words of 95_test_vectors.md section 2, and of the rules' examples. -/

/-- Words and the commands the spec says they are. -/
def specWords : List (Word × Instr) := [
  (0x00000001, .nop), (0x00000110, .biMov (.general 1) (.general 0)), (0x00003110, .biMov (.const .k1) (.general 1)),
  (0x0002E110, .biMov (.general 1) (.reserved 23)), (0x7FFFE011, .biLdi (.general 0) 262143),
  (0x80000011, .biLdi (.general 0) (-262144)), (0xFFFFC111, .biLdi (.general 1) (-2)),
  (0x00000F11, .biLdi (.general 15) 0), (0x00000012, .biRel (.general 0)), (0x00000313, .biLoad (.general 3)),
  (0x00008014, .biStore (.general 4)), (0x00148015, .biCmp (.general 4) (.general 5)),
  (0x00440118, .biAdd (.general 1) (.general 0) (.const .k1)), (0x0046A118, .biAdd (.general 1) (.const .kmax) (.const .k1)),
  (0x00040219, .biSub (.general 2) (.general 0) (.general 1)), (0x0004021A, .biMul (.general 2) (.general 0) (.general 1)),
  (0x0004041C, .biDiv (.general 4) (.general 0) (.general 1)), (0x0040011C, .biDiv (.general 1) (.general 0) (.const .k0)),
  (0x000C451D, .biMod (.general 5) (.general 2) (.general 3)),
  (0x01040420, .biModpow (.general 4) (.general 0) (.general 1) (.general 2)),
  (0x09CA4020, .biModpow (.general 0) (.const .k2) (.const .k2) (.const .k10)),
  (0x00040221, .biModinv (.general 2) (.general 0) (.general 1)), (0x00000028, .keyCommit),
  (0x0000E029, .keyDerive (.general 7)), (0x00000030, .rkGen), (0x00000031, .bcEnc), (0x00000032, .bcDec),
  (0x00000034, .blkXor), (0x00000035, .blkLadd), (0x00000036, .blkCmp), (0x00000040, .stInite), (0x00000041, .stInitd),
  (0x00000042, .stCluster), (0x00000043, .stFinish), (0x00000044, .stCleanup)]

/-- What the decoder answers, as an option. -/
def decoded (w : Word) : Option Instr := decodeTableWord 32 w.toNat

theorem test_decode_spec_words : specWords.all (fun p => decide (decoded p.1 = some p.2)) = true := by decide +kernel

theorem test_encode_spec_words : specWords.all (fun p => decide (encode p.2 = p.1)) = true := by decide +kernel

theorem test_decode_refuses :
    ([0x00000000, 0x00000100, 0x00100001, 0x00040110, 0x10000110, 0x00000033, 0x00000016, 0x000000FF,
      0x08000118, 0x00000112, 0x00002013] : List Word).all (fun w => (decoded w).isNone) = true := by decide +kernel

/- One command on a small state: helpers. -/

/-- The state after reset with some general registers holding values. -/
def withRegs (l : List (Nat × Int)) : State :=
  { State.reset with big.gpr := Vector.ofFn fun i => l.lookup i.val }

/-- `p` holds of the next state. -/
def okWith (p : State → Bool) (o : Host.Outcome State Fault Refusal) : Bool :=
  match o with
  | .next t => p t
  | .fault _ => false
  | .refused _ => false

/-- A block from its 32 bytes written as one hexadecimal number, byte 0 first. -/
def blockOf (n : Nat) : Block := Vector.ofFn fun i => BitVec.ofNat 8 (n / 256 ^ (31 - i.val))

/-- The bytes `a`, `a + 1`, …. -/
def countUp (a : Nat) : Block := Vector.ofFn fun i => BitVec.ofNat 8 (a + i.val)

/-- The key 00..1f established, BLK = 20..3f. -/
def keyed : State :=
  { State.reset with cip := { CipherRegs.reset with key := countUp 0, keyValid := true, blk := countUp 0x20 } }

/-- V-SYS-2. -/
theorem test_nop :
    okWith (fun t => t.ctl.cmdCount == 1 && statusWord t == 0x00000002) (exec .nop State.reset) = true := by
  decide +kernel

/-- V-CORE-1. -/
theorem test_mov :
    okWith (fun t => t.big.gpr[1] == some 5 && t.big.gpr[0] == some 5)
      (exec (.biMov (.general 1) (.general 0)) (withRegs [(0, 5)])) = true := by decide +kernel

/-- V-CORE-14: CONST_WRITE, through the word. -/
theorem test_mov_const_write :
    okWith (fun t => t.ctl.errCode == .constWrite && t.ctl.errCmd == 0x00003110 && !t.ctl.busy)
      (step ((withRegs [(1, 1)]).withFetchWord 32 0x00003110)) = true := by decide +kernel

/-- V-CORE-2. -/
theorem test_ldi :
    okWith (fun t => t.big.gpr[0] == some (-262144)) (step (State.reset.withFetchWord 32 0x80000011)) = true := by
  decide +kernel

/-- V-CORE-3: a second release. -/
theorem test_rel_twice :
    okWith (fun t => t.ctl.errCode == .emptyOperand) (exec (.biRel (.general 0)) (withRegs [])) = true := by
  decide +kernel

/-- The window of V-CORE-4: BIW_LEN = 2, BIW_DIG = [0, 1, 0, …]. -/
def windowState (neg : Bool) (len : Nat) (ds : List Nat) : State :=
  { State.reset with big := { BigRegs.reset with
      winSign := neg, winLen := BitVec.ofNat 16 len, winDig := Vector.ofFn fun i => BitVec.ofNat 32 (ds.getD i.val 0) } }

/-- V-CORE-4. -/
theorem test_load :
    okWith (fun t => t.big.gpr[3] == some 4294967296)
      (exec (.biLoad (.general 3)) (windowState false 2 [0, 1])) = true := by decide +kernel

/-- V-CORE-7. -/
theorem test_load_too_long :
    okWith (fun t => t.ctl.errCode == .badOperand && t.big.gpr[0] == none)
      (exec (.biLoad (.general 0)) (windowState false 129 [])) = true := by decide +kernel

/-- V-CORE-8. -/
theorem test_store :
    okWith (fun t => t.big.winSign && t.big.winLen == 2 && t.big.winDig[0] == 5 && t.big.winDig[1] == 1
        && t.big.winDig[2] == 0)
      (exec (.biStore (.general 4)) (withRegs [(4, -4294967301)])) = true := by decide +kernel

/-- V-CORE-11. -/
theorem test_cmp :
    okWith (fun t => t.ctl.cmpRes == .less)
      (exec (.biCmp (.general 0) (.general 1)) (withRegs [(0, -5), (1, -3)])) = true := by decide +kernel

/-- V-ADD-1: the source is consumed. -/
theorem test_add :
    okWith (fun t => t.big.gpr[1] == some 0x100000000 && t.big.gpr[0] == none)
      (exec (.biAdd (.general 1) (.general 0) (.const .k1)) (withRegs [(0, 0xFFFFFFFF)])) = true := by decide +kernel

/-- V-ADD-9. -/
theorem test_add_double_use :
    okWith (fun t => t.ctl.errCode == .doubleUse && t.big.gpr[0] == some 3)
      (exec (.biAdd (.general 1) (.general 0) (.general 0)) (withRegs [(0, 3)])) = true := by decide +kernel

/-- V-ADD-2, the destination one of the sources. -/
theorem test_sub :
    okWith (fun t => t.big.gpr[0] == some (-1) && t.big.gpr[1] == none)
      (exec (.biSub (.general 0) (.general 0) (.general 1)) (withRegs [(0, 0), (1, 1)])) = true := by decide +kernel

/-- V-MUL-1. -/
theorem test_mul :
    okWith (fun t => t.big.gpr[2] == some 0xFFFFFFFE00000001)
      (exec (.biMul (.general 2) (.general 0) (.general 1)) (withRegs [(0, 0xFFFFFFFF), (1, 0xFFFFFFFF)])) = true := by
  decide +kernel

/-- V-MUL-6. -/
theorem test_mul_capacity :
    okWith (fun t => t.ctl.errCode == .capacity && t.big.gpr[0] == some (2 ^ 2048))
      (exec (.biMul (.general 2) (.general 0) (.general 1)) (withRegs [(0, 2 ^ 2048), (1, 2 ^ 2048)])) = true := by
  decide +kernel

/-- V-DIV-6: the correction fires. -/
theorem test_div :
    okWith (fun t => t.big.gpr[2] == some 6800739571)
      (exec (.biDiv (.general 2) (.general 0) (.general 1))
        (withRegs [(0, 0x4a2f919cb32defd5670), (1, 0x2eda03a1915)])) = true := by decide +kernel

/-- V-DIV-9. -/
theorem test_div_negative :
    okWith (fun t => t.big.gpr[2] == some 4294967295)
      (exec (.biDiv (.general 2) (.general 0) (.general 1))
        (withRegs [(0, -18446744073709551616), (1, -4294967297)])) = true := by decide +kernel

/-- V-DIV-7. -/
theorem test_mod :
    okWith (fun t => t.big.gpr[2] == some 4294967296)
      (exec (.biMod (.general 2) (.general 0) (.general 1))
        (withRegs [(0, -18446744073709551616), (1, 4294967297)])) = true := by decide +kernel

/-- V-MEX-1. -/
theorem test_modpow :
    okWith (fun t => t.big.gpr[4] == some 8 && t.big.gpr[2] == none)
      (exec (.biModpow (.general 4) (.general 0) (.general 1) (.general 2))
        (withRegs [(0, 5), (1, 6), (2, 23)])) = true := by decide +kernel

/-- V-MEX-8: a negative exponent. -/
theorem test_modpow_negative :
    okWith (fun t => t.big.gpr[4] == some 4)
      (exec (.biModpow (.general 4) (.general 0) (.general 1) (.general 2))
        (withRegs [(0, 3), (1, -2), (2, 7)])) = true := by decide +kernel

/-- V-MEX-14. -/
theorem test_modinv :
    okWith (fun t => t.big.gpr[2] == some 7)
      (exec (.biModinv (.general 2) (.general 0) (.general 1)) (withRegs [(0, -3), (1, 11)])) = true := by decide +kernel

/-- V-MEX-17. -/
theorem test_modinv_not_coprime :
    okWith (fun t => t.ctl.errCode == .notCoprime && t.big.gpr[1] == some 9)
      (exec (.biModinv (.general 2) (.general 0) (.general 1)) (withRegs [(0, 6), (1, 9)])) = true := by decide +kernel

/-- R801: an all-zero key is a valid key. -/
theorem test_key_commit : okWith (fun t => t.cip.keyValid) (exec .keyCommit State.reset) = true := by decide +kernel

/-- V-KEY-1. -/
theorem test_key_derive :
    okWith (fun t => t.cip.key == blockOf 0xdc6f218e5ce8b9c5b002cbeb5dd5f72ce0016a3ce4cd6806e717356be107cc8a
        && t.cip.keyValid && t.big.gpr[7] == none)
      (exec (.keyDerive (.general 7)) (withRegs [(7, 8)])) = true := by decide +kernel

/-- V-KEY-6. -/
theorem test_key_derive_negative :
    okWith (fun t => t.ctl.errCode == .badOperand && !t.cip.keyValid) (exec (.keyDerive (.const .km1)) State.reset)
      = true := by decide +kernel

/-- The example of R910. -/
theorem test_rk_gen :
    okWith (fun t => t.cip.rkey.toList == (List.range 16).map fun i =>
        BitVec.ofNat 8 (0x98b0a8e0f8d0c8405870682038100880 / 256 ^ (15 - i)))
      (exec .rkGen { keyed with cip := { keyed.cip with idxCluster := 1, idxBlock := 2, idxRound := 3 } }) = true := by
  decide +kernel

/-- The example of R911. -/
theorem test_bc_enc :
    okWith (fun t => t.cip.blk == blockOf 0xc7ec8c5ffd4c609ba2e5f63ed64549bbf3d93bb658bfe21495d402665f8fe3bc)
      (exec .bcEnc keyed) = true := by decide +kernel

/-- The example of R912. -/
theorem test_bc_dec :
    okWith (fun t => t.cip.blk == countUp 0x20)
      (exec .bcDec { keyed with cip.blk := blockOf 0xc7ec8c5ffd4c609ba2e5f63ed64549bbf3d93bb658bfe21495d402665f8fe3bc })
      = true := by decide +kernel

/-- A state with BLK and BLK2. -/
def blocks (x y : Block) : State := { State.reset with cip := { CipherRegs.reset with blk := x, blk2 := y } }

/-- The example of R913. -/
theorem test_blk_xor :
    okWith (fun t => t.cip.blk == Vector.replicate 32 0xff)
      (exec .blkXor (blocks (Vector.replicate 32 0x0f) (Vector.replicate 32 0xf0))) = true := by decide +kernel

/-- The example of R914: the carry out of a lane is lost. -/
theorem test_blk_ladd :
    okWith (fun t => t.cip.blk == blockOf (2 * 256 ^ 23))
      (exec .blkLadd (blocks (blockOf (0xffffffffffffffff * 256 ^ 24 + 256 ^ 23)) (blockOf (256 ^ 31 + 256 ^ 23)))) = true := by
  decide +kernel

/-- R915: two blocks that differ. -/
theorem test_blk_cmp :
    okWith (fun t => t.ctl.cmpRes == .greater) (exec .blkCmp (blocks zeroBlock (countUp 0))) = true := by decide +kernel

/-- The key 00..1f, IV = a5×32, a length. -/
def lengthState (n : Nat) : State :=
  { keyed with str := { StreamRegs.reset with len := BitVec.ofNat 64 n, iv := Vector.replicate 32 0xa5 } }

/-- The example of R1010. -/
theorem test_inite :
    okWith (fun t => t.str.sstate == .enc && t.str.nblk == 1 && t.str.nclust == 1 && t.str.lpad == 32
        && t.str.total == 96 && t.str.cv == Vector.replicate 32 0xa5) (exec .stInite (lengthState 5)) = true := by
  decide +kernel

/-- L = 4097 (R1010). -/
theorem test_inite_two_clusters :
    okWith (fun t => t.str.nblk == 129 && t.str.nclust == 2) (exec .stInite (lengthState 4097)) = true := by
  decide +kernel

/-- V-ST-13. -/
theorem test_initd_bad_length :
    okWith (fun t => t.ctl.errCode == .badLength) (exec .stInitd (lengthState 33)) = true := by decide +kernel

/-- The example of R1011. -/
theorem test_initd :
    okWith (fun t => t.str.sstate == .dec && t.str.total == 96) (exec .stInitd (lengthState 32)) = true := by
  decide +kernel

/-- "hello" in block 0, 80..9f in block 1. -/
def helloCells : List Host.Cell :=
  Cbuf.write (Cbuf.write [] 0 ([0x68, 0x65, 0x6c, 0x6c, 0x6f])) 32 (countUp 0x80).toList

/-- The encrypt transfer of V-ST-1, before its cluster. -/
def sender : State :=
  { keyed with
    cbuf := helloCells
    str := { StreamRegs.reset with
      sstate := .enc, iv := Vector.replicate 32 0xa5, cv := Vector.replicate 32 0xa5, len := 5, nblk := 1, nclust := 1
      realLen := 5, lpad := 32, total := 96 } }

/-- V-ST-1, encrypt. -/
theorem test_cluster_encrypt :
    okWith (fun t => blockIn t 0 == blockOf 0x478b36380e725d00afb97bbbdf9fed32621e4c514d2739437f3417b8a978b311
        && blockIn t 1 == blockOf 0xab641a892b3f5a5cae68f71903954daea57346eadb22d27d31d044ec1b98c91b
        && t.str.padOff == 14 && t.str.padCount == 5 && t.str.sstate == .encDone && t.str.outLen == 64
        && t.str.hashes == [blockOf 0x0ee8c396eb4005554d2ee590de052203711496512b848db0dd8a380df0fcde20])
      (exec .stCluster sender) = true := by decide +kernel

/-- The decrypt transfer of V-ST-1, before its cluster. -/
def receiver : State :=
  { keyed with
    cbuf := Cbuf.writeBlocks [] [blockOf 0x478b36380e725d00afb97bbbdf9fed32621e4c514d2739437f3417b8a978b311,
      blockOf 0xab641a892b3f5a5cae68f71903954daea57346eadb22d27d31d044ec1b98c91b]
    str := { StreamRegs.reset with
      sstate := .dec, iv := Vector.replicate 32 0xa5, cv := Vector.replicate 32 0xa5, len := 32, nblk := 1, nclust := 1
      lpad := 32, total := 96 } }

/-- V-ST-1, decrypt. -/
theorem test_cluster_decrypt :
    okWith (fun t => blockIn t 0 == blockOf (0x68656c6c6f * 256 ^ 27) && t.str.outLen == 5 && t.str.realLen == 5
        && t.str.padOff == 14 && t.str.padCount == 5 && t.str.sstate == .decDone && !t.str.padErr)
      (exec .stCluster receiver) = true := by decide +kernel

/-- A decrypt transfer after its final cluster, with the hash of V-ST-1. -/
def decoded1 (padErr : Bool) : State :=
  { keyed with str := { StreamRegs.reset with
      sstate := .decDone, nblk := 1, nclust := 1, cidx := 1, lpad := 32, total := 96, off := 32, realLen := 5
      hcount := 1, padErr := padErr
      hashes := [blockOf 0x0ee8c396eb4005554d2ee590de052203711496512b848db0dd8a380df0fcde20]
      rxTrailer := blockOf 0x59d7ea2a90501182f34db34341a8b3fd3e4d4ee882b0c71d5b7b49aaece76540 } }

/-- The trailer of V-ST-1. -/
theorem test_finish :
    okWith (fun t => t.str.trailer == blockOf 0x59d7ea2a90501182f34db34341a8b3fd3e4d4ee882b0c71d5b7b49aaece76540
        && t.str.authOk && t.str.authValid && t.str.sstate == .finished) (exec .stFinish (decoded1 false)) = true := by
  decide +kernel

/-- V-ST-10: PADERR fails a transfer whose trailer matches. -/
theorem test_finish_pad_error :
    okWith (fun t => !t.str.authOk && t.str.authValid && t.ctl.done && !t.ctl.err) (exec .stFinish (decoded1 true)) = true := by
  decide +kernel

/-- R1015: the integrity result and the trailer stay. -/
theorem test_cleanup :
    okWith (fun t => t.str.sstate == .idle && t.str.hcount == 0 && t.str.hashes == [] && t.str.nblk == 0
        && t.str.rxTrailer == (decoded1 true).str.rxTrailer && t.str.padErr) (exec .stCleanup (decoded1 true)) = true := by
  decide +kernel

/- The register window. -/

/-- A state whose next turn is the host's access. -/
def hostTurn (a : HostAccess) (s : State) : State := { s with port.turns := [.host a] }

theorem step_hostWrite (off : Nat) (w : Word) (s : State) (h4 : off % 4 = 0) (h : off < 0x4000) :
    step (hostTurn (.write (windowAddr off) 4 w) s)
      = .next (writeWord (winReg params off) w { s with port.turns := [] }) := step_write ⟨[], rfl, rfl⟩ h4 h

/-- V-CORE-16: BI_VALID after reset. -/
theorem test_read_bi_valid :
    step (hostTurn (.read (windowAddr 0x048) 4) State.reset)
      = .next { State.reset with port.replies := [0x007F0000] } := by
  rw [step_read ⟨[], rfl, rfl⟩ (by decide) (by decide)]
  rfl

/-- V-SYS-3: a CMD write while BUSY. -/
theorem test_cmd_while_busy :
    okWith (fun t => t.ctl.ovr && t.ctl.lastCmd == 0)
      (step (hostTurn (.write (windowAddr 0x018) 4 1) { State.reset with ctl.busy := true })) = true := by
  rw [step_hostWrite _ _ _ (by decide) (by decide)]
  decide +kernel

/-- V-KEY-8: a KEY write clears KEYVALID; byte 1 of the word is byte 1 of KEY (R206). -/
theorem test_key_write :
    okWith (fun t => !t.cip.keyValid && t.cip.key[1] == 0x22 && t.cip.key[4] == 4)
      (step (hostTurn (.write (windowAddr 0x080) 4 0x44332211) keyed)) = true := by
  rw [step_hostWrite _ _ _ (by decide) (by decide)]
  decide +kernel

/-- A block with other parameters: 48 digits, its window at 0x40008000 (R7, R201). -/
def otherParams : Params := { params with maxDigits := 48, coreBase := 0x40008000 }

/-- PARAM0 and the ends of the window of that block (R111, R201, R205): address bits [13:0] are the offset. -/
theorem test_other_window :
    okWith (fun t => t.port.replies == [0x20003010]) (hostAccess otherParams (.read 0x40008004 4) State.reset) = true
      ∧ accessOffset otherParams 0x4000BFFC 4 = some 0x3FFC ∧ accessOffset otherParams 0x4000C000 4 = none
      ∧ accessOffset otherParams 0x40007FFC 4 = none ∧ winReg otherParams 0x4BC = .biwDig 47
      ∧ winReg otherParams 0x4C0 = .reserved := by decide +kernel

/-- The capacity of that block is 2^1536 (R405). -/
theorem test_other_capacity :
    okWith (fun t => t.ctl.errCode == .capacity)
      (execAt otherParams (.biMul (.general 2) (.general 0) (.general 1)) (withRegs [(0, 2 ^ 1535), (1, 2)])) = true
      ∧ okWith (fun t => t.big.gpr[2] == some (2 ^ 1535))
        (execAt otherParams (.biMul (.general 2) (.general 0) (.general 1)) (withRegs [(0, 2 ^ 1534), (1, 2)])) = true := by
  decide +kernel

/-- R205: a 16-bit access is a bus error. -/
theorem test_bus_error :
    (match step (hostTurn (.read 0x010 2) State.reset) with
      | .fault f => decide (f = .busError 0x010 2)
      | .next _ => false
      | .refused _ => false) = true := by decide +kernel

/-- The first 64 primes. -/
def firstPrimes : List Nat :=
  (List.range 312).filter fun n => decide (2 ≤ n) && (List.range 18).all fun d => decide (d < 2 ∨ n ≤ d ∨ n % d ≠ 0)

/-- The SHA-256 constants, from what FIPS 180-4 says they are: 2^32 times a cube root of a prime below 7, cut at the point,
is a whole part `q` from 0 to 6 and then the 32 bits of the constant. -/
theorem test_sha_constants :
    firstPrimes.length = 64 ∧ shaK.length = 64
      ∧ (firstPrimes.zip shaK).all (fun x => (List.range 7).any fun q =>
          decide ((q * 2 ^ 32 + x.2.toNat) ^ 3 ≤ x.1 * 2 ^ 96 ∧ x.1 * 2 ^ 96 < (q * 2 ^ 32 + x.2.toNat + 1) ^ 3)) = true := by
  decide +kernel

/-- The S-box samples of R902. -/
theorem test_sbox : aesSbox 0x00 = 0x63 ∧ aesSbox 0x53 = 0xed ∧ aesSbox 0xff = 0x16 ∧ aesSbox 0x80 = 0xcd := by
  decide +kernel

/-- The examples of R310 and an expansion of R311. -/
theorem test_assembly :
    assemblyLine (.biAdd (.general 2) (.general 0) (.general 1)) = "BI.ADD B2, B0, B1"
      ∧ assemblyLine (.biLdi (.general 0) (-2)) = "BI.LDI B0, -2" ∧ assemblyLine .stCluster = "ST.CLUSTER"
      ∧ expandPseudo (.neg (.general 1) (.general 2)) = [.biSub (.general 1) (.const .k0) (.general 2)] := by
  decide +kernel

/- Witnesses: for each statement with hypotheses, a state and operands that meet all of them, one for each clause. -/

/-- A command in flight, the engine next. -/
def inFlight (w : Word) : State := acceptWord w State.reset

theorem witness_DecodeOfEncoded :
    Instr.wf (.biModpow (.general 15) (.reserved 31) (.reserved 23) (.const .kmin)) = true
      ∧ Instr.wf (.biLdi (.general 0) 262143) = true ∧ Instr.wf (.biLdi (.general 0) (-262144)) = true := by decide

theorem witness_EncodeOfDecoded :
    decoded 0x80000011 = some (.biLdi (.general 0) (-262144)) ∧ decode 0x00000044 = .ok .stCleanup :=
  ⟨by decide +kernel, rfl⟩

theorem witness_LegalWords :
    (∃ u, EngineNext (inFlight 0) u) ∧ (inFlight 0).ctl.busy = true ∧ ¬LegalWord (inFlight 0).ctl.lastCmd :=
  ⟨⟨_, .inr ⟨[], rfl, rfl⟩⟩, rfl, by unfold LegalWord; decide⟩

/-- A legal opcode with a field that is not 0. -/
theorem witness_LegalWords_field :
    (∃ u, EngineNext { inFlight 0x00000100 with port := ⟨[], [], 0, 0⟩ } u)
      ∧ ¬LegalWord (inFlight 0x00000101).ctl.lastCmd ∧ ¬LegalWord 0x00040110 :=
  ⟨⟨_, .inl ⟨rfl, rfl⟩⟩, by unfold LegalWord; decide, by unfold LegalWord; decide⟩

theorem witness_ImmediateField :
    (0x7FFFE011 : Word).toNat % 256 = 0x11 ∧ ¬2 ^ 18 ≤ (0x7FFFE011 : Word).toNat / 2 ^ 13
      ∧ (0x80000011 : Word).toNat % 256 = 0x11 ∧ 2 ^ 18 ≤ (0x80000011 : Word).toNat / 2 ^ 13 := by decide

theorem witness_ImmediateField_decoded : decode 0x80000011 = .ok (.biLdi (.general 0) (-262144)) := by decide +kernel

theorem witness_EveryCommandEnds :
    (∃ u, EngineNext (inFlight 0) u) ∧ (inFlight 0).ctl.busy = true ∧ ∀ i, decode (inFlight 0).ctl.lastCmd ≠ .ok i :=
  ⟨⟨_, .inr ⟨[], rfl, rfl⟩⟩, rfl, fun _ h => by cases h⟩

theorem witness_StepRunsDecodedCommand :
    (∃ u, EngineNext (inFlight 1) u) ∧ (inFlight 1).ctl.busy = true ∧ decode (inFlight 1).ctl.lastCmd = .ok .nop :=
  ⟨⟨_, .inr ⟨[], rfl, rfl⟩⟩, rfl, rfl⟩

/-- No turn left. -/
theorem witness_StepRunsDecodedCommand_empty :
    EngineNext { inFlight 1 with port := ⟨[], [], 0, 0⟩ } { inFlight 1 with port := ⟨[], [], 0, 0⟩ } := .inl ⟨rfl, rfl⟩

theorem witness_CommandAcceptance :
    (∃ u, HostNext (.write (windowAddr 0x018) 4 1) (hostTurn (.write (windowAddr 0x018) 4 1) State.reset) u) ∧ State.reset.ctl.busy = false
      ∧ State.reset.ctl.err = false := ⟨⟨_, [], rfl, rfl⟩, rfl, rfl⟩

theorem witness_CommandAcceptance_refused :
    (∃ u, HostNext (.write (windowAddr 0x018) 4 1) (hostTurn (.write (windowAddr 0x018) 4 1) (inFlight 1)) u)
      ∧ (hostTurn (.write (windowAddr 0x018) 4 1) (inFlight 1)).ctl.busy = true := ⟨⟨_, [], rfl, rfl⟩, rfl⟩

/-- A state in the error state. -/
def failed : State := errored .divByZero (withRegs [(0, 1)])

theorem witness_CommandAcceptance_error :
    (∃ u, HostNext (.write (windowAddr 0x018) 4 1) (hostTurn (.write (windowAddr 0x018) 4 1) failed) u)
      ∧ (hostTurn (.write (windowAddr 0x018) 4 1) failed).ctl.err = true := ⟨⟨_, [], rfl, rfl⟩, rfl⟩

theorem witness_InternalNeverRaised : State.reset.ctl.errCode = .noError := rfl

/-- NOP is none of the commands that the clauses of the frame leave out, so its witness meets each clause. -/
theorem witness_CommandFrame :
    exec .nop State.reset = .next (complete State.reset) ∧ (∀ ra rb, Instr.nop ≠ .biCmp ra rb) ∧ Instr.nop ≠ .blkCmp
      ∧ (∀ ra, Instr.nop ≠ .biStore ra) ∧ Instr.nop ≠ .keyCommit ∧ (∀ ra, Instr.nop ≠ .keyDerive ra)
      ∧ Instr.nop ∉ [Instr.bcEnc, .bcDec, .blkXor, .blkLadd] ∧ Instr.nop ≠ .rkGen
      ∧ Instr.nop ∉ [Instr.stInite, .stInitd, .stCluster, .stFinish, .stCleanup] ∧ Instr.nop ≠ .stCluster
      ∧ operandShape .nop = none := by
  refine ⟨rfl, ?_, ?_, ?_, ?_, ?_, ?_, ?_, ?_, ?_, rfl⟩ <;> simp

/-- A completed command is no error state of a state without DONE. -/
theorem complete_ne_errored (s t : State) (h : s.ctl.done = false) (code : ErrCode) : complete t ≠ errored code s :=
  fun e => by
    have := congrArg (fun x : State => x.ctl.done) e
    simp only [complete_ctl_done, errored, erroredCtl, h] at this
    exact absurd this (by decide)

/-- BI.ADD B2, B0, B1 completes. -/
theorem test_add_completes :
    exec (.biAdd (.general 2) (.general 0) (.general 1)) (withRegs [(0, 1), (1, 2)])
      = .next (complete (writeReg ([RegName.general 0, .general 1].foldl consume (withRegs [(0, 1), (1, 2)]))
          (.general 2) 3)) := by
  rw [exec_eq]
  have h : commandRule params (.biAdd (.general 2) (.general 0) (.general 1)) (withRegs [(0, 1), (1, 2)])
      = commit params (withRegs [(0, 1), (1, 2)]) (.general 2) 3 [.general 0, .general 1] := by
    have hp : preamble (withRegs [(0, 1), (1, 2)]) (some (.general 2)) [.general 0, .general 1] true = none := by decide
    simp only [commandRule, addRule, withOperands_of_none hp]
    rfl
  have hc : ¬capacityBound params ≤ (3 : Int).natAbs := by decide +kernel
  rw [h, commit, if_neg hc]
  rfl

/-- BI.ADD B2, B0, B1 consumes its sources; B3 is no operand. -/
theorem witness_RegisterFileFrame :
    (∃ t, exec (.biAdd (.general 2) (.general 0) (.general 1)) (withRegs [(0, 1), (1, 2)]) = .next t
        ∧ ∀ code, t ≠ errored code (withRegs [(0, 1), (1, 2)]))
      ∧ operandShape (.biAdd (.general 2) (.general 0) (.general 1))
          = some (some (.general 2), [.general 0, .general 1], true)
      ∧ RegName.general 0 ∈ [RegName.general 0, .general 1] ∧ RegName.general 3 ∉ [RegName.general 0, .general 1] :=
  ⟨⟨_, test_add_completes, complete_ne_errored _ _ rfl⟩, rfl, by decide, by decide⟩

/-- BI.REL B0 is not consuming and releases B0; B1 is left. -/
theorem witness_RegisterFileFrame_rel :
    (∃ t, exec (.biRel (.general 0)) (withRegs [(0, 1)]) = .next t ∧ ∀ code, t ≠ errored code (withRegs [(0, 1)]))
      ∧ operandShape (.biRel (.general 0)) = some (none, [.general 0], false)
      ∧ Instr.biRel (.general 0) ≠ .biRel (.general 1) :=
  ⟨⟨_, rfl, complete_ne_errored _ _ rfl⟩, rfl, by decide⟩

theorem witness_RegisterFileFrame_none :
    (∃ t, exec .nop State.reset = .next t ∧ ∀ code, t ≠ errored code State.reset) ∧ operandShape .nop = none :=
  ⟨⟨_, rfl, complete_ne_errored _ _ rfl⟩, rfl⟩

theorem witness_OperandErrors_reserved :
    operandShape (.biAdd (.const .k1) (.reserved 23) (.general 0))
        = some (some (.const .k1), [.reserved 23, .general 0], true)
      ∧ ¬NoReserved ((some (RegName.const .k1)).toList ++ [.reserved 23, .general 0]) :=
  ⟨rfl, fun h => h 23 (by simp)⟩

theorem witness_OperandErrors_const :
    operandShape (.biMov (.const .k1) (.general 1)) = some (some (.const .k1), [.general 1], false)
      ∧ NoReserved ((some (RegName.const .k1)).toList ++ [.general 1]) ∧ ¬NoConstDst (some (.const .k1)) :=
  ⟨rfl, fun n => by simp, fun h => h .k1 rfl⟩

theorem witness_OperandErrors_empty :
    operandShape (.biStore (.general 6)) = some (none, [.general 6], false)
      ∧ NoReserved ((none : Option RegName).toList ++ [.general 6]) ∧ NoConstDst none
      ∧ ¬NoEmpty State.reset [.general 6] :=
  ⟨rfl, fun n => by simp, fun c => by simp, fun h => h 6 (by simp) (by decide)⟩

theorem witness_OperandErrors_double :
    operandShape (.biAdd (.general 1) (.general 0) (.general 0)) = some (some (.general 1), [.general 0, .general 0], true)
      ∧ NoReserved ((some (RegName.general 1)).toList ++ [.general 0, .general 0]) ∧ NoConstDst (some (.general 1))
      ∧ NoEmpty (withRegs [(0, 3)]) [.general 0, .general 0] ∧ ¬NoDoubleUse [.general 0, .general 0] :=
  ⟨rfl, fun n => by simp, fun c => by simp, fun j h => by simp at h; subst h; decide,
    fun h => absurd (h 0) (by decide)⟩

/-- BI.CMP may name one register twice: no check fails. -/
theorem witness_OperandErrors_none :
    operandShape (.biCmp (.general 0) (.general 0)) = some (none, [.general 0, .general 0], false)
      ∧ NoReserved ((none : Option RegName).toList ++ [.general 0, .general 0]) ∧ NoConstDst none
      ∧ NoEmpty (withRegs [(0, 7)]) [.general 0, .general 0] ∧ (withRegs [(0, 7)]).ctl.errCode = .noError :=
  ⟨rfl, fun n => by simp, fun c => by simp, fun j h => by simp at h; subst h; decide, rfl⟩

/-- The largest value a register holds. -/
def largest : Int := 2 ^ 4096 - 1

theorem witness_NopMovLdi :
    readReg (withRegs [(0, largest)]) (.general 0) = some largest ∧ readReg State.reset (.const .kmin) = some (-(2 ^ 31))
      ∧ (-262144 : Int) ≤ -262144 ∧ (262143 : Int) ≤ 262143 := ⟨rfl, by decide, by decide, by decide⟩

theorem witness_LoadReadsWindow :
    (windowState true 128 []).big.winLen.toNat ≤ 128 ∧ 128 < (windowState false 129 []).big.winLen.toNat := by decide

theorem witness_StoreWritesWindow :
    readReg (withRegs [(0, -largest)]) (.general 0) = some (-largest) ∧ readReg State.reset (.const .k0) = some 0 :=
  ⟨rfl, rfl⟩

theorem witness_StoreThenLoad :
    readReg (withRegs [(0, -largest)]) (.general 0) = some (-largest) ∧ (-largest).natAbs < capacityBound params :=
  ⟨rfl, by decide +kernel⟩

theorem witness_RelReleases :
    (withRegs [(15, 9)]).big.gpr[(15 : Fin 16).val] = some 9 ∧ (withRegs []).big.gpr[(0 : Fin 16).val] = none
      ∧ 0 < 32 ∧ 31 < 32 := by decide

theorem witness_CmpSetsCmpRes :
    readReg (withRegs [(0, -5)]) (.general 0) = some (-5) ∧ readReg (withRegs [(0, -5)]) (.const .km1) = some (-1) :=
  ⟨rfl, rfl⟩

theorem noDoubleUse_two (r : RegName) (c : ConstReg) : NoDoubleUse [r, .const c] := fun i => by
  rw [List.count_cons, List.count_cons]
  simp
  split <;> omega

/-- The sum, the difference and the product at the capacity bound and just below it. -/
theorem witness_AddSubMul :
    readReg (withRegs [(0, largest)]) (.general 0) = some largest ∧ readReg (withRegs [(0, largest)]) (.const .k0) = some 0
      ∧ readReg (withRegs [(0, largest)]) (.const .k1) = some 1 ∧ readReg (withRegs [(0, largest)]) (.const .km1) = some (-1)
      ∧ readReg (withRegs [(0, largest)]) (.const .k2) = some 2 ∧ (∀ c, NoDoubleUse [.general 0, .const c]) :=
  ⟨rfl, rfl, rfl, rfl, rfl, noDoubleUse_two _⟩

theorem witness_AddSubMul_bounds :
    (largest + 0).natAbs < capacityBound params ∧ capacityBound params ≤ (largest + 1).natAbs ∧ (largest - 0).natAbs < capacityBound params
      ∧ capacityBound params ≤ (largest - (-1)).natAbs ∧ (largest * 1).natAbs < capacityBound params
      ∧ capacityBound params ≤ (largest * 2).natAbs := by decide +kernel

theorem witness_DivModExact :
    readReg (withRegs [(0, -largest)]) (.general 0) = some (-largest)
      ∧ readReg (withRegs [(0, -largest)]) (.const .km1) = some (-1) ∧ NoDoubleUse [.general 0, .const .km1]
      ∧ (-1 : Int) ≠ 0 ∧ (-largest).natAbs < capacityBound params ∧ (-1 : Int).natAbs < capacityBound params :=
  ⟨rfl, rfl, noDoubleUse_two _ _, by decide, by decide +kernel, by decide +kernel⟩

theorem witness_DivisionByZero :
    readReg (withRegs [(0, 5)]) (.general 0) = some 5 ∧ readReg (withRegs [(0, 5)]) (.const .k0) = some 0
      ∧ NoDoubleUse [.general 0, .const .k0] := ⟨rfl, rfl, noDoubleUse_two _ _⟩

/-- A dividend that is not negative, one that the divisor divides, and one of neither. -/
theorem witness_DivisionLaws :
    (2 : Int) ≠ 0 ∧ (0 : Int) ≤ 0 ∧ (2 : Int) ∣ -6 ∧ ¬((0 : Int) ≤ -1 ∨ (2 : Int) ∣ -1) := by decide

theorem witness_DividerIsExact : 0 < 1 ∧ 2 ^ 16 ≤ topComp (2 ^ 16) ∧ 2 ^ 16 ≤ topComp (2 ^ 48) := by decide +kernel

theorem noDoubleUse_three (r : RegName) (c d : ConstReg) : NoDoubleUse [r, .const c, .const d] := fun i => by
  rw [List.count_cons, List.count_cons, List.count_cons]
  simp
  split <;> omega

/-- Exponent 0 and modulus 1. -/
theorem witness_ModpowNonnegative :
    readReg (withRegs [(0, -2)]) (.general 0) = some (-2) ∧ readReg (withRegs [(0, -2)]) (.const .k0) = some 0
      ∧ readReg (withRegs [(0, -2)]) (.const .k1) = some 1 ∧ NoDoubleUse [.general 0, .const .k0, .const .k1]
      ∧ (0 : Int) ≤ 0 ∧ (0 : Int) < 1 ∧ (1 : Int).natAbs < capacityBound params :=
  ⟨rfl, rfl, rfl, noDoubleUse_three _ _ _, by decide, by decide, by decide +kernel⟩

/-- 3^-1 mod 10 exists, 2^-1 mod 10 does not; modulo 1 every inverse does. -/
theorem witness_ModpowNegative :
    readReg (withRegs [(0, 3)]) (.general 0) = some 3 ∧ readReg (withRegs [(0, 2)]) (.general 0) = some 2
      ∧ readReg (withRegs [(0, 3)]) (.const .km1) = some (-1) ∧ readReg (withRegs [(0, 3)]) (.const .k10) = some 10
      ∧ NoDoubleUse [.general 0, .const .km1, .const .k10] ∧ (-1 : Int) < 0 ∧ (0 : Int) < 10
      ∧ (10 : Int).natAbs < capacityBound params ∧ Int.gcd (3 ^ (-1 : Int).natAbs) 10 = 1
      ∧ Int.gcd (2 ^ (-1 : Int).natAbs) 10 ≠ 1 ∧ Int.gcd (0 ^ (-1 : Int).natAbs) 1 = 1 :=
  ⟨rfl, rfl, rfl, rfl, noDoubleUse_three _ _ _, by decide, by decide, by decide +kernel, by decide, by decide, by decide⟩

theorem witness_ModinvResult :
    readReg (withRegs [(0, -3)]) (.general 0) = some (-3) ∧ readReg (withRegs [(0, 6)]) (.general 0) = some 6
      ∧ readReg (withRegs [(0, -3)]) (.const .k10) = some 10 ∧ NoDoubleUse [.general 0, .const .k10] ∧ (0 : Int) < 10
      ∧ (10 : Int).natAbs < capacityBound params ∧ Int.gcd (-3) 10 = 1 ∧ Int.gcd 6 10 ≠ 1 :=
  ⟨rfl, rfl, rfl, noDoubleUse_two _ _, by decide, by decide +kernel, by decide, by decide⟩

theorem witness_ModulusErrors :
    readReg (withRegs [(0, 5)]) (.general 0) = some 5 ∧ readReg (withRegs [(0, 5)]) (.const .k2) = some 2
      ∧ readReg (withRegs [(0, 5)]) (.const .k0) = some 0 ∧ readReg (withRegs [(0, 5)]) (.const .km1) = some (-1)
      ∧ NoDoubleUse [.general 0, .const .k2, .const .k0] ∧ NoDoubleUse [.general 0, .const .k2, .const .km1]
      ∧ (-1 : Int) < 0 :=
  ⟨rfl, rfl, rfl, rfl, noDoubleUse_three _ _ _, noDoubleUse_three _ _ _, by decide⟩

theorem witness_PipelineLaws : (2 : Int) ≤ 2 ∧ (0 : Int) ≤ 0 ∧ Int.gcd 1 2 = 1 := by decide

theorem witness_KeyCommit : State.reset.str.sstate = .idle ∧ sender.str.sstate ≠ .idle := ⟨rfl, by decide⟩

theorem witness_KeyDerive :
    ¬NoReserved [.reserved 31] ∧ NoReserved [.general 0] ∧ readReg State.reset (.general 0) = none
      ∧ readReg sender (.const .k2) = some 2 ∧ sender.str.sstate ≠ .idle ∧ State.reset.str.sstate = .idle :=
  ⟨fun h => h 31 (by simp), fun n => by simp, by decide, rfl, by decide, rfl⟩

/-- The secrets at the ends of the range, and just outside. -/
theorem witness_KeyDerive_secrets :
    readReg (withRegs [(0, 2 ^ 1536)]) (.general 0) = some (2 ^ 1536) ∧ (2 : Int) ^ 1536 ≤ 2 ^ 1536
      ∧ readReg State.reset (.const .km1) = some (-1) ∧ readReg (withRegs [(0, 2 ^ 1536 - 1)]) (.general 0) = some (2 ^ 1536 - 1)
      ∧ (2 : Int) ^ 1536 - 1 < 2 ^ 1536 ∧ readReg State.reset (.const .k0) = some 0 :=
  ⟨rfl, le_refl _, rfl, rfl, by decide +kernel, rfl⟩

/-- KEY.COMMIT runs. -/
theorem witness_KeyChanges_command :
    ∃ t, step (inFlight 0x28) = .next t ∧ t.cip.keyValid ≠ (inFlight 0x28).cip.keyValid := ⟨_, rfl, by decide⟩

/-- The host writes a KEY word; the platform resets. -/
theorem witness_KeyChanges_write :
    (∃ t, step (hostTurn (.write (windowAddr 0x09C) 4 0) keyed) = .next t ∧ t.cip.keyValid ≠ keyed.cip.keyValid)
      ∧ ∃ t, step { keyed with port := ⟨[.powerOn], [], 0, 0⟩ } = .next t ∧ t.cip.keyValid ≠ keyed.cip.keyValid :=
  ⟨⟨_, step_hostWrite 0x09C 0 keyed (by decide) (by decide), by decide +kernel⟩, ⟨_, rfl, by decide⟩⟩

theorem witness_CipherCommands :
    State.reset.cip.keyValid = false ∧ keyed.cip.keyValid = true ∧ Instr.rkGen ∈ [Instr.rkGen, .bcEnc, .bcDec]
      ∧ Instr.bcDec ∈ [Instr.rkGen, .bcEnc, .bcDec] := by decide

/-- Amounts that differ from the parameters' beyond round 15 only. -/
theorem witness_CipherLaws : ∀ r, r < 16 → (fun n : Nat => n) r = params.krotR r := fun r h => by
  show r = r % 128
  omega

theorem witness_CbcInverse : 0 < [zeroBlock, zeroBlock].length ∧ 1 < [zeroBlock, zeroBlock].length := by decide

/-- No key, an open transfer, and the lengths at the ends of the range. -/
theorem witness_IniteOpens :
    State.reset.cip.keyValid = false ∧ sender.cip.keyValid = true ∧ sender.str.sstate ≠ .idle
      ∧ (lengthState 0).str.len = 0 ∧ (lengthState 0).str.sstate = .idle ∧ (lengthState 0).cip.keyValid = true
      ∧ 65536 < ceilDiv (ceilDiv (lengthState (65536 * 4096 + 1)).str.len.toNat 32) 128
      ∧ (lengthState (65536 * 4096)).str.len ≠ 0
      ∧ ceilDiv (ceilDiv (lengthState (65536 * 4096)).str.len.toNat 32) 128 ≤ 65536 := by decide +kernel

theorem witness_IniteOpens_shortest :
    (lengthState 1).str.len ≠ 0 ∧ ceilDiv (ceilDiv (lengthState 1).str.len.toNat 32) 128 ≤ 65536 := by decide +kernel

theorem witness_InitdOpens :
    State.reset.cip.keyValid = false ∧ sender.cip.keyValid = true ∧ sender.str.sstate ≠ .idle
      ∧ (lengthState 0).str.len = 0 ∧ (lengthState 33).str.len.toNat % 32 ≠ 0
      ∧ 65536 < ceilDiv ((lengthState (65536 * 4096 + 32)).str.len.toNat / 32) 128
      ∧ (lengthState 32).str.len ≠ 0 ∧ (lengthState 32).str.len.toNat % 32 = 0
      ∧ ceilDiv ((lengthState (65536 * 4096)).str.len.toNat / 32) 128 ≤ 65536 := by decide +kernel

theorem witness_StreamStates :
    sender.str.sstate ≠ .idle ∧ sender.cip.keyValid = true ∧ (decoded1 false).str.sstate ∉ [SState.enc, .dec]
      ∧ sender.str.sstate ∉ [SState.encDone, .decDone] := by decide

theorem witness_StreamStates_open :
    (openTransfer .enc 1 1 5 32 keyed).str.sstate = .enc ∧ (openTransfer .dec 1 1 0 32 keyed).str.sstate = .dec
      ∧ (decoded1 false).str.sstate ∈ [SState.encDone, .decDone] := by decide

/-- Each transition. -/
theorem witness_StreamStates_moves :
    (∃ t, exec .stInite (lengthState 5) = .next t ∧ t.str.sstate ≠ (lengthState 5).str.sstate)
      ∧ (∃ t, exec .stInitd (lengthState 32) = .next t ∧ t.str.sstate ≠ (lengthState 32).str.sstate)
      ∧ (∃ t, exec .stFinish (decoded1 false) = .next t ∧ t.str.sstate ≠ (decoded1 false).str.sstate)
      ∧ ∃ t, exec .stCleanup sender = .next t ∧ t.str.sstate ≠ sender.str.sstate :=
  ⟨⟨_, rfl, by decide⟩, ⟨_, rfl, by decide⟩, ⟨_, rfl, by decide⟩, ⟨_, rfl, by decide⟩⟩

theorem exec_cluster_enc (s : State) (h : s.str.sstate = .enc) :
    exec .stCluster s = .next (complete (encryptCluster params s)) := by
  rw [exec_eq]
  simp [commandRule, clusterRule, h]

theorem witness_StreamStates_cluster :
    ∃ t, exec .stCluster sender = .next t ∧ t.str.sstate ≠ sender.str.sstate :=
  ⟨_, exec_cluster_enc sender rfl, by decide⟩

/-- An open transfer of `n` real blocks at cluster 0, sender or receiver. -/
def openState (st : SState) (n realLen : Nat) : State :=
  { keyed with str := { StreamRegs.reset with
      sstate := st, nblk := BitVec.ofNat 64 n, nclust := BitVec.ofNat 32 (ceilDiv n 128)
      lpad := BitVec.ofNat 64 (32 * n), total := BitVec.ofNat 64 (32 * n + 64), realLen := BitVec.ofNat 64 realLen } }

/-- One block; 128 blocks, whose only cluster is final and has 129; and 129 blocks, whose first cluster is not final. -/
theorem witness_ClusterEncrypts :
    ∀ n ∈ [1, 128, 129], (openState .enc n (32 * n)).str.sstate = .enc
      ∧ StreamConsistent (openState .enc n (32 * n)).str := by
  intro n hn
  simp at hn
  rcases hn with rfl | rfl | rfl <;>
    exact ⟨rfl, rfl, by decide, ⟨by decide, by decide, by decide, by decide, by decide, by decide⟩, by decide, by decide,
      by decide, by decide, by decide, by decide⟩

theorem witness_ClusterEncrypts_finality :
    finalCluster (openState .enc 128 4096).str = true ∧ clusterTotal (openState .enc 128 4096).str = 129
      ∧ finalCluster (openState .enc 129 4128).str = false := by decide

theorem witness_ClusterDecrypts :
    ∀ n ∈ [1, 128, 129], (openState .dec n 0).str.sstate = .dec ∧ StreamConsistent (openState .dec n 0).str := by
  intro n hn
  simp at hn
  rcases hn with rfl | rfl | rfl <;>
    exact ⟨rfl, rfl, by decide, ⟨by decide, by decide, by decide, by decide, by decide, by decide⟩, by decide, by decide,
      by decide, by decide, by decide, by decide⟩

/-- A sender's transfer after its final cluster. -/
def encoded1 : State :=
  { decoded1 false with str := { (decoded1 false).str with sstate := .encDone } }

theorem witness_FinishComputesTrailer :
    StreamConsistent encoded1.str ∧ encoded1.str.sstate = .encDone ∧ StreamConsistent (decoded1 true).str
      ∧ (decoded1 true).str.sstate = .decDone ∧ StreamConsistent State.reset.str
      ∧ State.reset.str.sstate ≠ .encDone ∧ State.reset.str.sstate ≠ .decDone :=
  ⟨⟨rfl, by decide, ⟨by decide, by decide, by decide, by decide, by decide, by decide⟩, by decide, by decide, by decide,
      by decide, by decide, by decide⟩, rfl,
    ⟨rfl, by decide, ⟨by decide, by decide, by decide, by decide, by decide, by decide⟩, by decide, by decide, by decide,
      by decide, by decide⟩, rfl,
    ⟨rfl, by decide, rfl, rfl, rfl, rfl, rfl, rfl, rfl, rfl, rfl, rfl, rfl, rfl, rfl, rfl⟩, by decide, by decide⟩

/-- A sender and a receiver with the same cluster hashes, the sender's trailer received. -/
theorem witness_FinishComputesTrailer_auth :
    ∃ e d e' : State, StreamConsistent e.str ∧ StreamConsistent d.str ∧ e.str.sstate = .encDone
      ∧ d.str.sstate = .decDone ∧ exec .stFinish e = .next e' ∧ d.str.hashes = e.str.hashes
      ∧ d.str.rxTrailer = e'.str.trailer ∧ d.str.padErr = false :=
  ⟨encoded1, { decoded1 false with str := { (decoded1 false).str with rxTrailer := trailerOf params encoded1 } }, _,
    witness_FinishComputesTrailer.1,
    ⟨rfl, by decide, ⟨by decide, by decide, by decide, by decide, by decide, by decide⟩, by decide, by decide, by decide,
      by decide, by decide⟩, rfl, rfl, rfl, rfl, rfl, rfl⟩

/-- A sender with a final cluster, its state after it, and a receiver that holds its output. -/
theorem witness_ClusterRoundTrip :
    ∃ e d e' : State, e.str.sstate = .enc ∧ d.str.sstate = .dec ∧ StreamConsistent e.str ∧ StreamConsistent d.str
      ∧ d.cip.key = e.cip.key ∧ d.str.cidx = e.str.cidx ∧ d.str.nblk = e.str.nblk ∧ d.str.cv = e.str.cv
      ∧ d.str.hashes = e.str.hashes ∧ exec .stCluster e = .next e'
      ∧ (∀ j, j < 32 * clusterTotal e.str → byteIn d j = byteIn e' j) ∧ finalCluster e.str = true :=
  ⟨openState .enc 1 32, { openState .dec 1 0 with cbuf := (encryptCluster params (openState .enc 1 32)).cbuf },
    complete (encryptCluster params (openState .enc 1 32)), rfl, rfl, (witness_ClusterEncrypts 1 (by decide)).2,
    (witness_ClusterDecrypts 1 (by decide)).2, rfl, rfl, rfl, rfl, rfl, exec_cluster_enc _ rfl, fun _ _ => rfl, by decide⟩

theorem witness_ResetSources :
    ({ inFlight 1 with port := ⟨[.powerOn], [], 0, 0⟩ } : State).port.turns = .powerOn :: []
      ∧ (∃ u, HostNext (.write (windowAddr 0x010) 4 0x100) (hostTurn (.write (windowAddr 0x010) 4 0x100) (inFlight 1)) u)
      ∧ (0x100 : Word).getLsbD 8 = true := ⟨rfl, ⟨_, [], rfl, rfl⟩, by decide⟩

theorem witness_ErrorClearAndDoneClear :
    (∀ w, ∃ u, HostNext (.write (windowAddr 0x010) 4 w) (hostTurn (.write (windowAddr 0x010) 4 w) failed) u)
      ∧ (∀ w, ∃ u, HostNext (.write (windowAddr 0x014) 4 w) (hostTurn (.write (windowAddr 0x014) 4 w) failed) u)
      ∧ (0x203 : Word).getLsbD 8 = false ∧ (0x203 : Word).getLsbD 9 = true ∧ (0x003 : Word).getLsbD 9 = false
      ∧ (0x002 : Word).getLsbD 1 = true ∧ (0xFFFFFFFD : Word).getLsbD 1 = false :=
  ⟨fun _ => ⟨_, [], rfl, rfl⟩, fun _ => ⟨_, [], rfl, rfl⟩, by decide, by decide, by decide, by decide, by decide⟩

/-- The first and the last offset of each clause. -/
theorem witness_RefusedAndIgnoredWrites :
    (∀ off s, ∃ u, HostNext (.write (windowAddr off) 4 7) (hostTurn (.write (windowAddr off) 4 7) s) u) ∧ failed.ctl.err = true
      ∧ (inFlight 1).ctl.busy = true ∧ DataOffset 0x40 ∧ DataOffset 0x201C ∧ KeyOffset 0x80 ∧ KeyOffset 0x9C
      ∧ sender.str.sstate ≠ .idle ∧ ¬DataOffset 0x000 ∧ ¬DataOffset 0x0C0 ∧ ¬DataOffset 0x3FFC ∧ 0x3FFC % 4 = 0 :=
  ⟨fun _ _ => ⟨_, [], rfl, rfl⟩, rfl, rfl, by unfold DataOffset; decide, by unfold DataOffset; decide,
    by unfold KeyOffset; decide, by unfold KeyOffset; decide, by decide, by unfold DataOffset; decide,
    by unfold DataOffset; decide, by unfold DataOffset; decide, by decide⟩

theorem witness_ReadsHaveNoEffect :
    (∀ off s, ∃ u, HostNext (.read (windowAddr off) 4) (hostTurn (.read (windowAddr off) 4) s) u) ∧ 0x3FFC % 4 = 0 ∧ 0x3FFC < 0x4000
      ∧ State.reset.ctl.busy = false ∧ (inFlight 1).ctl.busy = true ∧ StatusOffset 0x000 ∧ StatusOffset 0x024 :=
  ⟨fun _ _ => ⟨_, [], rfl, rfl⟩, by decide, by decide, rfl, rfl, by unfold StatusOffset; decide,
    by unfold StatusOffset; decide⟩

/-- A 16-bit access, one off its alignment, one below the window or past it, one of 64 bits. -/
theorem witness_BusErrors (b : Nat) :
    ¬((2 : Nat) = 4 ∧ b % 4 = 0 ∧ b ≤ b ∧ b < b + 0x4000)
      ∧ ¬((4 : Nat) = 4 ∧ (4 * b + 2) % 4 = 0 ∧ b ≤ 4 * b + 2 ∧ 4 * b + 2 < b + 0x4000)
      ∧ ¬((4 : Nat) = 4 ∧ (b + 0x4000) % 4 = 0 ∧ b ≤ b + 0x4000 ∧ b + 0x4000 < b + 0x4000)
      ∧ ¬((8 : Nat) = 4 ∧ b % 4 = 0 ∧ b ≤ b ∧ b < b + 0x4000)
      ∧ (∃ u, HostNext (.read (params.coreBase + 2) 4) (hostTurn (.read (params.coreBase + 2) 4) State.reset) u)
      ∧ ∃ u, HostNext (.write (params.coreBase + 0x4000) 4 0)
          (hostTurn (.write (params.coreBase + 0x4000) 4 0) State.reset) u :=
  ⟨by omega, by omega, by omega, by omega, ⟨_, [], rfl, rfl⟩, ⟨_, [], rfl, rfl⟩⟩

/-- No transfer open, and a KEY word; a transfer open, and other words. -/
theorem witness_WriteThenRead :
    (∀ off s, ∃ u, HostNext (.write (windowAddr off) 4 7) (hostTurn (.write (windowAddr off) 4 7) s) u)
      ∧ State.reset.ctl.busy = false ∧ State.reset.str.sstate = .idle ∧ DataOffset 0x80
      ∧ sender.ctl.busy = false ∧ sender.str.sstate ≠ .idle ∧ DataOffset 0x40 ∧ ¬KeyOffset 0x40 ∧ DataOffset 0x201C
      ∧ ¬KeyOffset 0x201C ∧ 0x3FFC % 4 = 0 ∧ 0x3FFC < 0x4000 ∧ 0x3FFC ≠ 0x40 ∧ 0x3FFC ≠ 0x014 :=
  ⟨fun _ _ => ⟨_, [], rfl, rfl⟩, rfl, rfl, by unfold DataOffset; decide, rfl, by decide, by unfold DataOffset; decide,
    by unfold KeyOffset; decide, by unfold DataOffset; decide, by unfold KeyOffset; decide, by decide, by decide,
    by decide, by decide⟩

theorem witness_KeyWordWrite :
    0 < 8 ∧ 7 < 8 ∧ (∀ j, ∃ u, HostNext (.write (windowAddr (0x080 + 4 * j)) 4 7) (hostTurn (.write (windowAddr (0x080 + 4 * j)) 4 7) keyed) u)
      ∧ keyed.ctl.busy = false ∧ keyed.str.sstate = .idle :=
  ⟨by decide, by decide, fun _ => ⟨_, [], rfl, rfl⟩, rfl, rfl⟩

theorem witness_CbufByteOrder :
    0 < 1032 ∧ 1031 < 1032 ∧ State.reset.ctl.busy = false
      ∧ (∀ k, ∃ u, HostNext (.write (windowAddr (0x1000 + 4 * k)) 4 7) (hostTurn (.write (windowAddr (0x1000 + 4 * k)) 4 7) State.reset) u)
      ∧ ∀ k, ∃ u, HostNext (.read (windowAddr (0x1000 + 4 * k)) 4) (hostTurn (.read (windowAddr (0x1000 + 4 * k)) 4) State.reset) u :=
  ⟨by decide, by decide, rfl, fun _ => ⟨_, [], rfl, rfl⟩, fun _ => ⟨_, [], rfl, rfl⟩⟩

/-- R902 for byte 53, whose inverse is ca: its S-box value ed. -/
theorem test_sbox_rule :
    fieldMul 0x53 0xCA = 1 ∧ affineMap 0xCA ^^^ 0x63 = 0xED ∧ affineMap 0x00 ^^^ 0x63 = 0x63 := by decide +kernel

theorem witness_RoundFunctionBits : 0 < 128 ∧ 127 < 128 ∧ 0 % 2 = 0 ∧ 15 < 16 ∧ 15 % 2 = 1 := by decide

theorem inFlight_ctl : CtlConsistent (inFlight 1).ctl := by
  unfold CtlConsistent
  decide

theorem inFlight_regs : RegsInRange (inFlight 1) := by
  intro i v h
  simp [inFlight, acceptWord, State.reset, BigRegs.reset] at h

/-- A state with the invariant, a command in flight in it, that takes a step. -/
theorem witness_StepKeepsInv : Inv (inFlight 1) ∧ ∃ t, step (inFlight 1) = .next t :=
  ⟨⟨inFlight_regs, inFlight_ctl,
    ⟨rfl, by decide, rfl, rfl, rfl, rfl, rfl, rfl, rfl, rfl, rfl, rfl, rfl, rfl, rfl, rfl⟩,
    fun h => absurd rfl h, Memory.wf_nil, fun _ _ => by simp [inFlight, acceptWord, State.reset, BigRegs.reset]⟩, ⟨_, rfl⟩⟩

end Sys2Proof.Tests
end

section
/-! PROOFS. What a command without an error does to the state, one constructor per form of effect; what each form leaves
alone; and the frame of every command (10_state.md R107, R120 to R136). -/

namespace Sys2Proof.Machine

/-- The commands whose rules touch nothing but the general registers. -/
def onlyGeneralRegs : Instr → Bool
  | .biMov _ _ | .biLdi _ _ | .biRel _ | .biLoad _ => true
  | .biAdd _ _ _ | .biSub _ _ _ | .biMul _ _ _ | .biDiv _ _ _ | .biMod _ _ _ => true
  | .biModpow _ _ _ _ | .biModinv _ _ _ => true
  | _ => false

/-- The changes these commands make: a copy (R410), a release (R414), or a result below the capacity written over consumed
sources (R402, R405). -/
inductive RegEffect (p : Params) (s : State) : State → Prop
  | copied (rd ra : RegName) : RegEffect p s (writeReg s rd (regValue s ra))
  | released (ra : RegName) : RegEffect p s (consume s ra)
  | written (rd : RegName) (v : Int) (srcs : List RegName) (hv : v.natAbs < capacityBound p) :
      RegEffect p s (writeReg (srcs.foldl consume s) rd v)

/-- The effect of each command that raises no error, before its completion. -/
inductive CommandEffect (p : Params) (s : State) : Instr → State → Prop
  | nop : CommandEffect p s .nop s
  | generalRegs {i : Instr} {u : State} (hi : onlyGeneralRegs i = true) (hu : RegEffect p s u) : CommandEffect p s i u
  | stored (ra : RegName) : CommandEffect p s (.biStore ra) { s with big := storeWindow p (regValue s ra) s.big }
  | compared (ra rb : RegName) :
      CommandEffect p s (.biCmp ra rb) (setCmpRes (cmpInts (regValue s ra) (regValue s rb)) s)
  | keyCommitted (hs : s.str.sstate = .idle) : CommandEffect p s .keyCommit { s with cip.keyValid := true }
  | keyDerived (ra : RegName) (hs : s.str.sstate = .idle) :
      CommandEffect p s (.keyDerive ra) (consume (establishKey (derivedKey p (regValue s ra)) s) ra)
  | roundKeyMade (k : Half) : CommandEffect p s .rkGen { s with cip.rkey := k }
  | blkSet {i : Instr} (hi : i ∈ [.bcEnc, .bcDec, .blkXor, .blkLadd]) (x : Block) : CommandEffect p s i (setBlk x s)
  | blkCompared : CommandEffect p s .blkCmp (setCmpRes (cmpBlocks s.cip.blk s.cip.blk2) s)
  | openedEnc (hk : s.cip.keyValid = true) (hl : s.str.len.toNat ≠ 0)
      (hc : ceilDiv (ceilDiv s.str.len.toNat 32) Config.clusterBlocks ≤ p.hashlistMax) :
      CommandEffect p s .stInite (openTransfer .enc (ceilDiv s.str.len.toNat 32)
        (ceilDiv (ceilDiv s.str.len.toNat 32) Config.clusterBlocks) s.str.len.toNat
        (32 * ceilDiv s.str.len.toNat 32) s)
  | openedDec (hk : s.cip.keyValid = true) (hl : s.str.len.toNat ≠ 0) (h32 : s.str.len.toNat % 32 = 0)
      (hc : ceilDiv (s.str.len.toNat / 32) Config.clusterBlocks ≤ p.hashlistMax) :
      CommandEffect p s .stInitd (openTransfer .dec (s.str.len.toNat / 32)
        (ceilDiv (s.str.len.toNat / 32) Config.clusterBlocks) 0 s.str.len.toNat s)
  | encrypted (hs : s.str.sstate = .enc) : CommandEffect p s .stCluster (encryptCluster p s)
  | decrypted (hs : s.str.sstate = .dec) : CommandEffect p s .stCluster (decryptCluster p s)
  | finishedEnc (hs : s.str.sstate = .encDone) :
      CommandEffect p s .stFinish { s with str.trailer := trailerOf p s, str.sstate := .finished }
  | finishedDec (hs : s.str.sstate = .decDone) :
      CommandEffect p s .stFinish { s with
        str.trailer := trailerOf p s
        str.authOk := decide (trailerOf p s = s.str.rxTrailer) && !s.str.padErr
        str.authValid := true
        str.sstate := .finished }
  | cleaned : CommandEffect p s .stCleanup (closeTransfer s)

/- Each rule without an error has one of these effects. -/

theorem commit_regEffect {p : Params} {s u : State} {rd : RegName} {v : Int} {srcs : List RegName}
    (h : commit p s rd v srcs = .ok u) : RegEffect p s u := by
  obtain ⟨hv, rfl⟩ := commit_ok h
  exact .written rd v srcs hv

/-- An arithmetic command: the preamble, then the destination write. -/
theorem withOperands_commit_regEffect {p : Params} {s u : State} {dst : Option RegName} {ops : List RegName} {cons : Bool}
    {rd : RegName} {v : Int} {srcs : List RegName}
    (h : withOperands s dst ops cons (commit p s rd v srcs) = .ok u) : RegEffect p s u :=
  commit_regEffect (withOperands_ok.mp h).2

/-- An arithmetic command whose unit can raise an error of its own. -/
theorem withOperands_commitValue_regEffect {p : Params} {s u : State} {dst : Option RegName} {ops : List RegName}
    {cons : Bool} {rd : RegName} {v : Except ErrCode Int} {srcs : List RegName}
    (h : withOperands s dst ops cons (commitValue p s rd v srcs) = .ok u) : RegEffect p s u := by
  obtain ⟨x, -, hx⟩ := commitValue_ok (withOperands_ok.mp h).2
  exact commit_regEffect hx

theorem movRule_regEffect {p : Params} {s u : State} {rd ra : RegName} (h : movRule rd ra s = .ok u) :
    RegEffect p s u := by
  obtain ⟨-, hu⟩ := withOperands_ok.mp h
  obtain rfl := Except.ok.inj hu
  exact .copied rd ra

theorem loadRule_regEffect {p : Params} {s u : State} {rd : RegName} (h : loadRule p rd s = .ok u) :
    RegEffect p s u := by
  obtain ⟨-, hu⟩ := withOperands_ok.mp h
  split at hu
  · cases hu
  · exact commit_regEffect hu

theorem keyCommitRule_effect {p : Params} {s u : State} (h : keyCommitRule s = .ok u) :
    CommandEffect p s .keyCommit u := by
  unfold keyCommitRule at h
  split at h
  · cases h
  · next hs =>
    obtain rfl := Except.ok.inj h
    exact .keyCommitted (by simpa using hs)

theorem keyDeriveRule_effect {p : Params} {s u : State} {ra : RegName} (h : keyDeriveRule p ra s = .ok u) :
    CommandEffect p s (.keyDerive ra) u := by
  obtain ⟨-, hu⟩ := withOperands_ok.mp h
  split at hu
  · cases hu
  · next hs =>
    split at hu
    · obtain rfl := Except.ok.inj hu
      exact .keyDerived ra (by simpa using hs)
    · cases hu

theorem initeRule_effect {p : Params} {s u : State} (h : initeRule p s = .ok u) : CommandEffect p s .stInite u := by
  unfold initeRule at h
  dsimp only at h
  split_ifs at h with hk hs hl hc
  obtain rfl := Except.ok.inj h
  exact .openedEnc (by simpa using hk) hl (Nat.le_of_not_lt hc)

theorem initdRule_effect {p : Params} {s u : State} (h : initdRule p s = .ok u) : CommandEffect p s .stInitd u := by
  unfold initdRule at h
  dsimp only at h
  split_ifs at h with hk hs hl hc
  obtain rfl := Except.ok.inj h
  obtain ⟨h0, h32⟩ := not_or.mp hl
  exact .openedDec (by simpa using hk) h0 (not_not.mp h32) (Nat.le_of_not_lt hc)

theorem clusterRule_effect {p : Params} {s u : State} (h : clusterRule p s = .ok u) :
    CommandEffect p s .stCluster u := by
  unfold clusterRule at h
  split at h
  · next hs => exact Except.ok.inj h ▸ .encrypted hs
  · next hs => exact Except.ok.inj h ▸ .decrypted hs
  all_goals cases h

theorem finishRule_effect {p : Params} {s u : State} (h : finishRule p s = .ok u) : CommandEffect p s .stFinish u := by
  unfold finishRule at h
  split at h
  · next hs => exact Except.ok.inj h ▸ .finishedEnc hs
  · next hs => exact Except.ok.inj h ▸ .finishedDec hs
  all_goals cases h

/-- What a command that raises no error does, said once for all 27 (30_encoding.md R306). -/
theorem commandRule_effect {p : Params} {i : Instr} {s u : State} (h : commandRule p i s = .ok u) :
    CommandEffect p s i u := by
  cases i with
  | nop => exact Except.ok.inj h ▸ .nop
  | biMov rd ra => exact .generalRegs rfl (movRule_regEffect h)
  | biLdi rd imm => exact .generalRegs rfl (withOperands_commit_regEffect h)
  | biRel ra => exact .generalRegs rfl (relRule_ok h ▸ .released ra)
  | biLoad rd => exact .generalRegs rfl (loadRule_regEffect h)
  | biStore ra => exact Except.ok.inj (withOperands_ok.mp h).2 ▸ .stored ra
  | biCmp ra rb => exact Except.ok.inj (withOperands_ok.mp h).2 ▸ .compared ra rb
  | biAdd rd ra rb => exact .generalRegs rfl (withOperands_commit_regEffect h)
  | biSub rd ra rb => exact .generalRegs rfl (withOperands_commit_regEffect h)
  | biMul rd ra rb => exact .generalRegs rfl (withOperands_commit_regEffect h)
  | biDiv rd ra rb => exact .generalRegs rfl (withOperands_commitValue_regEffect h)
  | biMod rd ra rb => exact .generalRegs rfl (withOperands_commitValue_regEffect h)
  | biModpow rd ra rb rc => exact .generalRegs rfl (withOperands_commitValue_regEffect h)
  | biModinv rd ra rb => exact .generalRegs rfl (withOperands_commitValue_regEffect h)
  | keyCommit => exact keyCommitRule_effect h
  | keyDerive ra => exact keyDeriveRule_effect h
  | rkGen => exact Except.ok.inj (withKey_ok h).2 ▸ .roundKeyMade _
  | bcEnc => exact Except.ok.inj (withKey_ok h).2 ▸ .blkSet (by simp) _
  | bcDec => exact Except.ok.inj (withKey_ok h).2 ▸ .blkSet (by simp) _
  | blkXor => exact Except.ok.inj h ▸ .blkSet (by simp) _
  | blkLadd => exact Except.ok.inj h ▸ .blkSet (by simp) _
  | blkCmp => exact Except.ok.inj h ▸ .blkCompared
  | stInite => exact initeRule_effect h
  | stInitd => exact initdRule_effect h
  | stCluster => exact clusterRule_effect h
  | stFinish => exact finishRule_effect h
  | stCleanup => exact Except.ok.inj h ▸ .cleaned

/- The frame of each form of effect. -/

theorem writeReg_frame (s : State) (r : RegName) (v : Int) : ∃ g, writeReg s r v = { s with big.gpr := g } := by
  cases r with
  | general i => exact ⟨_, rfl⟩
  | const c => exact ⟨s.big.gpr, rfl⟩
  | reserved n => exact ⟨s.big.gpr, rfl⟩

/-- These commands leave everything but the general registers (R403). -/
theorem RegEffect.frame {p : Params} {s u : State} (h : RegEffect p s u) : ∃ g, u = { s with big.gpr := g } := by
  cases h with
  | copied rd ra => exact writeReg_frame s rd _
  | released ra => exact ⟨_, foldl_consume [ra] s⟩
  | written rd v srcs hv =>
    obtain ⟨g, hg⟩ := writeReg_frame (srcs.foldl consume s) rd v
    exact ⟨g, by rw [hg, foldl_consume]⟩

/-- A command that works on the general registers names them in register fields (R306). -/
theorem operandShape_ne_none {i : Instr} (h : onlyGeneralRegs i = true) : operandShape i ≠ none := by
  cases i <;> simp_all [onlyGeneralRegs, operandShape]

/-- The conclusions of `Obligations.CommandFrame` on the state `u` that a command's effect, or its error, makes of `s`. -/
structure Frame (i : Instr) (s u : State) : Prop where
  port : u.port = s.port
  ieDone : u.ctl.ieDone = s.ctl.ieDone
  ieErr : u.ctl.ieErr = s.ctl.ieErr
  ovr : u.ctl.ovr = s.ctl.ovr
  lastCmd : u.ctl.lastCmd = s.ctl.lastCmd
  cmpRes : (∀ ra rb, i ≠ .biCmp ra rb) → i ≠ .blkCmp → u.ctl.cmpRes = s.ctl.cmpRes
  gpr : operandShape i = none → u.big.gpr = s.big.gpr
  window : (∀ ra, i ≠ .biStore ra) →
    u.big.winSign = s.big.winSign ∧ u.big.winLen = s.big.winLen ∧ u.big.winDig = s.big.winDig
  key : i ≠ .keyCommit → (∀ ra, i ≠ .keyDerive ra) → u.cip.key = s.cip.key ∧ u.cip.keyValid = s.cip.keyValid
  blk : i ∉ [.bcEnc, .bcDec, .blkXor, .blkLadd] → u.cip.blk = s.cip.blk
  rkey : i ≠ .rkGen → u.cip.rkey = s.cip.rkey
  blk2 : u.cip.blk2 = s.cip.blk2
  idxCluster : u.cip.idxCluster = s.cip.idxCluster
  idxBlock : u.cip.idxBlock = s.cip.idxBlock
  idxRound : u.cip.idxRound = s.cip.idxRound
  str : i ∉ [.stInite, .stInitd, .stCluster, .stFinish, .stCleanup] → u.str = s.str
  iv : u.str.iv = s.str.iv
  rxTrailer : u.str.rxTrailer = s.str.rxTrailer
  len : u.str.len = s.str.len
  cbuf : i ≠ .stCluster → u.cbuf = s.cbuf

/-- A command without an effect leaves everything. -/
theorem Frame.refl (i : Instr) (s : State) : Frame i s s where
  port := rfl
  ieDone := rfl
  ieErr := rfl
  ovr := rfl
  lastCmd := rfl
  cmpRes _ _ := rfl
  gpr _ := rfl
  window _ := ⟨rfl, rfl, rfl⟩
  key _ _ := ⟨rfl, rfl⟩
  blk _ := rfl
  rkey _ := rfl
  blk2 := rfl
  idxCluster := rfl
  idxBlock := rfl
  idxRound := rfl
  str _ := rfl
  iv := rfl
  rxTrailer := rfl
  len := rfl
  cbuf _ := rfl

/-- The frame of every effect: each case names the parts its command does change. -/
theorem CommandEffect.frame {p : Params} {s u : State} {i : Instr} (h : CommandEffect p s i u) : Frame i s u := by
  cases h with
  | nop => exact .refl _ s
  | generalRegs hi hu =>
    obtain ⟨g, rfl⟩ := hu.frame
    exact { Frame.refl i s with gpr := fun hn => absurd hn (operandShape_ne_none hi) }
  | stored ra => exact { Frame.refl _ s with window := fun hn => absurd rfl (hn ra) }
  | compared ra rb => exact { Frame.refl _ s with cmpRes := fun hn _ => absurd rfl (hn ra rb) }
  | keyCommitted hs => exact { Frame.refl _ s with key := fun hn _ => absurd rfl hn }
  | keyDerived ra hs =>
    rw [show consume _ ra = _ from foldl_consume [ra] (establishKey _ s)]
    exact { Frame.refl _ s with gpr := fun hn => (nomatch hn), key := fun _ hn => absurd rfl (hn ra) }
  | roundKeyMade k => exact { Frame.refl _ s with rkey := fun hn => absurd rfl hn }
  | blkSet hi x => exact { Frame.refl i s with blk := fun hn => absurd hi hn }
  | blkCompared => exact { Frame.refl _ s with cmpRes := fun _ hn => absurd rfl hn }
  | openedEnc hk hl hc => exact { Frame.refl _ s with str := fun hn => absurd (by simp) hn }
  | openedDec hk hl h32 hc => exact { Frame.refl _ s with str := fun hn => absurd (by simp) hn }
  | encrypted hs =>
    exact { Frame.refl _ s with str := fun hn => absurd (by simp) hn, cbuf := fun hn => absurd rfl hn }
  | decrypted hs =>
    exact { Frame.refl _ s with str := fun hn => absurd (by simp) hn, cbuf := fun hn => absurd rfl hn }
  | finishedEnc hs => exact { Frame.refl _ s with str := fun hn => absurd (by simp) hn }
  | finishedDec hs => exact { Frame.refl _ s with str := fun hn => absurd (by simp) hn }
  | cleaned => exact { Frame.refl _ s with str := fun hn => absurd (by simp) hn }

/-- The frame of every command, whether it completes or takes an error (R1101, R1202). -/
theorem exec_frame {i : Instr} {s t : State} (h : exec i s = .next t) : Frame i s t := by
  rcases exec_cases h with ⟨u, hu, rfl⟩ | ⟨c, -, rfl⟩
  · exact { (commandRule_effect hu).frame with }
  · exact { Frame.refl i s with }

/-- Settles O10: `exec_frame`, conclusion by conclusion. -/
theorem commandFrame : Obligations.CommandFrame := by
  intro i s t h
  have f := exec_frame h
  exact ⟨f.port, f.ieDone, f.ieErr, f.ovr, f.lastCmd, f.cmpRes, f.gpr, f.window, f.key, f.blk, f.rkey, f.blk2,
    f.idxCluster, f.idxBlock, f.idxRound, f.str, f.iv, f.rxTrailer, f.len, f.cbuf⟩

end Sys2Proof.Machine
end

section
/-! PROOFS. The invariant of the machine: every command's effect, every end of a command, every host access and every reset
keeps it (10_state.md R102, R130, R133; 46_stream.md R1001; 47_system.md R1101, R1105; 60_exceptions.md R1202). -/

namespace Sys2Proof.Machine

/- The general registers stay in range (R102, R405). -/

/-- The constant registers are far below the capacity (R101). -/
theorem constValue_lt_capacity (c : ConstReg) : (constValue c).natAbs < capacityBound params := by
  have hcap : 2 ^ 31 < capacityBound params :=
    (by decide : 2 ^ 31 < Config.radix).trans_le (Nat.le_self_pow (by decide) Config.radix)
  have hc : (constValue c).natAbs ≤ 2 ^ 31 := by cases c <;> decide
  omega

theorem regValue_lt_capacity {s : State} (hs : RegsInRange s) (r : RegName) :
    (regValue s r).natAbs < capacityBound params := by
  have hpos : 0 < capacityBound params := (Nat.zero_le _).trans_lt (constValue_lt_capacity .k0)
  cases r with
  | general i =>
    cases hv : s.big.gpr[i.val] with
    | none => simpa [regValue, readReg, hv] using hpos
    | some v => simpa [regValue, readReg, hv] using hs i v hv
  | const c => exact constValue_lt_capacity c
  | reserved n => simpa [regValue, readReg] using hpos

theorem writeReg_inRange {s : State} (hs : RegsInRange s) (r : RegName) {v : Int}
    (hv : v.natAbs < capacityBound params) : RegsInRange (writeReg s r v) := by
  cases r with
  | general i =>
    intro j w hw
    rw [writeReg, writeGpr_big_gpr, Vector.getElem_set] at hw
    split at hw
    · exact Option.some.inj hw ▸ hv
    · exact hs j w hw
  | const c => exact hs
  | reserved n => exact hs

theorem foldl_consume_inRange {s : State} (hs : RegsInRange s) (srcs : List RegName) :
    RegsInRange (srcs.foldl consume s) := by
  intro j w hw
  rw [foldl_consume] at hw
  simp only [consumedRegs, Vector.getElem_ofFn] at hw
  split at hw
  · cases hw
  · exact hs j w hw

theorem RegEffect.regs {s u : State} (h : RegEffect params s u) (hs : RegsInRange s) : RegsInRange u := by
  cases h with
  | copied rd ra => exact writeReg_inRange hs rd (regValue_lt_capacity hs ra)
  | released ra => exact foldl_consume_inRange hs [ra]
  | written rd v srcs hv => exact writeReg_inRange (foldl_consume_inRange hs srcs) rd hv

theorem CommandEffect.regs {s u : State} {i : Instr} (h : CommandEffect params s i u) (hs : RegsInRange s) :
    RegsInRange u := by
  cases h with
  | generalRegs hi hu => exact hu.regs hs
  | keyDerived ra hi => exact foldl_consume_inRange (s := establishKey _ s) hs [ra]
  | _ => exact hs

/- Control and error state (R1100, R1101, R1202). -/

/-- Of the control registers, an effect can change only CMPRES (R135). -/
theorem CommandEffect.ctl_eq {p : Params} {s u : State} {i : Instr} (h : CommandEffect p s i u) :
    u.ctl = { s.ctl with cmpRes := u.ctl.cmpRes } := by
  cases h with
  | generalRegs hi hu =>
    obtain ⟨g, rfl⟩ := hu.frame
    rfl
  | keyDerived ra hs => rw [consume_ctl]; rfl
  | _ => rfl

theorem CommandEffect.busy {p : Params} {s u : State} {i : Instr} (h : CommandEffect p s i u) :
    u.ctl.busy = s.ctl.busy := by
  rw [h.ctl_eq]

theorem CommandEffect.ctl {p : Params} {s u : State} {i : Instr} (h : CommandEffect p s i u)
    (hs : CtlConsistent s.ctl) : CtlConsistent u.ctl := by
  rw [h.ctl_eq]
  exact hs

/- The streaming state (R130, R1000, R1001). -/

theorem openTransfer_geometry {s : State} {q : SState} {n k realLen : Nat} (hn : 1 ≤ n) (hk : k = ceilDiv n 128)
    (hc : k ≤ params.hashlistMax) : TransferGeometry (openTransfer q n k realLen (32 * n) s).str := by
  have hn23 : n ≤ 2 ^ 23 := by simp only [ceilDiv, params] at hk hc; omega
  have hk16 : k ≤ 65536 := hc
  have hnblk : (BitVec.ofNat 64 n).toNat = n := Nat.mod_eq_of_lt (by omega)
  have hnclust : (BitVec.ofNat 32 k).toNat = k := Nat.mod_eq_of_lt (by omega)
  have hlpad : (BitVec.ofNat 64 (32 * n)).toNat = 32 * n := Nat.mod_eq_of_lt (by omega)
  have htotal : (BitVec.ofNat 64 (32 * n + 64)).toNat = 32 * n + 64 := Nat.mod_eq_of_lt (by omega)
  simpa [TransferGeometry, openTransfer, hnblk, hnclust, hlpad, htotal] using ⟨hn, hk, hc⟩

/-- An opened transfer has at least one cluster to go (R1010, R1011). -/
theorem openTransfer_cidx_lt {s : State} {q : SState} {n k realLen : Nat} (hn : 1 ≤ n) (hk : k = ceilDiv n 128)
    (hc : k ≤ params.hashlistMax) :
    (openTransfer q n k realLen (32 * n) s).str.cidx.toNat < (openTransfer q n k realLen (32 * n) s).str.nclust.toNat := by
  have hk16 : k ≤ 65536 := hc
  have hnclust : (BitVec.ofNat 32 k).toNat = k := Nat.mod_eq_of_lt (by omega)
  simp only [openTransfer, hnclust]
  simp only [ceilDiv] at hk
  show 0 < k
  omega

theorem openedEnc_consistent {s : State} (hl : s.str.len.toNat ≠ 0)
    (hc : ceilDiv (ceilDiv s.str.len.toNat 32) Config.clusterBlocks ≤ params.hashlistMax) :
    StreamConsistent (openTransfer .enc (ceilDiv s.str.len.toNat 32)
      (ceilDiv (ceilDiv s.str.len.toNat 32) Config.clusterBlocks) s.str.len.toNat
      (32 * ceilDiv s.str.len.toNat 32) s).str := by
  have hn : 1 ≤ ceilDiv s.str.len.toNat 32 := by simp only [ceilDiv]; omega
  have hg := openTransfer_geometry (s := s) (q := .enc) (realLen := s.str.len.toNat) hn rfl hc
  have hreal : ceilDiv (BitVec.ofNat 64 s.str.len.toNat).toNat 32
      = (BitVec.ofNat 64 (ceilDiv s.str.len.toNat 32)).toNat := by
    rw [BitVec.ofNat_toNat, BitVec.setWidth_eq, BitVec.toNat_ofNat]
    simp only [ceilDiv]
    omega
  exact ⟨rfl, fun h => (nomatch h), hg, openTransfer_cidx_lt hn rfl hc, rfl, hreal, rfl, rfl, rfl⟩

theorem openedDec_consistent {s : State} (hl : s.str.len.toNat ≠ 0) (h32 : s.str.len.toNat % 32 = 0)
    (hc : ceilDiv (s.str.len.toNat / 32) Config.clusterBlocks ≤ params.hashlistMax) :
    StreamConsistent (openTransfer .dec (s.str.len.toNat / 32)
      (ceilDiv (s.str.len.toNat / 32) Config.clusterBlocks) 0 s.str.len.toNat s).str := by
  have hn : 1 ≤ s.str.len.toNat / 32 := by omega
  have hlen : s.str.len.toNat = 32 * (s.str.len.toNat / 32) := by omega
  have hg := openTransfer_geometry (s := s) (q := .dec) (realLen := 0) hn rfl hc
  have hlt := openTransfer_cidx_lt (s := s) (q := .dec) (realLen := 0) hn rfl hc
  rw [← hlen] at hg hlt
  exact ⟨rfl, fun h => (nomatch h), hg, hlt, rfl, rfl, rfl, rfl, rfl⟩

/-- What both directions of ST.CLUSTER do to the counters and to the hash list: cluster `hash` done, the next one up, the
geometry kept (R1012, R1013). -/
structure ClusterAdvance (t t' : StreamRegs) : Prop where
  nblk : t'.nblk = t.nblk
  nclust : t'.nclust = t.nclust
  lpad : t'.lpad = t.lpad
  total : t'.total = t.total
  cidx : t'.cidx = t.cidx + 1
  off : t'.off = t.off + BitVec.ofNat 64 (32 * clusterReal t)
  hcount : t'.hcount = t.hcount + 1
  hashes : ∃ x, t'.hashes = t.hashes ++ [x]
  authOk : t'.authOk = t.authOk
  authValid : t'.authValid = t.authValid

theorem encryptCluster_advance (p : Params) (s : State) : ClusterAdvance s.str (encryptCluster p s).str :=
  ⟨rfl, rfl, rfl, rfl, rfl, rfl, rfl, ⟨_, rfl⟩, rfl, rfl⟩

theorem decryptCluster_advance (p : Params) (s : State) : ClusterAdvance s.str (decryptCluster p s).str :=
  ⟨rfl, rfl, rfl, rfl, rfl, rfl, rfl, ⟨_, rfl⟩, rfl, rfl⟩

section Advance

variable {t t' : StreamRegs} (ha : ClusterAdvance t t') (hg : TransferGeometry t) (hlt : t.cidx.toNat < t.nclust.toNat)
include ha hlt

theorem ClusterAdvance.cidx_toNat : t'.cidx.toNat = t.cidx.toNat + 1 := by
  rw [ha.cidx]
  bv_omega

include hg

theorem ClusterAdvance.geometry : TransferGeometry t' := by
  obtain ⟨hn, hk, hmax, hlpad, htotal, hlen⟩ := hg
  obtain ⟨x, hx⟩ := ha.hashes
  have hlen' : t'.hashes.length = t'.cidx.toNat := by rw [hx, ha.cidx_toNat hlt]; simp [hlen]
  refine ⟨?_, ?_, ?_, ?_, ?_, hlen'⟩ <;> simpa only [ha.nblk, ha.nclust, ha.lpad, ha.total]

theorem ClusterAdvance.hcount_toNat (hh : t.hcount.toNat = t.hashes.length) :
    t'.hcount.toNat = t'.hashes.length := by
  obtain ⟨x, hx⟩ := ha.hashes
  obtain ⟨-, -, -, -, -, hlen⟩ := hg
  rw [ha.hcount, hx, List.length_append, List.length_singleton]
  bv_omega

/-- After the final cluster every cluster is done and the offset is the padded length (R1012, R1013). -/
theorem ClusterAdvance.final (hoff : t.off.toNat = 4096 * t.cidx.toNat) (hf : finalCluster t = true) :
    t'.cidx = t'.nclust ∧ t'.off.toNat = 32 * t'.nblk.toNat := by
  obtain ⟨-, hreal, hn, -, hlast, hall, -⟩ := geometry_next hg hlt
  refine ⟨BitVec.eq_of_toNat_eq ?_, ?_⟩
  · rw [ha.cidx_toNat hlt, ha.nclust]
    exact hlast.mp hf
  · have := hall hf
    rw [ha.off, ha.nblk, BitVec.toNat_add, BitVec.toNat_ofNat]
    omega

/-- After any other cluster there is one more to go, and the offset is that cluster's (R1012, R1013). -/
theorem ClusterAdvance.notFinal (hoff : t.off.toNat = 4096 * t.cidx.toNat) (hf : finalCluster t = false) :
    t'.cidx.toNat < t'.nclust.toNat ∧ t'.off.toNat = 4096 * t'.cidx.toNat := by
  obtain ⟨-, hreal, hn, hle, hlast, -, hfull⟩ := geometry_next hg hlt
  have hnot : ¬ t.cidx.toNat + 1 = t.nclust.toNat := fun h => by rw [hlast.mpr h] at hf; cases hf
  rw [ha.cidx_toNat hlt, ha.nclust]
  refine ⟨by omega, ?_⟩
  have := hfull hf
  rw [ha.off, BitVec.toNat_add, BitVec.toNat_ofNat]
  omega

end Advance

theorem encryptCluster_consistent {p : Params} {s : State} (he : s.str.sstate = .enc) (h : StreamConsistent s.str) :
    StreamConsistent (encryptCluster p s).str := by
  simp only [StreamConsistent, he] at h
  obtain ⟨hh, -, hg, hlt, hoff, hreal, hok, hvalid, hpad⟩ := h
  have ha := encryptCluster_advance p s
  have hok' : (encryptCluster p s).str.authOk = false := hok
  refine ⟨ha.hcount_toNat hg hlt hh, by simp only [hok', Bool.false_eq_true, false_implies], ?_⟩
  cases hf : finalCluster s.str with
  | true =>
    have hst : (encryptCluster p s).str.sstate = .encDone := if_pos hf
    obtain ⟨hc, ho⟩ := ha.final hg hlt hoff hf
    rw [hst]
    exact ⟨ha.geometry hg hlt, hc, ho, hreal, hok, hvalid, hpad⟩
  | false =>
    have hst : (encryptCluster p s).str.sstate = .enc := (if_neg (by simp [isFinal_eq, hf])).trans he
    obtain ⟨hc, ho⟩ := ha.notFinal hg hlt hoff hf
    rw [hst]
    exact ⟨ha.geometry hg hlt, hc, ho, hreal, hok, hvalid, hpad⟩

theorem lastBytes_bounds (raw : Byte) : 1 ≤ lastBytes raw ∧ lastBytes raw ≤ 32 := by
  unfold lastBytes
  split <;> omega

/-- The length recovered on the final cluster fills the last real block in part or whole (R1009). -/
theorem ceilDiv_realLen {n : Nat} (hn : 1 ≤ n) (hn23 : n ≤ 2 ^ 23) (raw : Byte) :
    ceilDiv (BitVec.ofNat 64 (32 * (n - 1) + lastBytes raw)).toNat 32 = n := by
  have := lastBytes_bounds raw
  rw [BitVec.toNat_ofNat]
  simp only [ceilDiv]
  omega

theorem decryptCluster_consistent {p : Params} {s : State} (hd : s.str.sstate = .dec) (h : StreamConsistent s.str) :
    StreamConsistent (decryptCluster p s).str := by
  simp only [StreamConsistent, hd] at h
  obtain ⟨hh, -, hg, hlt, hoff, hreal, hok, hvalid, hpad⟩ := h
  have ha := decryptCluster_advance p s
  have hok' : (decryptCluster p s).str.authOk = false := hok
  refine ⟨ha.hcount_toNat hg hlt hh, by simp only [hok', Bool.false_eq_true, false_implies], ?_⟩
  cases hf : finalCluster s.str with
  | true =>
    have hst : (decryptCluster p s).str.sstate = .decDone := if_pos hf
    have hlen : (decryptCluster p s).str.realLen
        = BitVec.ofNat 64 (32 * (s.str.nblk.toNat - 1) + lastBytes (rawCount p s)) := if_pos hf
    obtain ⟨-, -, hn23, -⟩ := geometry_next hg hlt
    obtain ⟨hc, ho⟩ := ha.final hg hlt hoff hf
    rw [hst]
    refine ⟨ha.geometry hg hlt, hc, ho, ?_, hok, hvalid⟩
    rw [hlen]
    exact ceilDiv_realLen hg.1 hn23 _
  | false =>
    have hnf : ¬isFinal s = true := by simp [isFinal_eq, hf]
    have hst : (decryptCluster p s).str.sstate = .dec := (if_neg hnf).trans hd
    have hlen : (decryptCluster p s).str.realLen = 0 := (if_neg hnf).trans hreal
    have hpe : (decryptCluster p s).str.padErr = false := (if_neg fun h => hnf h.1).trans hpad
    obtain ⟨hc, ho⟩ := ha.notFinal hg hlt hoff hf
    rw [hst]
    exact ⟨ha.geometry hg hlt, hc, ho, hlen, hok, hvalid, hpe⟩

theorem finishedEnc_consistent {t : StreamRegs} (he : t.sstate = .encDone) (h : StreamConsistent t) (x : Block) :
    StreamConsistent { t with trailer := x, sstate := .finished } := by
  simp only [StreamConsistent, he] at h
  obtain ⟨hh, hauth, hg, hc, ho, hreal, -⟩ := h
  exact ⟨hh, hauth, hg, hc, ho, hreal⟩

/-- AUTH_OK is set only beside AUTH_VALID, and only without PADERR, whatever the comparison `same` says (R1014). -/
theorem finishedDec_consistent {t : StreamRegs} (hd : t.sstate = .decDone) (h : StreamConsistent t) (x : Block)
    (same : Bool) :
    StreamConsistent { t with trailer := x, authOk := same && !t.padErr, authValid := true, sstate := .finished } := by
  simp only [StreamConsistent, hd] at h
  obtain ⟨hh, -, hg, hc, ho, hreal, -⟩ := h
  exact ⟨hh, fun hok => ⟨rfl, by simpa using (Bool.and_eq_true_iff.mp hok).2⟩, hg, hc, ho, hreal⟩

/-- A closed transfer, with AUTH_OK only where it was (R1015). -/
theorem closeTransfer_consistent {s : State} (h : StreamConsistent s.str) :
    StreamConsistent (closeTransfer s).str := by
  obtain ⟨-, hauth, -⟩ := h
  exact ⟨rfl, hauth, rfl, rfl, rfl, rfl, rfl, rfl, rfl, rfl, rfl, rfl, rfl, rfl, rfl, rfl⟩

theorem CommandEffect.stream {s u : State} {i : Instr} (h : CommandEffect params s i u)
    (hs : StreamConsistent s.str) : StreamConsistent u.str := by
  cases h with
  | generalRegs hi hu =>
    obtain ⟨g, rfl⟩ := hu.frame
    exact hs
  | keyDerived ra hi => simpa using hs
  | openedEnc hk hl hc => exact openedEnc_consistent hl hc
  | openedDec hk hl h32 hc => exact openedDec_consistent hl h32 hc
  | encrypted he => exact encryptCluster_consistent he hs
  | decrypted hd => exact decryptCluster_consistent hd hs
  | finishedEnc he => exact finishedEnc_consistent he hs _
  | finishedDec hd => exact finishedDec_consistent hd hs _ _
  | cleaned => exact closeTransfer_consistent hs
  | _ => exact hs

/-- A key is held: the opening commands check it, KEY.COMMIT and KEY.DERIVE establish it, no command clears it (R800). -/
theorem CommandEffect.key {p : Params} {s u : State} {i : Instr} (h : CommandEffect p s i u) (hs : KeyHeld s) :
    KeyHeld u := by
  cases h with
  | generalRegs hi hu =>
    obtain ⟨g, rfl⟩ := hu.frame
    exact hs
  | keyCommitted hi => exact fun _ => rfl
  | keyDerived ra hi => exact fun _ => by rw [consume_cip]; rfl
  | openedEnc hk hl hc => exact fun _ => hk
  | openedDec hk hl h32 hc => exact fun _ => hk
  | encrypted he => exact fun _ => hs (by simp [he])
  | decrypted hd => exact fun _ => hs (by simp [hd])
  | finishedEnc he => exact fun _ => hs (by simp [he])
  | finishedDec hd => exact fun _ => hs (by simp [hd])
  | cleaned => exact fun hn => absurd rfl hn
  | _ => exact hs

/- CBUF keeps its canonical form (R134, R207). -/

theorem writeBlocks_wf {m : List Host.Cell} {bs : List Block} (h : Memory.wf m) (hb : bs.length ≤ 129) :
    Memory.wf (Cbuf.writeBlocks m bs) :=
  Cbuf.write_wf h (by simp only [length_bytesOfBlocks, Config.cbufBytes]; omega)

section Cluster

variable {s : State} (hg : TransferGeometry s.str) (hlt : s.str.cidx.toNat < s.str.nclust.toNat) (h : Memory.wf s.cbuf)
include hg hlt h

theorem zeroTail_wf : Memory.wf (zeroTail s) := by
  obtain ⟨hone, hmax, -⟩ := geometry_next hg hlt
  have hr : s.str.realLen.toNat % 32 < 32 := Nat.mod_lt _ (by decide)
  unfold zeroTail
  dsimp only
  split
  · refine Cbuf.write_wf h ?_
    rw [List.length_replicate, realBlocks_eq]
    simp only [Config.cbufBytes]
    omega
  · exact h

theorem plainCluster_wf : Memory.wf (plainCluster params s) := by
  obtain ⟨hone, hmax, -⟩ := geometry_next hg hlt
  have hz := zeroTail_wf hg hlt h
  have ho : padOffset params s (zeroTail s) (realBlocks s) < 32 := Nat.mod_lt _ (by decide)
  by_cases hf : isFinal s = true
  · rw [plainCluster_final hf]
    refine Cbuf.write_wf hz ?_
    rw [List.length_singleton]
    rw [realBlocks_eq] at ho ⊢
    simp only [Config.cbufBytes]
    omega
  · rw [plainCluster_open hf]
    exact hz

theorem encryptCluster_wf : Memory.wf (encryptCluster params s).cbuf := by
  refine writeBlocks_wf (plainCluster_wf hg hlt h) ?_
  rw [cipherCluster, length_cbcEncrypt, Cbuf.length_blocks, clusterSize_eq]
  exact (clusterTotal_bounds hg hlt).2.2

theorem decryptCluster_wf : Memory.wf (decryptCluster params s).cbuf := by
  refine writeBlocks_wf h ?_
  rw [length_cbcDecrypt, receivedCluster, Cbuf.length_blocks, clusterSize_eq]
  exact (clusterTotal_bounds hg hlt).2.2

end Cluster

theorem CommandEffect.cbuf {s u : State} {i : Instr} (h : CommandEffect params s i u) (hs : StreamConsistent s.str)
    (hc : Memory.wf s.cbuf) : Memory.wf u.cbuf := by
  cases h with
  | generalRegs hi hu =>
    obtain ⟨g, rfl⟩ := hu.frame
    exact hc
  | keyDerived ra hi => simpa using hc
  | encrypted he =>
    simp only [StreamConsistent, he] at hs
    obtain ⟨-, -, hg, hlt, -⟩ := hs
    exact encryptCluster_wf hg hlt hc
  | decrypted hd =>
    simp only [StreamConsistent, hd] at hs
    obtain ⟨-, -, hg, hlt, -⟩ := hs
    exact decryptCluster_wf hg hlt hc
  | _ => exact hc

/-- The entries of the window that are no register stay 0 (R107). -/
theorem CommandEffect.window {s u : State} {i : Instr} (h : CommandEffect params s i u)
    (hs : ∀ k : Fin Config.maxDigitsLimit, params.maxDigits ≤ k.val → s.big.winDig[k.val] = 0) :
    ∀ k : Fin Config.maxDigitsLimit, params.maxDigits ≤ k.val → u.big.winDig[k.val] = 0 := by
  cases h with
  | generalRegs hi hu =>
    obtain ⟨g, rfl⟩ := hu.frame
    exact hs
  | stored ra =>
    intro k hk
    simp only [storeWindow, Vector.getElem_ofFn, if_neg (Nat.not_lt.mpr hk)]
    exact hs k hk
  | keyDerived ra hi => simpa using hs
  | _ => exact hs

/-- Every effect of a command keeps the invariant. -/
theorem CommandEffect.inv {s u : State} {i : Instr} (h : CommandEffect params s i u) (hs : Inv s) : Inv u :=
  ⟨h.regs hs.regs, h.ctl hs.ctl, h.stream hs.stream, h.key hs.key, h.cbuf hs.stream hs.cbuf, h.window hs.window⟩

end Sys2Proof.Machine
end

section
/-! PROOFS. Every end of a command, every host access and every reset keeps the invariant, and so does every step. -/

namespace Sys2Proof.Machine

/- An error a command raises has a code other than NONE (60_exceptions.md R1200): ERR and ERRCODE stay together. -/

/-- If the result is an error, its code is not NONE. -/
def NamesError (r : CmdResult) : Prop := ∀ c, r = .error c → c ≠ .noError

theorem namesError_ok (u : State) : NamesError (.ok u) := fun _ h => nomatch h

theorem namesError_error {c : ErrCode} (hc : c ≠ .noError) : NamesError (.error c) :=
  fun _ h => Except.error.inj h ▸ hc

theorem namesError_ite {P : Prop} [Decidable P] {a b : CmdResult} (ha : NamesError a) (hb : NamesError b) :
    NamesError (if P then a else b) := by
  split
  · exact ha
  · exact hb

theorem namesError_withOperands {s : State} {dst : Option RegName} {srcs : List RegName} {cons : Bool}
    {body : CmdResult} (hb : NamesError body) : NamesError (withOperands s dst srcs cons body) := by
  cases hp : preamble s dst srcs cons with
  | none => rwa [withOperands_of_none hp]
  | some c =>
    rw [withOperands_of_some hp]
    refine namesError_error ?_
    unfold preamble at hp
    split_ifs at hp <;> (obtain rfl := Option.some.inj hp; decide)

theorem namesError_commit {p : Params} {s : State} {r : RegName} {v : Int} {srcs : List RegName} :
    NamesError (commit p s r v srcs) := by
  intro c h
  rw [commit_error h]
  decide

theorem namesError_commitValue {p : Params} {s : State} {r : RegName} {v : Except ErrCode Int} {srcs : List RegName}
    (hv : ∀ c, v = .error c → c ≠ .noError) : NamesError (commitValue p s r v srcs) := by
  intro c h
  rcases commitValue_error h with h | rfl
  · exact hv c h
  · decide

theorem quotientOf_namesError (a b : Int) : ∀ c, quotientOf a b = .error c → c ≠ .noError := by
  intro c h
  rcases quotientOf_error h with rfl | rfl <;> decide

theorem residueOf_namesError (a b : Int) : ∀ c, residueOf a b = .error c → c ≠ .noError := by
  intro c h
  rcases residueOf_error h with rfl | rfl <;> decide

theorem modpowOf_namesError (a e m : Int) : ∀ c, modpowOf a e m = .error c → c ≠ .noError := by
  intro c h
  rcases modpowOf_error h with rfl | rfl | rfl | rfl <;> decide

theorem modinvOf_namesError (a m : Int) : ∀ c, modinvOf a m = .error c → c ≠ .noError := by
  intro c h
  rcases modinvOf_error h with rfl | rfl | rfl | rfl <;> decide

theorem namesError_withKey {s u : State} : NamesError (withKey s (.ok u)) :=
  namesError_ite (namesError_ok u) (namesError_error (by decide))

theorem namesError_clusterRule (p : Params) (s : State) : NamesError (clusterRule p s) := by
  unfold clusterRule
  cases s.str.sstate with
  | enc | dec => exact namesError_ok _
  | idle | encDone | decDone | finished => exact namesError_error (by decide)

theorem namesError_finishRule (p : Params) (s : State) : NamesError (finishRule p s) := by
  unfold finishRule
  cases s.str.sstate with
  | encDone | decDone => exact namesError_ok _
  | idle | enc | dec | finished => exact namesError_error (by decide)

/-- The four checks of ST.INITE and ST.INITD, in their order (R1010, R1011). -/
theorem namesError_checks {P Q R T : Prop} [Decidable P] [Decidable Q] [Decidable R] [Decidable T] (u : State) :
    NamesError (if P then .error .noKey else if Q then .error .state else if R then .error .badLength
      else if T then .error .badLength else .ok u) :=
  namesError_ite (namesError_error (by decide)) <| namesError_ite (namesError_error (by decide)) <|
    namesError_ite (namesError_error (by decide)) <| namesError_ite (namesError_error (by decide)) (namesError_ok u)

/-- No command raises an error without a code (R1200). -/
theorem commandRule_namesError (p : Params) (i : Instr) (s : State) : NamesError (commandRule p i s) := by
  cases i with
  | nop => exact namesError_ok _
  | biMov rd ra => exact namesError_withOperands (namesError_ok _)
  | biLdi rd imm => exact namesError_withOperands namesError_commit
  | biRel ra =>
    show NamesError (relRule ra s)
    rw [relRule_of_preamble]
    exact namesError_withOperands (namesError_ok _)
  | biLoad rd => exact namesError_withOperands (namesError_ite (namesError_error (by decide)) namesError_commit)
  | biStore ra => exact namesError_withOperands (namesError_ok _)
  | biCmp ra rb => exact namesError_withOperands (namesError_ok _)
  | biAdd rd ra rb => exact namesError_withOperands namesError_commit
  | biSub rd ra rb => exact namesError_withOperands namesError_commit
  | biMul rd ra rb => exact namesError_withOperands namesError_commit
  | biDiv rd ra rb => exact namesError_withOperands (namesError_commitValue (quotientOf_namesError _ _))
  | biMod rd ra rb => exact namesError_withOperands (namesError_commitValue (residueOf_namesError _ _))
  | biModpow rd ra rb rc => exact namesError_withOperands (namesError_commitValue (modpowOf_namesError _ _ _))
  | biModinv rd ra rb => exact namesError_withOperands (namesError_commitValue (modinvOf_namesError _ _))
  | keyCommit => exact namesError_ite (namesError_error (by decide)) (namesError_ok _)
  | keyDerive ra =>
    exact namesError_withOperands <| namesError_ite (namesError_error (by decide)) <|
      namesError_ite (namesError_ok _) (namesError_error (by decide))
  | rkGen => exact namesError_withKey
  | bcEnc => exact namesError_withKey
  | bcDec => exact namesError_withKey
  | blkXor => exact namesError_ok _
  | blkLadd => exact namesError_ok _
  | blkCmp => exact namesError_ok _
  | stInite => exact namesError_checks _
  | stInitd => exact namesError_checks _
  | stCluster => exact namesError_clusterRule p s
  | stFinish => exact namesError_finishRule p s
  | stCleanup => exact namesError_ok _

/- The two ends of a command in flight. -/

/-- What a state of the invariant with a command in flight has in its error record: nothing (R1100). -/
theorem CtlConsistent.of_busy {c : CtlRegs} (h : CtlConsistent c) (hb : c.busy = true) :
    c.done = false ∧ c.err = false ∧ c.errCode = .noError ∧ c.errCmd = 0 := by
  obtain ⟨hrun, -, hcode, hcmd⟩ := h
  obtain ⟨hd, he⟩ := hrun hb
  have hne : ¬ c.errCode ≠ .noError := fun hc => by simp [hcode.mpr hc] at he
  exact ⟨hd, he, not_not.mp hne, hcmd he⟩

/-- The invariant looks at the control registers only through `CtlConsistent`, and not at the port. -/
theorem Inv.of_ctl {s u : State} (h : Inv s) (hc : CtlConsistent u.ctl) (hbig : u.big = s.big) (hcip : u.cip = s.cip)
    (hstr : u.str = s.str) (hcbuf : u.cbuf = s.cbuf) : Inv u := by
  obtain ⟨big, ctl, cip, str, cbuf, port⟩ := u
  obtain rfl : big = s.big := hbig
  obtain rfl : cip = s.cip := hcip
  obtain rfl : str = s.str := hstr
  obtain rfl : cbuf = s.cbuf := hcbuf
  exact ⟨h.regs, hc, h.stream, h.key, h.cbuf, h.window⟩

/-- Completion sets DONE, which finds no error (R1101). -/
theorem complete_inv {s : State} (h : Inv s) (hb : s.ctl.busy = true) : Inv (complete s) := by
  refine h.of_ctl ?_ rfl rfl rfl rfl
  obtain ⟨-, he, hcode, hcmd⟩ := h.ctl.of_busy hb
  simp [CtlConsistent, he, hcode, hcmd]

/-- Error entry sets ERR and records a code, and finds no DONE (R1202). -/
theorem raiseError_inv {s : State} {c : ErrCode} (h : Inv s) (hb : s.ctl.busy = true) (hc : c ≠ .noError) :
    Inv (raiseError c s) := by
  refine h.of_ctl ?_ rfl rfl rfl rfl
  obtain ⟨hd, -, hcode, -⟩ := h.ctl.of_busy hb
  simp [CtlConsistent, hd, hcode, hc]

theorem exec_inv {i : Instr} {s t : State} (h : Inv s) (hb : s.ctl.busy = true) (he : exec i s = .next t) : Inv t := by
  rcases exec_cases he with ⟨u, hu, rfl⟩ | ⟨c, hc, rfl⟩
  · have heff := commandRule_effect hu
    exact complete_inv (heff.inv h) (heff.busy.trans hb)
  · exact raiseError_inv h hb (commandRule_namesError params i s c hc)

theorem engineTurn_inv {s t : State} (h : Inv s) (he : engineTurn exec s = .next t) : Inv t := by
  rcases engineTurn_cases he with ⟨-, rfl⟩ | ⟨hb, i, -, hi⟩ | ⟨hb, -, rfl⟩
  · exact h
  · exact exec_inv h hb hi
  · exact raiseError_inv h hb (by decide)

/- Reset (R145, R1103). -/

theorem reset_regs : RegsInRange State.reset := by
  intro i v h
  simp [State.reset, BigRegs.reset] at h

theorem reset_window (i : Fin Config.maxDigitsLimit) : State.reset.big.winDig[i.val] = 0 := by
  simp [State.reset, BigRegs.reset]

/-- Settles O58: after reset no register holds a value, no error stands, no transfer is open, CBUF lists nothing. -/
theorem resetInv : Obligations.ResetInv where
  regs := reset_regs
  ctl := ⟨fun h => (nomatch h), by decide, by decide, fun _ => rfl⟩
  stream := ⟨rfl, fun h => (nomatch h), rfl, rfl, rfl, rfl, rfl, rfl, rfl, rfl, rfl, rfl, rfl, rfl, rfl, rfl⟩
  key := fun h => absurd rfl h
  cbuf := Memory.wf_nil
  window := fun i _ => reset_window i

/-- Whatever the state was, its reset has the invariant: only the model's own fields differ from the state after reset. -/
theorem resetBlock_inv (s : State) : Inv (resetBlock s) :=
  Inv.of_ctl resetInv resetInv.ctl rfl rfl rfl rfl

/- Host accesses. -/

theorem present_inv {s : State} (w : Word) (h : Inv s) : Inv (present w s) := by
  unfold present
  split
  · exact h.of_ctl h.ctl rfl rfl rfl rfl
  · next hidle =>
    simp only [Bool.or_eq_true, not_or, Bool.not_eq_true] at hidle
    obtain ⟨-, -, hcode, hcmd⟩ := h.ctl
    refine h.of_ctl ⟨fun _ => ⟨rfl, hidle.2⟩, fun hd => (nomatch hd.1), hcode, hcmd⟩ rfl rfl rfl rfl

theorem errClear_inv {s : State} (d e : Bool) (h : Inv s) : Inv (errClear d e s) := by
  refine h.of_ctl ?_ rfl rfl rfl rfl
  obtain ⟨hrun, -⟩ := h.ctl
  exact ⟨fun hb => ⟨(hrun hb).1, rfl⟩, fun hd => (nomatch hd.2), by simp, fun _ => rfl⟩

theorem writeCtrl_inv {s : State} (w : Word) (h : Inv s) : Inv (writeCtrl w s) := by
  unfold writeCtrl
  split
  · exact resetBlock_inv s
  · split
    · exact errClear_inv _ _ h
    · exact h.of_ctl h.ctl rfl rfl rfl rfl

theorem writeStatus_inv {s : State} (w : Word) (h : Inv s) : Inv (writeStatus w s) := by
  unfold writeStatus
  split
  · obtain ⟨hrun, -, hcode, hcmd⟩ := h.ctl
    exact h.of_ctl ⟨fun hb => ⟨rfl, (hrun hb).2⟩, fun hd => (nomatch hd.1), hcode, hcmd⟩ rfl rfl rfl rfl
  · exact h

theorem refuseWrite_inv {s : State} (h : Inv s) : Inv (refuseWrite s) := h.of_ctl h.ctl rfl rfl rfl rfl

/-- A word of the window's digits is one below MAX_DIGITS (R107). -/
theorem biwDigWord_lt {p : Params} {off : Nat} {i : Fin Config.maxDigitsLimit} (h : biwDigWord p off = some i) :
    i.val < p.maxDigits := by
  obtain ⟨-, hi⟩ := Option.filter_eq_some_iff.mp h
  exact of_decide_eq_true hi

theorem lookup_singleWords_ne_biwDig (off : Nat) (i : Fin Config.maxDigitsLimit) :
    singleWords.lookup off ≠ some (.biwDig i) := by
  intro h
  have hmem : ∀ c ∈ singleWords, ∀ i, c.2 ≠ .biwDig i := by simp [singleWords]
  obtain ⟨l₁, l₂, heq, -⟩ := List.lookup_eq_some_iff.mp h
  exact hmem (off, .biwDig i) (by simp [heq]) i rfl

theorem winReg_biwDig_lt {p : Params} {off : Nat} {i : Fin Config.maxDigitsLimit} (h : winReg p off = .biwDig i) :
    i.val < p.maxDigits := by
  unfold winReg at h
  rcases Option.getD_eq_iff.mp h with h | ⟨-, h⟩
  · simp only [Option.orElse_eq_some, Option.map_eq_some_iff, reduceCtorEq, and_false, exists_false, false_or,
      WinReg.biwDig.injEq, exists_eq_right, lookup_singleWords_ne_biwDig, or_false] at h
    obtain ⟨-, -, -, -, -, -, -, -, hdig⟩ := h
    exact biwDigWord_lt hdig
  · cases h

/-- What a data write does, by the part of the state it writes; the values written are left open except where the
invariant speaks of them (R107, R120 to R134). -/
inductive DataWrite (w : Word) (s : State) : WinReg → State → Prop
  | window {r : WinReg} (sign : Bool) (len : BitVec 16) :
      DataWrite w s r { s with big := { s.big with winSign := sign, winLen := len } }
  | digit (i : Fin Config.maxDigitsLimit) :
      DataWrite w s (.biwDig i) { s with big := { s.big with winDig := s.big.winDig.set i.val w } }
  | key (j : Fin 8) (k : Block) : DataWrite w s (.key j) { s with cip := { s.cip with key := k, keyValid := false } }
  | cipher {r : WinReg} (x y : Block) (c : Word) (b : BitVec 8) (n : BitVec 5) :
      DataWrite w s r
        { s with cip := { s.cip with blk := x, blk2 := y, idxCluster := c, idxBlock := b, idxRound := n } }
  | stream {r : WinReg} (iv rx : Block) (len : BitVec 64) :
      DataWrite w s r { s with str := { s.str with iv := iv, rxTrailer := rx, len := len } }
  | cbuf (k : Fin 1032) : DataWrite w s (.cbuf k) { s with cbuf := Cbuf.write s.cbuf (4 * k.val) (bytesOfWord w) }

theorem writeData_dataWrite (r : WinReg) (w : Word) (s : State) : DataWrite w s r (writeData r w s) := by
  cases r with
  | biwDig i => exact .digit i
  | key j => exact .key j _
  | blk j => exact .cipher _ s.cip.blk2 s.cip.idxCluster s.cip.idxBlock s.cip.idxRound
  | blk2 j => exact .cipher s.cip.blk _ s.cip.idxCluster s.cip.idxBlock s.cip.idxRound
  | idxCluster => exact .cipher s.cip.blk s.cip.blk2 _ s.cip.idxBlock s.cip.idxRound
  | idxBlock => exact .cipher s.cip.blk s.cip.blk2 s.cip.idxCluster _ s.cip.idxRound
  | idxRound => exact .cipher s.cip.blk s.cip.blk2 s.cip.idxCluster s.cip.idxBlock _
  | iv j => exact .stream _ s.str.rxTrailer s.str.len
  | rxTrailer j => exact .stream s.str.iv _ s.str.len
  | lenLo => exact .stream s.str.iv s.str.rxTrailer _
  | lenHi => exact .stream s.str.iv s.str.rxTrailer _
  | cbuf k => exact .cbuf k
  | _ => exact .window _ _

/-- An accepted data write keeps the invariant, if it is to a digit below MAX_DIGITS and, for a KEY word, while no transfer is
open (R107, R120). -/
theorem DataWrite.inv {s u : State} {r : WinReg} {w : Word} (hw : DataWrite w s r u) (h : Inv s)
    (hdig : ∀ i, r = .biwDig i → i.val < params.maxDigits) (hkey : isKeyWord r = true → s.str.sstate = .idle) :
    Inv u := by
  cases hw with
  | window sign len => exact ⟨h.regs, h.ctl, h.stream, h.key, h.cbuf, h.window⟩
  | digit i =>
    refine ⟨h.regs, h.ctl, h.stream, h.key, h.cbuf, fun k hk => ?_⟩
    have hne : i.val ≠ k.val := ((hdig i rfl).trans_le hk).ne
    exact (Vector.getElem_set_ne i.isLt k.isLt hne).trans (h.window k hk)
  | key j k => exact ⟨h.regs, h.ctl, h.stream, fun hn => absurd (hkey rfl) hn, h.cbuf, h.window⟩
  | cipher x y c b n => exact ⟨h.regs, h.ctl, h.stream, h.key, h.cbuf, h.window⟩
  | stream iv rx len => exact ⟨h.regs, h.ctl, h.stream, h.key, h.cbuf, h.window⟩
  | cbuf k =>
    have hend : 4 * k.val + (bytesOfWord w).length ≤ Config.cbufBytes := by
      have := k.isLt
      simp only [bytesOfWord, List.length_cons, List.length_nil, Config.cbufBytes]
      omega
    exact ⟨h.regs, h.ctl, h.stream, h.key, Cbuf.write_wf h.cbuf hend, h.window⟩

/-- A host write of a word that is neither CTRL, STATUS nor CMD: written, refused or ignored (R212, R1106). -/
theorem writeWord_data_cases {r : WinReg} (hctrl : r ≠ .ctrl) (hstatus : r ≠ .status) (hcmd : r ≠ .cmd) (w : Word)
    (s : State) :
    ((isKeyWord r = true → s.str.sstate = .idle) ∧ writeWord r w s = writeData r w s)
      ∨ writeWord r w s = refuseWrite s ∨ writeWord r w s = s := by
  have hw : writeWord r w s = if isDataReg r then
      if s.ctl.busy then refuseWrite s
      else if isKeyWord r && decide (s.str.sstate ≠ .idle) then refuseWrite s
      else writeData r w s
    else s := by
    cases r with
    | ctrl => exact absurd rfl hctrl
    | status => exact absurd rfl hstatus
    | cmd => exact absurd rfl hcmd
    | _ => rfl
  rw [hw]
  split_ifs with hd hb hk
  · exact .inr (.inl rfl)
  · exact .inr (.inl rfl)
  · exact .inl ⟨fun hr => by simpa [hr] using hk, rfl⟩
  · exact .inr (.inr rfl)

theorem writeWord_inv {s : State} {off : Nat} (w : Word) (h : Inv s) : Inv (writeWord (winReg params off) w s) := by
  by_cases hctrl : winReg params off = .ctrl
  · rw [hctrl]
    exact writeCtrl_inv w h
  by_cases hstatus : winReg params off = .status
  · rw [hstatus]
    exact writeStatus_inv w h
  by_cases hcmd : winReg params off = .cmd
  · rw [hcmd]
    exact present_inv w h
  rcases writeWord_data_cases hctrl hstatus hcmd w s with ⟨hkey, hw⟩ | hw | hw <;> rw [hw]
  · exact (writeData_dataWrite _ w s).inv h (fun i hi => winReg_biwDig_lt hi) hkey
  · exact refuseWrite_inv h
  · exact h

/-- A read changes only the model's own fields (R212). -/
theorem hostRead_inv {p : Params} {s : State} (r : WinReg) (h : Inv s) : Inv (hostRead p r s) := by
  unfold hostRead
  split <;> exact h.of_ctl h.ctl rfl rfl rfl rfl

theorem hostAccess_inv {s t : State} {a : HostAccess} (h : Inv s) (ha : hostAccess params a s = .next t) : Inv t := by
  rcases hostAccess_cases ha with ⟨_, off, -, -, rfl⟩ | ⟨_, off, w, -, -, rfl⟩
  · exact hostRead_inv _ h
  · exact writeWord_inv w h

/-- Taking a turn off the list leaves the block (R100). -/
theorem EngineNext.inv {s u : State} (hn : EngineNext s u) (h : Inv s) : Inv u := by
  rcases hn with ⟨-, rfl⟩ | ⟨rest, -, rfl⟩
  · exact h
  · exact h.of_ctl h.ctl rfl rfl rfl rfl

theorem HostNext.inv {a : HostAccess} {s u : State} (hn : HostNext a s u) (h : Inv s) : Inv u := by
  obtain ⟨rest, -, rfl⟩ := hn
  exact h.of_ctl h.ctl rfl rfl rfl rfl

/-- Settles O59, by whose turn it is: the engine's, the host's or the platform's. -/
theorem stepKeepsInv : Obligations.StepKeepsInv := by
  intro s t h hst
  rcases turn_cases s with ⟨u, hn⟩ | ⟨a, u, hn⟩ | ⟨rest, hn⟩
  · rw [step_engine hn] at hst
    exact engineTurn_inv (hn.inv h) hst
  · rw [step_host hn] at hst
    exact hostAccess_inv (hn.inv h) hst
  · rw [step_powerOn hn] at hst
    obtain rfl := Host.Outcome.next.inj hst
    exact resetBlock_inv _

end Sys2Proof.Machine
end

section
/-! PROOFS. The words of the window that show the state, the reset values, a KEY word write, and the normal form of an
integer (10_state.md R102, R106, R108, R113 to R118, R120, R145; 20_memory.md R206; 60_exceptions.md R1200, R1207). -/

namespace Sys2Proof.Machine

/- The normal form (R102, R106). -/

theorem comp_lt (n i : Nat) : comp n i < 2 ^ 32 := Nat.mod_lt _ (by decide)

theorem comp_zero (n : Nat) : comp n 0 = n % 2 ^ 32 := by simp [comp]

theorem comp_succ (n i : Nat) : comp n (i + 1) = comp (n / 2 ^ 32) i := by
  rw [comp, comp, Nat.div_div_eq_div_mul, ← pow_add, show 32 * (i + 1) = 32 + 32 * i by omega]

theorem compsValue_cons (d : Nat) (ds : List Nat) : compsValue (d :: ds) = d + 2 ^ 32 * compsValue ds := rfl

/-- The first `k` components of `n` make `n` modulo `2^(32 k)` (R102). -/
theorem compsValue_range (k n : Nat) : compsValue ((List.range k).map (comp n)) = n % 2 ^ (32 * k) := by
  induction k generalizing n with
  | zero => simp [compsValue, Nat.mod_one]
  | succ k ih =>
    have htail : (List.range k).map (comp n ∘ Nat.succ) = (List.range k).map (comp (n / 2 ^ 32)) :=
      List.map_congr_left fun i _ => comp_succ n i
    rw [List.range_succ_eq_map, List.map_cons, List.map_map, compsValue_cons, htail, ih, comp_zero,
      show 32 * (k + 1) = 32 + 32 * k by omega, pow_add, Nat.mod_mul]

theorem lt_two_pow_bitLength (n : Nat) : n < 2 ^ bitLength n := by
  unfold bitLength
  split
  · next h => simp [h]
  · exact Nat.lt_log2_self

theorem two_pow_le_of_bitLength {n : Nat} (h : n ≠ 0) : 2 ^ (bitLength n - 1) ≤ n := by
  rw [bitLength, if_neg h]
  exact Nat.log2_self_le h

theorem lt_two_pow_ncomp (n : Nat) : n < 2 ^ (32 * ncomp n) :=
  (lt_two_pow_bitLength n).trans_le (Nat.pow_le_pow_right (by decide) (by unfold ncomp; omega))

theorem two_pow_ncomp_le {n : Nat} (h : n ≠ 0) : 2 ^ (32 * (ncomp n - 1)) ≤ n :=
  (Nat.pow_le_pow_right (by decide) (by unfold ncomp; omega)).trans (two_pow_le_of_bitLength h)

/-- The components of a magnitude make it (R102). -/
theorem compsValue_comps (n : Nat) : compsValue (comps n) = n :=
  (compsValue_range (ncomp n) n).trans (Nat.mod_eq_of_lt (lt_two_pow_ncomp n))

theorem getLast?_comps (n : Nat) : (comps n).getLast? = some (topComp n) := by
  obtain ⟨k, hk⟩ : ∃ k, ncomp n = k + 1 := ⟨ncomp n - 1, by unfold ncomp; omega⟩
  simp [comps, topComp, hk, List.range_succ]

/-- The top component of a magnitude other than 0 is not 0: there are no leading zeros (R106). -/
theorem topComp_ne_zero {n : Nat} (h : n ≠ 0) : topComp n ≠ 0 := by
  have hlt : n < 2 ^ (32 * (ncomp n - 1)) * 2 ^ 32 := by
    rw [← pow_add, show 32 * (ncomp n - 1) + 32 = 32 * ncomp n by unfold ncomp; omega]
    exact lt_two_pow_ncomp n
  have hdiv : n / 2 ^ (32 * (ncomp n - 1)) < 2 ^ 32 := Nat.div_lt_of_lt_mul hlt
  have hpos : 0 < n / 2 ^ (32 * (ncomp n - 1)) := Nat.div_pos (two_pow_ncomp_le h) (by positivity)
  rw [topComp, comp, Nat.mod_eq_of_lt hdiv]
  exact hpos.ne'

theorem normalForm_value (v : Int) : (normalForm v).value = v := by
  simp only [normalForm, SignedComps.value, compsValue_comps, decide_eq_true_eq]
  split <;> omega

/-- The value 0 is the single component 0 with sign + (R106). -/
theorem normalForm_zero : normalForm 0 = ⟨false, [0]⟩ := by
  simp [normalForm, comps, ncomp, bitLength, comp]

/-- Settles O22, from the value, the bound and the top of the component list. -/
theorem normalFormIsNormal : Obligations.NormalFormIsNormal := by
  refine fun v => ⟨normalForm_value v, fun x hx => ?_, fun hv => ?_, normalForm_zero⟩
  · obtain ⟨i, -, rfl⟩ := List.mem_map.mp hx
    exact comp_lt _ i
  · show (comps v.natAbs).getLast? ≠ some 0
    rw [getLast?_comps]
    exact fun h => topComp_ne_zero (Int.natAbs_ne_zero.mpr hv) (Option.some.inj h)

/- A KEY word (R120, R206). -/

/-- Taking the host's turn off the list leaves BUSY and SSTATE (R100). -/
theorem HostNext.ctl_str {a : HostAccess} {s u : State} (hn : HostNext a s u) : u.ctl = s.ctl ∧ u.str = s.str := by
  obtain ⟨rest, -, rfl⟩ := hn
  exact ⟨rfl, rfl⟩

theorem writeData_key (j : Fin 8) (w : Word) (s : State) :
    writeData (.key j) w s = { s with cip := { s.cip with key := setWord s.cip.key j w, keyValid := false } } := rfl

/-- Without a command in flight and without a transfer open, a write of a KEY word is accepted (R120, R1106). -/
theorem writeWord_key {s : State} (hb : s.ctl.busy = false) (hidle : s.str.sstate = .idle) (j : Fin 8) (w : Word) :
    writeWord (.key j) w s = writeData (.key j) w s := by
  show (if s.ctl.busy then refuseWrite s else if true && decide (s.str.sstate ≠ .idle) then refuseWrite s
    else writeData (.key j) w s) = _
  simp [hb, hidle]

/-- Settles O55: the offset names the word, and neither BUSY nor an open transfer refuses the write. -/
theorem keyWordWrite : Obligations.KeyWordWrite := by
  intro s u j w hj hn hb hidle
  have hreg : winReg params (0x080 + 4 * j) = .key ⟨j, hj⟩ := (winReg_arrays ⟨j, hj⟩).1
  have hin : 0x080 + 4 * j < Config.windowBytes := by simp only [Config.windowBytes]; omega
  obtain ⟨hctl, hstr⟩ := hn.ctl_str
  rw [step_write hn (by omega) hin, hreg, writeWord_key (hctl ▸ hb) (hstr ▸ hidle), writeData_key]
  rfl

/- The words of the status group (R108, R113 to R118). -/

theorem winReg_statusGroup :
    winReg params 0x000 = .id ∧ winReg params 0x004 = .param0 ∧ winReg params 0x008 = .param1
      ∧ winReg params 0x010 = .ctrl ∧ winReg params 0x014 = .status ∧ winReg params 0x018 = .cmd
      ∧ winReg params 0x01C = .errCode ∧ winReg params 0x020 = .errCmd ∧ winReg params 0x024 = .cmdCount
      ∧ winReg params 0x048 = .biValid := by decide +kernel

theorem wordAt_eq {off : Nat} {r : WinReg} (h : winReg params off = r) (s : State) :
    wordAt s off = readWord params s r := by rw [wordAt, h]

/-- A flag as a bit of a word. -/
theorem flagAt_eq (f : Bool) (k : Nat) : flagAt f k = 2 ^ k * f.toNat := by cases f <;> simp [flagAt]

theorem CmpRes.bits_le (r : CmpRes) : r.bits ≤ 3 := by cases r <;> decide

theorem SState.bits_le (q : SState) : q.bits ≤ 5 := by cases q <;> decide

/-- STATUS is the sum of its fields: none reaches the next (R114). -/
theorem statusWord_toNat (s : State) :
    (statusWord s).toNat =
      s.ctl.busy.toNat + 2 * s.ctl.done.toNat + 4 * s.ctl.err.toNat + 8 * s.ctl.ovr.toNat + 16 * s.ctl.cmpRes.bits
        + 64 * s.cip.keyValid.toNat + 128 * s.str.authOk.toNat + 256 * s.str.authValid.toNat
        + 512 * s.str.padErr.toNat + 4096 * s.str.sstate.bits := by
  have hflag := Bool.toNat_le
  have h1 := hflag s.ctl.busy
  have h2 := hflag s.ctl.done
  have h3 := hflag s.ctl.err
  have h4 := hflag s.ctl.ovr
  have h5 := hflag s.cip.keyValid
  have h6 := hflag s.str.authOk
  have h7 := hflag s.str.authValid
  have h8 := hflag s.str.padErr
  have h9 := s.ctl.cmpRes.bits_le
  have h10 := s.str.sstate.bits_le
  simp only [statusWord, flagAt_eq, BitVec.toNat_ofNat]
  omega

theorem ctrlWord_toNat (s : State) : (ctrlWord s).toNat = s.ctl.ieDone.toNat + 2 * s.ctl.ieErr.toNat := by
  have h1 := Bool.toNat_le s.ctl.ieDone
  have h2 := Bool.toNat_le s.ctl.ieErr
  simp only [ctrlWord, flagAt_eq, BitVec.toNat_ofNat]
  omega

/-- The sum of flags at bits 0 to `n - 1` is the number with those bits. -/
theorem sum_flagAt {n : Nat} (f : Fin n → Bool) :
    ((List.finRange n).map fun i => flagAt (f i) i.val).sum = Nat.ofBits f := by
  induction n with
  | zero => rfl
  | succ n ih =>
    have hshift : ((List.finRange n).map fun i => flagAt (f i.succ) i.succ.val)
        = (List.finRange n).map fun i => 2 * flagAt (f i.succ) i.val :=
      List.map_congr_left fun i _ => by simp only [flagAt_eq, Fin.val_succ, pow_succ]; ring
    rw [List.finRange_succ, List.map_cons, List.map_map, List.sum_cons, Nat.ofBits_succ, ← ih (f ∘ Fin.succ)]
    show flagAt (f 0) 0 + ((List.finRange n).map fun i => flagAt (f i.succ) i.succ.val).sum = _
    rw [hshift, List.sum_map_mul_left, flagAt_eq]
    simp only [Function.comp_apply, pow_zero, one_mul]
    omega

theorem foldr_add_eq_sum {α : Type} (g : α → Nat) (l : List α) (acc : Nat) :
    l.foldr (fun i a => g i + a) acc = (l.map g).sum + acc := by
  induction l with
  | nil => simp
  | cons x xs ih => simp only [List.foldr_cons, List.map_cons, List.sum_cons, ih, Nat.add_assoc]

theorem biValidWord_toNat (s : State) : (biValidWord s).toNat = 2 ^ 16 * 0x7F + Nat.ofBits (validBit s) := by
  have := Nat.ofBits_lt_two_pow (validBit s)
  rw [biValidWord, foldr_add_eq_sum (fun i : Fin 16 => flagAt (validBit s i) i.val), sum_flagAt, BitVec.toNat_ofNat]
  omega

theorem biValidWord_low (s : State) (i : Fin 16) : (biValidWord s).getLsbD i.val = (s.big.gpr[i.val]).isSome := by
  rw [← BitVec.testBit_toNat, biValidWord_toNat, Nat.testBit_two_pow_mul_add _ (Nat.ofBits_lt_two_pow _), if_pos i.isLt,
    Nat.testBit_ofBits_lt _ _ i.isLt]
  rfl

/-- The seven constants always hold a value (R108). -/
theorem biValidWord_high (s : State) : (biValidWord s).extractLsb' 16 16 = 0x007F := by
  have := Nat.ofBits_lt_two_pow (validBit s)
  apply BitVec.eq_of_toNat_eq
  rw [BitVec.extractLsb'_toNat, biValidWord_toNat, Nat.shiftRight_eq_div_pow]
  show _ = 0x7F
  omega

theorem irq_iff (s : State) :
    irq s = true ↔ s.ctl.done = true ∧ s.ctl.ieDone = true ∨ s.ctl.err = true ∧ s.ctl.ieErr = true := by
  simp [irq]

/-- Settles O57, word by word. -/
theorem statusWords : Obligations.StatusWords := by
  intro s
  obtain ⟨-, -, -, hctrl, hstatus, hcmd, hcode, herr, hcount, hvalid⟩ := winReg_statusGroup
  rw [wordAt_eq hctrl, wordAt_eq hstatus, wordAt_eq hcmd, wordAt_eq hcode, wordAt_eq herr, wordAt_eq hcount,
    wordAt_eq hvalid]
  refine ⟨statusWord_toNat s, biValidWord_low s, biValidWord_high s, ctrlWord_toNat s, rfl, rfl, rfl, ?_, irq_iff s⟩
  show BitVec.ofNat 32 s.ctl.errCode.bits = _
  cases s.ctl.errCode <;> rfl

/- The reset values (R145). -/

/-- The constant registers hold their constants in every state (R101, R104). -/
theorem readReg_const (s : State) :
    readReg s (regOfIndex 16) = some 0 ∧ readReg s (regOfIndex 17) = some 1 ∧ readReg s (regOfIndex 18) = some 2
      ∧ readReg s (regOfIndex 19) = some 10 ∧ readReg s (regOfIndex 20) = some (-1)
      ∧ readReg s (regOfIndex 21) = some 2147483647 ∧ readReg s (regOfIndex 22) = some (-2147483648) :=
  ⟨rfl, rfl, rfl, rfl, rfl, rfl, rfl⟩

/-- Settles O48. -/
theorem resetValues : Obligations.ResetValues := by
  obtain ⟨hid, hp0, hp1, hctrl, hstatus, hcmd, hcode, herr, hcount, hvalid⟩ := winReg_statusGroup
  rw [Obligations.ResetValues, wordAt_eq hid, wordAt_eq hp0, wordAt_eq hp1, wordAt_eq hctrl, wordAt_eq hstatus,
    wordAt_eq hcmd, wordAt_eq hcode, wordAt_eq herr, wordAt_eq hcount, wordAt_eq hvalid]
  refine ⟨fun i => ?_, readReg_const, rfl, rfl, rfl, rfl, by decide, by decide, by decide, by decide, rfl, rfl, rfl, rfl,
    by decide +kernel, by decide, by decide, rfl, fun j => rfl⟩
  simp [State.reset, BigRegs.reset]

end Sys2Proof.Machine
end

section
/-! PROOFS. The map of the window from both sides: the offset of each word, and the word at each offset; and what a word
reads as after a write to it and to another word (20_memory.md R202, R203, R206, R207, R213; 10_state.md R107 to R134). -/

namespace Sys2Proof.Machine

/- From a word to its offset. -/

/-- The offset of each word of the window (R202). A reserved offset is no word, and the value given for it means nothing. -/
def regOffset : WinReg → Nat
  | .id => 0x000 | .param0 => 0x004 | .param1 => 0x008 | .ctrl => 0x010 | .status => 0x014 | .cmd => 0x018
  | .errCode => 0x01C | .errCmd => 0x020 | .cmdCount => 0x024
  | .biwSign => 0x040 | .biwLen => 0x044 | .biValid => 0x048
  | .key j => 0x080 + 4 * j.val | .iv j => 0x0A0 + 4 * j.val | .cv j => 0x0C0 + 4 * j.val
  | .trailer j => 0x0E0 + 4 * j.val | .rxTrailer j => 0x100 + 4 * j.val
  | .blk j => 0x120 + 4 * j.val | .blk2 j => 0x140 + 4 * j.val | .rkey j => 0x160 + 4 * j.val
  | .idxCluster => 0x170 | .idxBlock => 0x174 | .idxRound => 0x178
  | .lenLo => 0x180 | .lenHi => 0x184 | .nblkLo => 0x188 | .nblkHi => 0x18C | .cidx => 0x190 | .nclust => 0x194
  | .blocks => 0x198 | .outLen => 0x19C | .offLo => 0x1A0 | .offHi => 0x1A4 | .pad => 0x1A8
  | .realLenLo => 0x1AC | .realLenHi => 0x1B0 | .totalLo => 0x1B4 | .totalHi => 0x1B8
  | .lpadLo => 0x1BC | .lpadHi => 0x1C0 | .hcount => 0x1C4
  | .biwDig i => 0x400 + 4 * i.val | .cbuf k => 0x1000 + 4 * k.val
  | .reserved => 0

/-- Any word that a part of the map gives is the one at `off`. -/
def NamesOffset (off : Nat) (o : Option WinReg) : Prop := ∀ r, o = some r → regOffset r = off

theorem NamesOffset.orElse {off : Nat} {o o' : Option WinReg} (h : NamesOffset off o) (h' : NamesOffset off o') :
    NamesOffset off (o <|> o') := by
  intro r hr
  rcases (Option.orElse_eq_some _ _ _).mp hr with hr | ⟨-, hr⟩
  · exact h r hr
  · exact h' r hr

theorem arrayWord_eq_some {off base n : Nat} {j : Fin n} (h4 : off % 4 = 0) (hb : base % 4 = 0)
    (h : arrayWord off base n = some j) : off = base + 4 * j.val := by
  unfold arrayWord at h
  split at h
  · next hin =>
    obtain rfl := Option.some.inj h
    simp only
    omega
  · cases h

theorem namesOffset_array {off base n : Nat} {c : Fin n → WinReg} (h4 : off % 4 = 0) (hb : base % 4 = 0)
    (hc : ∀ j, regOffset (c j) = base + 4 * j.val) : NamesOffset off ((arrayWord off base n).map c) := by
  intro r hr
  obtain ⟨j, hj, rfl⟩ := Option.map_eq_some_iff.mp hr
  exact (hc j).trans (arrayWord_eq_some h4 hb hj).symm

theorem namesOffset_biwDig {p : Params} {off : Nat} (h4 : off % 4 = 0) :
    NamesOffset off ((biwDigWord p off).map .biwDig) := by
  intro r hr
  obtain ⟨i, hi, rfl⟩ := Option.map_eq_some_iff.mp hr
  obtain ⟨hword, -⟩ := Option.filter_eq_some_iff.mp hi
  exact (arrayWord_eq_some h4 rfl hword).symm

theorem namesOffset_single (off : Nat) : NamesOffset off (singleWords.lookup off) := by
  intro r hr
  have hoff : ∀ c ∈ singleWords, regOffset c.2 = c.1 := by decide
  obtain ⟨l₁, l₂, heq, -⟩ := List.lookup_eq_some_iff.mp hr
  exact hoff (off, r) (by simp [heq])

/-- The word at an aligned offset stands at that offset, so no two offsets name one word (R202). -/
theorem regOffset_winReg {p : Params} {off : Nat} (h4 : off % 4 = 0) (h : winReg p off ≠ .reserved) :
    regOffset (winReg p off) = off := by
  have hmap : NamesOffset off _ :=
    (namesOffset_array (base := 0x080) (c := .key) h4 rfl fun _ => rfl).orElse <|
    (namesOffset_array (base := 0x0A0) (c := .iv) h4 rfl fun _ => rfl).orElse <|
    (namesOffset_array (base := 0x0C0) (c := .cv) h4 rfl fun _ => rfl).orElse <|
    (namesOffset_array (base := 0x0E0) (c := .trailer) h4 rfl fun _ => rfl).orElse <|
    (namesOffset_array (base := 0x100) (c := .rxTrailer) h4 rfl fun _ => rfl).orElse <|
    (namesOffset_array (base := 0x120) (c := .blk) h4 rfl fun _ => rfl).orElse <|
    (namesOffset_array (base := 0x140) (c := .blk2) h4 rfl fun _ => rfl).orElse <|
    (namesOffset_array (base := 0x160) (c := .rkey) h4 rfl fun _ => rfl).orElse <|
    (namesOffset_biwDig (p := p) h4).orElse <|
    (namesOffset_array (base := 0x1000) (c := .cbuf) h4 rfl fun _ => rfl).orElse <|
    namesOffset_single off
  rcases Option.getD_eq_iff.mp (rfl : winReg p off = winReg p off) with hr | ⟨-, hr⟩
  · exact hmap _ hr
  · exact absurd hr.symm h

/-- Two offsets that name one word are one offset (R202). -/
theorem winReg_injective {p : Params} {off off' : Nat} (h4 : off % 4 = 0) (h4' : off' % 4 = 0)
    (hr : winReg p off ≠ .reserved) (h : winReg p off = winReg p off') : off = off' := by
  rw [← regOffset_winReg h4 hr, h, regOffset_winReg h4' (h ▸ hr)]

/- From an offset to its word. -/

theorem arrayWord_eq_none {off base n : Nat} (h : off < base ∨ base + 4 * n ≤ off) : arrayWord off base n = none :=
  dif_neg (by omega)

theorem arrayWord_base_add {base n : Nat} (j : Fin n) : arrayWord (base + 4 * j.val) base n = some j := by
  simp [arrayWord]

/-- No offset outside the 128 words of BIW_DIG names a digit (R107, R202). -/
theorem biwDigWord_eq_none {off : Nat} (h : off < 0x400 ∨ 0x600 ≤ off) : biwDigWord params off = none := by
  rw [biwDigWord, Option.filter_eq_none_iff]
  intro i hword hlt
  have hi : i.val < 128 := of_decide_eq_true hlt
  unfold arrayWord at hword
  split at hword
  · obtain rfl := Option.some.inj hword
    simp only at hi
    omega
  · cases hword

theorem winReg_cbuf (k : Fin 1032) : winReg params (0x1000 + 4 * k.val) = .cbuf k := by
  simp (disch := omega) [winReg, biwDigWord_eq_none, arrayWord_eq_none, arrayWord_base_add]

theorem winReg_single : ∀ c ∈ singleWords, winReg params c.1 = c.2 := by decide +kernel

theorem wordAt_single {off : Nat} {r : WinReg} (h : (off, r) ∈ singleWords) (s : State) :
    wordAt s off = readWord params s r := wordAt_eq (winReg_single (off, r) h) s

theorem lookup_singleWords_eq_none {off : Nat} (h : ReservedOffset off) : singleWords.lookup off = none := by
  have hnone : ∀ c ∈ singleWords, ¬ReservedOffset c.1 := by unfold ReservedOffset; decide
  rw [List.lookup_eq_none_iff]
  intro c hc
  exact bne_iff_ne.mpr fun heq => hnone c hc (heq ▸ h)

theorem winReg_reserved {off : Nat} (h : ReservedOffset off) : winReg params off = .reserved := by
  have hdig : biwDigWord params off = none := biwDigWord_eq_none (by obtain ⟨-, h⟩ := h; omega)
  have hsingle := lookup_singleWords_eq_none h
  obtain ⟨h4, hoff⟩ := h
  simp (disch := omega) [winReg, hdig, hsingle, arrayWord_eq_none]

end Sys2Proof.Machine
end

section
/-! PROOFS. Accesses of the host: which the bus refuses, what a read answers, what a write to a data register leaves to be
read, and the bytes of CBUF (20_memory.md R201 to R207, R212 to R214, U7; 10_state.md R107 to R134; 47_system.md R1106). -/

namespace Sys2Proof.Machine

/- Bus errors (R205, U7). -/

theorem accessOffset_eq_none {addr size : Nat}
    (h : ¬(size = 4 ∧ addr % 4 = 0 ∧ params.coreBase ≤ addr ∧ addr < params.coreBase + 0x4000)) :
    accessOffset params addr size = none := by
  cases hoff : accessOffset params addr size with
  | none => rfl
  | some off =>
    obtain ⟨hsize, h4, hlow, hhigh, -⟩ := accessOffset_cases hoff
    exact absurd ⟨hsize, h4, hlow, hhigh⟩ h

/-- Settles O53: an access that names no offset of the window ends in the bus error. -/
theorem busErrors : Obligations.BusErrors := by
  intro s u addr size h
  have hnone := accessOffset_eq_none h
  refine ⟨fun hn => ?_, fun w hn => ?_⟩ <;> rw [step_host hn] <;> simp only [hostAccess, hnone]

/- What a read answers (R212, R214). -/

/-- Taking a turn off the list leaves every word of the window (R100). -/
theorem readWord_turns (p : Params) (s : State) (rest : List Turn) (r : WinReg) :
    readWord p { s with port := { s.port with turns := rest } } r = readWord p s r := by cases r <;> rfl

theorem HostNext.readWord {a : HostAccess} {s u : State} (hn : HostNext a s u) (r : WinReg) :
    readWord params u r = readWord params s r := by
  obtain ⟨rest, -, rfl⟩ := hn
  exact readWord_turns params s rest r

theorem HostNext.big {a : HostAccess} {s u : State} (hn : HostNext a s u) : u.big = s.big := by
  obtain ⟨rest, -, rfl⟩ := hn
  rfl

theorem HostNext.byteIn {a : HostAccess} {s u : State} (hn : HostNext a s u) (j : Nat) : byteIn u j = byteIn s j := by
  obtain ⟨rest, -, rfl⟩ := hn
  rfl

/-- A read adds one word to the replies, and may draw a free value; nothing else changes (R212). -/
theorem hostRead_frame (p : Params) (r : WinReg) (s : State) :
    ∃ (v : Word) (k : Nat),
      hostRead p r s = { s with port := { s.port with replies := v :: s.port.replies, busyReads := k } } := by
  unfold hostRead
  split
  · exact ⟨_, _, rfl⟩
  · exact ⟨_, s.port.busyReads, rfl⟩

/-- While BUSY = 0, and at any time in the status group, a read answers the word (R214). -/
theorem hostRead_word {p : Params} {r : WinReg} {s : State} (h : s.ctl.busy = false ∨ readableWhileBusy r = true) :
    hostRead p r s = { s with port := { s.port with replies := readWord p s r :: s.port.replies } } := by
  rw [hostRead, if_neg]
  rcases h with h | h <;> simp [h]

theorem readableWhileBusy_winReg {off : Nat} (h : StatusOffset off) : readableWhileBusy (winReg params off) = true := by
  obtain ⟨hid, hp0, hp1, hctrl, hstatus, hcmd, hcode, herr, hcount, -⟩ := winReg_statusGroup
  rcases h with rfl | rfl | rfl | rfl | rfl | rfl | rfl | rfl | rfl <;>
    simp only [hid, hp0, hp1, hctrl, hstatus, hcmd, hcode, herr, hcount, readableWhileBusy]

/-- A byte-array register reads as an array where its words stand in the window (R206). -/
theorem arrayAt_of_words {n m : Nat} {s : State} {base : Nat} {v : Vector Byte n} (hm : n ≤ 4 * m)
    (h : ∀ j : Fin m, wordAt s (base + 4 * j.val) = getWord v j.val) : ArrayAt s base v := by
  intro j k hk hjk
  rw [h ⟨j, by omega⟩]
  exact getWord_byte v j k hk hjk

/-- The two words of a 64-bit register in the window make it (R213). -/
theorem pairAt_eq {s : State} {off : Nat} {x : BitVec 64} (hlo : wordAt s off = word64 x false)
    (hhi : wordAt s (off + 4) = word64 x true) : pairAt s off = x := by
  rw [pairAt, hlo, hhi, word64_append]

/-- The arrays of the window hold their byte strings, byte by byte (R120 to R126, R206). -/
theorem arrays_read (s : State) :
    ArrayAt s 0x080 s.cip.key ∧ ArrayAt s 0x0A0 s.str.iv ∧ ArrayAt s 0x0C0 s.str.cv
      ∧ ArrayAt s 0x0E0 s.str.trailer ∧ ArrayAt s 0x100 s.str.rxTrailer
      ∧ ArrayAt s 0x120 s.cip.blk ∧ ArrayAt s 0x140 s.cip.blk2 ∧ ArrayAt s 0x160 s.cip.rkey := by
  have array8 : ∀ {base v}, (∀ j : Fin 8, wordAt s (base + 4 * j.val) = getWord v j.val) → ArrayAt (n := 32) s base v :=
    arrayAt_of_words le_rfl
  refine ⟨array8 fun j => ?_, array8 fun j => ?_, array8 fun j => ?_, array8 fun j => ?_, array8 fun j => ?_,
    array8 fun j => ?_, array8 fun j => ?_, arrayAt_of_words (m := 4) le_rfl fun j => wordAt_eq (winReg_rkey j) s⟩ <;>
  obtain ⟨hkey, hiv, hcv, htrailer, hrx, hblk, hblk2⟩ := winReg_arrays j
  · exact wordAt_eq hkey s
  · exact wordAt_eq hiv s
  · exact wordAt_eq hcv s
  · exact wordAt_eq htrailer s
  · exact wordAt_eq hrx s
  · exact wordAt_eq hblk s
  · exact wordAt_eq hblk2 s

/-- The 64-bit registers of the window, each a pair of words (R131, R132, R213). -/
theorem pairs_read (s : State) :
    pairAt s 0x180 = s.str.len ∧ pairAt s 0x188 = s.str.nblk ∧ pairAt s 0x1A0 = s.str.off
      ∧ pairAt s 0x1AC = s.str.realLen ∧ pairAt s 0x1B4 = s.str.total ∧ pairAt s 0x1BC = s.str.lpad := by
  refine ⟨?_, ?_, ?_, ?_, ?_, ?_⟩
  · exact pairAt_eq (wordAt_single (r := .lenLo) (by decide) s) (wordAt_single (r := .lenHi) (by decide) s)
  · exact pairAt_eq (wordAt_single (r := .nblkLo) (by decide) s) (wordAt_single (r := .nblkHi) (by decide) s)
  · exact pairAt_eq (wordAt_single (r := .offLo) (by decide) s) (wordAt_single (r := .offHi) (by decide) s)
  · exact pairAt_eq (wordAt_single (r := .realLenLo) (by decide) s) (wordAt_single (r := .realLenHi) (by decide) s)
  · exact pairAt_eq (wordAt_single (r := .totalLo) (by decide) s) (wordAt_single (r := .totalHi) (by decide) s)
  · exact pairAt_eq (wordAt_single (r := .lpadLo) (by decide) s) (wordAt_single (r := .lpadHi) (by decide) s)

/-- The fields narrower than a word, each alone in its word but for ST_PAD (R107, R127, R132). -/
theorem fields_read (s : State) :
    (wordAt s 0x040).toNat = s.big.winSign.toNat ∧ (wordAt s 0x044).toNat = s.big.winLen.toNat
      ∧ (wordAt s 0x174).toNat = s.cip.idxBlock.toNat ∧ (wordAt s 0x178).toNat = s.cip.idxRound.toNat
      ∧ (wordAt s 0x1A8).toNat = 2 ^ 8 * s.str.padOff.toNat + s.str.padCount.toNat := by
  rw [wordAt_single (r := .biwSign) (by decide), wordAt_single (r := .biwLen) (by decide),
    wordAt_single (r := .idxBlock) (by decide), wordAt_single (r := .idxRound) (by decide),
    wordAt_single (r := .pad) (by decide)]
  refine ⟨?_, BitVec.toNat_setWidth_of_le (by decide), BitVec.toNat_setWidth_of_le (by decide),
    BitVec.toNat_setWidth_of_le (by decide), ?_⟩
  · have := Bool.toNat_le s.big.winSign
    simp only [readWord, flagAt_eq, BitVec.toNat_ofNat]
    omega
  · show ((s.str.padOff ++ s.str.padCount).setWidth 32).toNat = _
    rw [BitVec.toNat_setWidth_of_le (by decide), BitVec.toNat_append, Nat.shiftLeft_eq,
      Nat.mul_comm, Nat.two_pow_add_eq_or_of_lt s.str.padCount.isLt]

theorem wordAt_biwDig (s : State) (i : Fin Config.maxDigitsLimit) (h : i.val < 128) :
    wordAt s (0x400 + 4 * i.val) = s.big.winDig[i.val] := wordAt_eq (winReg_biwDig i h) s

/-- Settles O52: the map of the window, then what a read adds to the replies. -/
theorem readsHaveNoEffect : Obligations.ReadsHaveNoEffect := by
  refine ⟨fun s => ?_, fun s u off hn h4 hoff => ?_⟩
  · obtain ⟨hsign, hlen, hidxBlock, hidxRound, hpad⟩ := fields_read s
    obtain ⟨hkey, hiv, hcv, htrailer, hrx, hblk, hblk2, hrkey⟩ := arrays_read s
    obtain ⟨hstLen, hnblk, hstOff, hrealLen, htotal, hlpad⟩ := pairs_read s
    exact ⟨wordAt_single (r := .id) (by decide) s, wordAt_single (r := .param0) (by decide) s,
      wordAt_single (r := .param1) (by decide) s, hsign, hlen, wordAt_biwDig s, hkey, hiv, hcv, htrailer, hrx, hblk, hblk2,
      hrkey, wordAt_single (r := .idxCluster) (by decide) s, hidxBlock, hidxRound, hstLen, hnblk,
      wordAt_single (r := .cidx) (by decide) s, wordAt_single (r := .nclust) (by decide) s,
      wordAt_single (r := .blocks) (by decide) s, wordAt_single (r := .outLen) (by decide) s, hstOff, hpad, hrealLen,
      htotal, hlpad, wordAt_single (r := .hcount) (by decide) s, fun off h => wordAt_eq (winReg_reserved h) s⟩
  · rw [step_read hn h4 hoff]
    obtain ⟨v, k, hread⟩ := hostRead_frame params (winReg params off) u
    refine ⟨⟨v, k, congrArg _ hread⟩, fun hword => ?_⟩
    have hanswer : u.ctl.busy = false ∨ readableWhileBusy (winReg params off) = true :=
      hword.imp (hn.ctl_str.1 ▸ ·) readableWhileBusy_winReg
    rw [hostRead_word hanswer, hn.readWord]
    rfl

/- The bytes of CBUF (R207). -/

/-- CBUF after a write of one word: its four bytes stand at their indices, every other byte is as before (R207). -/
theorem Cbuf.byteAt_write_word (e : Nat) (m : List Host.Cell) (k : Nat) (w : Word) (j : Nat) :
    Cbuf.byteAt e (Cbuf.write m (4 * k) (bytesOfWord w)) j
      = if j / 4 = k then byteOfWord w (j % 4) else Cbuf.byteAt e m j := by
  have hlen : (bytesOfWord w).length = 4 := rfl
  split
  · next hj =>
    have hbyte : ∀ i (h : i < (bytesOfWord w).length), (bytesOfWord w)[i] = byteOfWord w i := by
      intro i h
      rw [hlen] at h
      interval_cases i <;> rfl
    rw [Cbuf.byteAt_write_inside e m (by omega) (by omega), hbyte]
    congr 1
    omega
  · exact Cbuf.byteAt_write_outside e m (by omega)

/-- The word of CBUF that holds bytes `4k` to `4k + 3` packs them, the first in the lowest bits (R207). -/
theorem readWord_cbuf_byte (s : State) (k : Fin 1032) {i : Nat} (hi : i < 4) :
    (readWord params s (.cbuf k)).extractLsb' (8 * i) 8 = byteIn s (4 * k.val + i) := by
  rw [readWord, wordOfBytes_byte _ _ _ _ _ hi]
  interval_cases i <;> rfl

theorem byteIn_writeData_cbuf (k : Fin 1032) (w : Word) (s : State) (j : Nat) :
    byteIn (writeData (.cbuf k) w s) j = if j / 4 = k.val then byteOfWord w (j % 4) else byteIn s j :=
  Cbuf.byteAt_write_word s.port.resets s.cbuf k.val w j

/-- Words with the same bytes are the same word (R206). -/
theorem word_ext {w w' : Word} (h : ∀ i, i < 4 → w.extractLsb' (8 * i) 8 = w'.extractLsb' (8 * i) 8) : w = w' := by
  rw [← wordOfBytes_byteOfWord w, ← wordOfBytes_byteOfWord w']
  simp only [byteOfWord, h 0, h 1, h 2, h 3, Nat.reduceLT]

/-- A word of CBUF after a write of one of its words (R207). -/
theorem readWord_cbuf_writeData (k k' : Fin 1032) (w : Word) (s : State) :
    readWord params (writeData (.cbuf k) w s) (.cbuf k') = if k' = k then w else readWord params s (.cbuf k') := by
  refine word_ext fun i hi => ?_
  have hdiv : (4 * k'.val + i) / 4 = k'.val := by omega
  have hmod : (4 * k'.val + i) % 4 = i := by omega
  rw [readWord_cbuf_byte _ _ hi, byteIn_writeData_cbuf, hdiv, hmod]
  simp only [Fin.val_inj]
  split
  · rfl
  · exact (readWord_cbuf_byte s k' hi).symm

/- A write to a data register (R203, R1106). -/

/-- Without a command in flight, and for a KEY word without a transfer open, a write to a data register is accepted
(R1106). -/
theorem writeWord_accepted {r : WinReg} {s : State} {w : Word} (hr : isDataReg r = true) (hb : s.ctl.busy = false)
    (hkey : isKeyWord r = true → s.str.sstate = .idle) : writeWord r w s = writeData r w s := by
  have hw : writeWord r w s = if isDataReg r then
      if s.ctl.busy then refuseWrite s
      else if isKeyWord r && decide (s.str.sstate ≠ .idle) then refuseWrite s
      else writeData r w s
    else s := by
    cases r with
    | ctrl | status | cmd => cases hr
    | _ => rfl
  have hopen : ¬(isKeyWord r && decide (s.str.sstate ≠ .idle)) = true := by simpa using hkey
  rw [hw, if_pos hr, hb, if_neg Bool.false_ne_true, if_neg hopen]

/-- An offset of an array is its base and a multiple of 4. -/
theorem exists_arrayIndex {off base n : Nat} (h4 : off % 4 = 0) (hb : base % 4 = 0) (hlow : base ≤ off)
    (hhigh : off < base + 4 * n) : ∃ j : Fin n, off = base + 4 * j.val :=
  ⟨⟨(off - base) / 4, by omega⟩, by simp only; omega⟩

theorem DataOffset.lt {off : Nat} (h : DataOffset off) : off < Config.windowBytes := by
  obtain ⟨-, hoff⟩ := h
  simp only [Config.windowBytes]
  omega

/-- The data offsets name data registers (R202). -/
theorem isDataReg_winReg {off : Nat} (h : DataOffset off) : isDataReg (winReg params off) = true := by
  have hsingle : ∀ o ∈ [0x40, 0x44, 0x170, 0x174, 0x178, 0x180, 0x184], isDataReg (winReg params o) = true := by
    decide +kernel
  obtain ⟨h4, hoff⟩ := h
  have hcase : off ∈ [0x40, 0x44, 0x170, 0x174, 0x178, 0x180, 0x184]
      ∨ (0x80 ≤ off ∧ off < 0xA0) ∨ (0xA0 ≤ off ∧ off < 0xC0) ∨ (0x100 ≤ off ∧ off < 0x120)
      ∨ (0x120 ≤ off ∧ off < 0x140) ∨ (0x140 ≤ off ∧ off < 0x160) ∨ (0x400 ≤ off ∧ off < 0x600)
      ∨ (0x1000 ≤ off ∧ off < 0x2020) := by
    simp only [List.mem_cons, List.not_mem_nil, or_false]
    omega
  rcases hcase with hin | ⟨hlow, hhigh⟩ | ⟨hlow, hhigh⟩ | ⟨hlow, hhigh⟩ | ⟨hlow, hhigh⟩ | ⟨hlow, hhigh⟩
    | ⟨hlow, hhigh⟩ | ⟨hlow, hhigh⟩
  · exact hsingle off hin
  · obtain ⟨j, rfl⟩ := exists_arrayIndex (n := 8) h4 rfl hlow hhigh
    obtain ⟨hkey, -⟩ := winReg_arrays j
    exact congrArg isDataReg hkey
  · obtain ⟨j, rfl⟩ := exists_arrayIndex (n := 8) h4 rfl hlow hhigh
    obtain ⟨-, hiv, -⟩ := winReg_arrays j
    exact congrArg isDataReg hiv
  · obtain ⟨j, rfl⟩ := exists_arrayIndex (n := 8) h4 rfl hlow hhigh
    obtain ⟨-, -, -, -, hrx, -⟩ := winReg_arrays j
    exact congrArg isDataReg hrx
  · obtain ⟨j, rfl⟩ := exists_arrayIndex (n := 8) h4 rfl hlow hhigh
    obtain ⟨-, -, -, -, -, hblk, -⟩ := winReg_arrays j
    exact congrArg isDataReg hblk
  · obtain ⟨j, rfl⟩ := exists_arrayIndex (n := 8) h4 rfl hlow hhigh
    obtain ⟨-, -, -, -, -, -, hblk2⟩ := winReg_arrays j
    exact congrArg isDataReg hblk2
  · obtain ⟨i, rfl⟩ := exists_arrayIndex (n := Config.maxDigitsLimit) h4 rfl hlow (hhigh.trans (by decide))
    exact congrArg isDataReg (winReg_biwDig i (by omega))
  · obtain ⟨k, rfl⟩ := exists_arrayIndex (n := 1032) h4 rfl hlow hhigh
    exact congrArg isDataReg (winReg_cbuf k)

theorem ne_reserved_of_isDataReg {r : WinReg} (h : isDataReg r = true) : r ≠ .reserved := by
  rintro rfl
  cases h

/-- Only a KEY offset names a KEY word (R120, R202). -/
theorem keyOffset_of_isKeyWord {off : Nat} (h4 : off % 4 = 0) (h : isKeyWord (winReg params off) = true) :
    KeyOffset off := by
  have hne : winReg params off ≠ .reserved := fun hr => by simp [hr, isKeyWord] at h
  have hoff := regOffset_winReg h4 hne
  cases hr : winReg params off with
  | key j =>
    have := j.isLt
    rw [hr, regOffset] at hoff
    exact ⟨h4, by omega, by omega⟩
  | _ => simp [hr, isKeyWord] at h

/- What a data register reads as after a write (R107, R120 to R134, R203). -/

/-- The low bits of a word, kept alone in a word. -/
theorem setWidth_extractLsb'_zero (w : Word) {n : Nat} (h : n ≤ 32) :
    (w.extractLsb' 0 n).setWidth 32 = w &&& BitVec.ofNat 32 (2 ^ n - 1) := by
  apply BitVec.eq_of_toNat_eq
  have hmask : 2 ^ n - 1 < 2 ^ 32 :=
    (Nat.sub_one_lt (by positivity)).trans_le (Nat.pow_le_pow_right (by decide) h)
  rw [BitVec.toNat_setWidth_of_le h, BitVec.extractLsb'_toNat, BitVec.toNat_and, BitVec.toNat_ofNat,
    Nat.mod_eq_of_lt hmask, Nat.and_two_pow_sub_one_eq_mod, Nat.shiftRight_zero]

theorem ofNat_flagAt_getLsbD_zero (w : Word) : BitVec.ofNat 32 (flagAt (w.getLsbD 0) 0) = w &&& 0x1 := by
  show _ = w &&& 1#32
  rw [BitVec.and_one_eq_setWidth_ofBool_getLsbD]
  cases w.getLsbD 0 <;> rfl

theorem word64_setWord64_same (x : BitVec 64) (hi : Bool) (w : Word) : word64 (setWord64 x hi w) hi = w := by
  cases hi with
  | false => exact BitVec.extractLsb'_append_eq_right
  | true => exact BitVec.extractLsb'_append_eq_left

theorem word64_setWord64_other (x : BitVec 64) (hi : Bool) (w : Word) :
    word64 (setWord64 x hi w) (!hi) = word64 x (!hi) := by
  cases hi with
  | false => exact BitVec.extractLsb'_append_eq_left
  | true => exact BitVec.extractLsb'_append_eq_right

theorem keptBits_eq_self {off : Nat} (w : Word) (h : off ≠ 0x40 ∧ off ≠ 0x44 ∧ off ≠ 0x174 ∧ off ≠ 0x178) :
    keptBits off w = w := by
  obtain ⟨hsign, hlen, hblock, hround⟩ := h
  rw [keptBits, if_neg hsign, if_neg hlen, if_neg hblock, if_neg hround]

/-- A data register reads back as the bits it keeps (R203). -/
theorem readWord_writeData_same {r : WinReg} (hr : isDataReg r = true) (w : Word) (s : State) :
    readWord params (writeData r w s) r = keptBits (regOffset r) w := by
  cases r with
  | biwSign => exact ofNat_flagAt_getLsbD_zero w
  | biwLen => exact setWidth_extractLsb'_zero w (n := 16) (by decide)
  | idxBlock => exact setWidth_extractLsb'_zero w (n := 8) (by decide)
  | idxRound => exact setWidth_extractLsb'_zero w (n := 5) (by decide)
  | idxCluster => rfl
  | lenLo => exact word64_setWord64_same s.str.len false w
  | lenHi => exact word64_setWord64_same s.str.len true w
  | biwDig i =>
    rw [keptBits_eq_self w (by simp only [regOffset]; omega)]
    exact Vector.getElem_set_self i.isLt
  | key j | iv j | rxTrailer j | blk j | blk2 j =>
    rw [keptBits_eq_self w (by simp only [regOffset]; omega)]
    exact getWord_setWord_same _ j.val w (by omega)
  | cbuf k =>
    rw [keptBits_eq_self w (by simp only [regOffset]; omega), readWord_cbuf_writeData, if_pos rfl]
  | _ => cases hr

/- What one part of the state shows: with other values there, a word whose own field is the same reads the same. -/

theorem readWord_window {p : Params} {s : State} {r : WinReg} {sign : Bool} {len : BitVec 16}
    {dig : Vector Word Config.maxDigitsLimit} (hsign : r = .biwSign → sign = s.big.winSign)
    (hlen : r = .biwLen → len = s.big.winLen) (hdig : ∀ i, r = .biwDig i → dig[i] = s.big.winDig[i]) :
    readWord p { s with big := { s.big with winSign := sign, winLen := len, winDig := dig } } r = readWord p s r := by
  cases r with
  | biwSign => simp only [readWord, hsign rfl]
  | biwLen => simp only [readWord, hlen rfl]
  | biwDig i => exact hdig i rfl
  | _ => rfl

theorem readWord_cipher {p : Params} {s : State} {r : WinReg} {c : CipherRegs}
    (hvalid : r = .status → c.keyValid = s.cip.keyValid)
    (hkey : ∀ j, r = .key j → getWord c.key j = getWord s.cip.key j)
    (hblk : ∀ j, r = .blk j → getWord c.blk j = getWord s.cip.blk j)
    (hblk2 : ∀ j, r = .blk2 j → getWord c.blk2 j = getWord s.cip.blk2 j) (hrkey : c.rkey = s.cip.rkey)
    (hcluster : r = .idxCluster → c.idxCluster = s.cip.idxCluster)
    (hblock : r = .idxBlock → c.idxBlock = s.cip.idxBlock) (hround : r = .idxRound → c.idxRound = s.cip.idxRound) :
    readWord p { s with cip := c } r = readWord p s r := by
  cases r with
  | status => simp only [readWord, statusWord, hvalid rfl]
  | key j => exact hkey j rfl
  | blk j => exact hblk j rfl
  | blk2 j => exact hblk2 j rfl
  | rkey j => simp only [readWord, hrkey]
  | idxCluster => exact hcluster rfl
  | idxBlock => simp only [readWord, hblock rfl]
  | idxRound => simp only [readWord, hround rfl]
  | _ => rfl

theorem readWord_stream {p : Params} {s : State} {r : WinReg} {iv rx : Block} {len : BitVec 64}
    (hiv : ∀ j, r = .iv j → getWord iv j = getWord s.str.iv j)
    (hrx : ∀ j, r = .rxTrailer j → getWord rx j = getWord s.str.rxTrailer j)
    (hlo : r = .lenLo → word64 len false = word64 s.str.len false)
    (hhi : r = .lenHi → word64 len true = word64 s.str.len true) :
    readWord p { s with str := { s.str with iv := iv, rxTrailer := rx, len := len } } r = readWord p s r := by
  cases r with
  | iv j => exact hiv j rfl
  | rxTrailer j => exact hrx j rfl
  | lenLo => exact hlo rfl
  | lenHi => exact hhi rfl
  | _ => rfl

theorem readWord_cbuf {p : Params} {s : State} {r : WinReg} {m : List Host.Cell} (h : ∀ k, r ≠ .cbuf k) :
    readWord p { s with cbuf := m } r = readWord p s r := by
  cases r with
  | cbuf k => exact absurd rfl (h k)
  | _ => rfl

theorem getWord_setWord_of_ne {n m : Nat} {c : Fin n → WinReg} {v : Vector Byte m} {i j : Fin n} {w : Word}
    (h : c i ≠ c j) : getWord (setWord v j w) i = getWord v i :=
  getWord_setWord_other v i j w fun hij => h (congrArg c (Fin.ext hij))

/-- Every other word reads as before, but STATUS after a write of a KEY word (R203). -/
theorem readWord_writeData_other {r r' : WinReg} (hr : r' ≠ r) (hkey : isKeyWord r = true → r' ≠ .status) (w : Word)
    (s : State) : readWord params (writeData r w s) r' = readWord params s r' := by
  cases r with
  | biwSign => exact readWord_window (fun h => absurd h hr) (fun _ => rfl) fun _ _ => rfl
  | biwLen => exact readWord_window (fun _ => rfl) (fun h => absurd h hr) fun _ _ => rfl
  | biwDig i =>
    refine readWord_window (fun _ => rfl) (fun _ => rfl) fun i' h => ?_
    exact Vector.getElem_set_ne i.isLt i'.isLt fun hi => hr (h.trans (congrArg _ (Fin.ext hi.symm)))
  | key j =>
    exact readWord_cipher (fun h => absurd h (hkey rfl)) (fun j' h => getWord_setWord_of_ne (c := .key) (h ▸ hr))
      (fun _ _ => rfl) (fun _ _ => rfl) rfl (fun _ => rfl) (fun _ => rfl) fun _ => rfl
  | blk j =>
    exact readWord_cipher (fun _ => rfl) (fun _ _ => rfl) (fun j' h => getWord_setWord_of_ne (c := .blk) (h ▸ hr))
      (fun _ _ => rfl) rfl (fun _ => rfl) (fun _ => rfl) fun _ => rfl
  | blk2 j =>
    exact readWord_cipher (fun _ => rfl) (fun _ _ => rfl) (fun _ _ => rfl)
      (fun j' h => getWord_setWord_of_ne (c := .blk2) (h ▸ hr)) rfl (fun _ => rfl) (fun _ => rfl) fun _ => rfl
  | idxCluster =>
    exact readWord_cipher (fun _ => rfl) (fun _ _ => rfl) (fun _ _ => rfl) (fun _ _ => rfl) rfl (fun h => absurd h hr)
      (fun _ => rfl) fun _ => rfl
  | idxBlock =>
    exact readWord_cipher (fun _ => rfl) (fun _ _ => rfl) (fun _ _ => rfl) (fun _ _ => rfl) rfl (fun _ => rfl)
      (fun h => absurd h hr) fun _ => rfl
  | idxRound =>
    exact readWord_cipher (fun _ => rfl) (fun _ _ => rfl) (fun _ _ => rfl) (fun _ _ => rfl) rfl (fun _ => rfl)
      (fun _ => rfl) fun h => absurd h hr
  | iv j =>
    exact readWord_stream (fun j' h => getWord_setWord_of_ne (c := .iv) (h ▸ hr)) (fun _ _ => rfl) (fun _ => rfl)
      fun _ => rfl
  | rxTrailer j =>
    exact readWord_stream (fun _ _ => rfl) (fun j' h => getWord_setWord_of_ne (c := .rxTrailer) (h ▸ hr))
      (fun _ => rfl) fun _ => rfl
  | lenLo =>
    exact readWord_stream (fun _ _ => rfl) (fun _ _ => rfl) (fun h => absurd h hr)
      fun _ => word64_setWord64_other s.str.len false w
  | lenHi =>
    exact readWord_stream (fun _ _ => rfl) (fun _ _ => rfl) (fun _ => word64_setWord64_other s.str.len true w)
      fun h => absurd h hr
  | cbuf k =>
    by_cases hcbuf : ∃ k', r' = .cbuf k'
    · obtain ⟨k', rfl⟩ := hcbuf
      rw [readWord_cbuf_writeData, if_neg fun h => hr (congrArg _ h)]
    · exact readWord_cbuf fun k' h => hcbuf ⟨k', h⟩
  | _ => rfl

/-- A write to a data register changes no general register, no recorded hash, no control register and no field of the
model's own (R203). -/
theorem DataWrite.frame {w : Word} {s t : State} {r : WinReg} (h : DataWrite w s r t) :
    t.big.gpr = s.big.gpr ∧ t.str.hashes = s.str.hashes ∧ t.ctl = s.ctl ∧ t.port = s.port := by
  cases h <;> exact ⟨rfl, rfl, rfl, rfl⟩

/-- Settles O54: the write is accepted, the register keeps the word, and no other word shows what it changed. -/
theorem writeThenRead : Obligations.WriteThenRead := by
  intro s u off w hn hb hdata hkey
  obtain ⟨h4, -⟩ := id hdata
  obtain ⟨hctl, hstr⟩ := hn.ctl_str
  have hreg := isDataReg_winReg hdata
  have hne := ne_reserved_of_isDataReg hreg
  have hkeyWord : isKeyWord (winReg params off) = true → KeyOffset off := keyOffset_of_isKeyWord h4
  have hidle : isKeyWord (winReg params off) = true → u.str.sstate = .idle := fun h => hstr ▸ hkey (hkeyWord h)
  obtain ⟨hgpr, hhashes, hctl', hport⟩ := (writeData_dataWrite (winReg params off) w u).frame
  rw [step_write hn h4 hdata.lt, writeWord_accepted hreg (hctl ▸ hb) hidle]
  refine ⟨_, rfl, ?_, fun off' h4' _ hoff hstatus => ?_, hgpr.trans (congrArg _ hn.big),
    hhashes.trans (congrArg _ hstr), hctl'.trans hctl, hport⟩
  · rw [wordAt, readWord_writeData_same hreg, regOffset_winReg h4 hne]
  · have hother : winReg params off' ≠ winReg params off := fun h => hoff (winReg_injective h4 h4' hne h.symm).symm
    have hstatusReg : winReg params 0x014 = .status := winReg_single (0x014, .status) (by decide)
    have hstatus' : isKeyWord (winReg params off) = true → winReg params off' ≠ .status := fun h heq =>
      hstatus (hkeyWord h) (winReg_injective h4' rfl (by simp [heq]) (heq.trans hstatusReg.symm))
    rw [wordAt, readWord_writeData_other hother hstatus', hn.readWord]
    rfl

/-- Settles O56, from the bytes of a written word, those of a read word, and those of a block. -/
theorem cbufByteOrder : Obligations.CbufByteOrder := by
  intro s u k w hk hb
  have hreg : winReg params (0x1000 + 4 * k) = .cbuf ⟨k, hk⟩ := winReg_cbuf ⟨k, hk⟩
  have hin : 0x1000 + 4 * k < Config.windowBytes := by simp only [Config.windowBytes]; omega
  refine ⟨fun hn => ?_, fun hn => ?_, fun i j => Cbuf.getElem_block _ _ _ _ j.isLt⟩
  · rw [step_write hn (by omega) hin, hreg, writeWord_accepted rfl (hn.ctl_str.1 ▸ hb) (by simp [isKeyWord])]
    refine ⟨_, rfl, rfl, fun j => ?_⟩
    rw [← hn.byteIn j]
    exact byteIn_writeData_cbuf ⟨k, hk⟩ w u j
  · rw [step_read hn (by omega) hin, hreg, hostRead_word (.inl (hn.ctl_str.1 ▸ hb))]
    refine ⟨_, rfl, fun i hi => ?_⟩
    rw [readWord_cbuf_byte u ⟨k, hk⟩ hi, hn.byteIn]

end Sys2Proof.Machine
end

section
/-! PROOFS. The command encoding (30_encoding.md R300 to R307): what the decoder answers, row by row of R306, and the
round trip between words and well-formed commands. -/

namespace Sys2Proof

open Machine Laws.EncodedFields

/- Register fields and register names (R304). -/

theorem regOfIndex_regIndex {r : RegName} (h : r.wf = true) : regOfIndex (regIndex r) = r := by
  cases r with
  | general i => simp [regIndex, regOfIndex]
  | const c => cases c <;> rfl
  | reserved n =>
    simp only [RegName.wf, decide_eq_true_eq] at h
    rw [regIndex, regOfIndex, dif_neg (by omega)]
    iterate 7 rw [if_neg (by omega)]

theorem regIndex_regOfIndex (n : Nat) : regIndex (regOfIndex n) = n := by
  unfold regOfIndex
  split_ifs <;> simp only [regIndex, constIndex] <;> omega

theorem wf_regOfIndex {n : Nat} (h : n < 32) : (regOfIndex n).wf = true := by
  unfold regOfIndex
  split_ifs <;> simp only [RegName.wf, decide_eq_true_eq]
  omega

/- The fields of a word as digits of its value (R301 to R303). -/

theorem toNat_field (w : Word) (lo n : Nat) : (w.extractLsb' lo n).toNat = w.toNat / 2 ^ lo % 2 ^ n := by
  rw [BitVec.extractLsb'_toNat, Nat.shiftRight_eq_div_pow]

theorem fieldOpcode_eq_mod (w : Word) : fieldOpcode w = w.toNat % 256 := by
  rw [fieldOpcode, toNat_field, pow_zero, Nat.div_one, show 2 ^ 8 = 256 by rfl]

theorem fieldRd_lt (w : Word) : fieldRd w < 32 := (w.extractLsb' 8 5).isLt

theorem fieldRa_lt (w : Word) : fieldRa w < 32 := (w.extractLsb' 13 5).isLt

theorem fieldRb_lt (w : Word) : fieldRb w < 32 := (w.extractLsb' 18 5).isLt

theorem fieldRc_lt (w : Word) : fieldRc w < 32 := (w.extractLsb' 23 5).isLt

/-- The immediate in two's complement (R302). -/
theorem fieldImm_eq_ite (w : Word) :
    fieldImm w =
      if 2 ^ 18 ≤ w.toNat / 2 ^ 13 then (w.toNat / 2 ^ 13 : Nat) - (2 : Int) ^ 19 else (w.toNat / 2 ^ 13 : Nat) := by
  have hmod : w.toNat / 2 ^ 13 % 2 ^ 19 = w.toNat / 2 ^ 13 := Nat.mod_eq_of_lt (by omega)
  rw [fieldImm, BitVec.toInt_eq_toNat_cond, toNat_field, hmod]
  split_ifs <;> omega

theorem immWf_fieldImm (w : Word) : immWf (fieldImm w) = true := by
  simp only [immWf, decide_eq_true_eq, fieldImm_eq_ite]
  split_ifs <;> omega

theorem fieldImm_wordI {op rd : Nat} {imm : Int} (h0 : op < 256) (h1 : rd < 32) (himm : immWf imm = true) :
    fieldImm (wordI op rd imm) = imm := by
  simp only [immWf, decide_eq_true_eq] at himm
  rw [fieldImm, immBits_wordI h0 h1, BitVec.toInt_ofInt_eq_self (by decide) (by omega) (by omega)]

/- A word is the word of its own fields: each bit lies in one of them (R301 to R303). -/

theorem wordR_eq {w : Word} {op rd ra rb rc : Nat} (hop : fieldOpcode w = op) (hrd : fieldRd w = rd)
    (hra : fieldRa w = ra) (hrb : fieldRb w = rb) (hrc : fieldRc w = rc) (hres : fieldRes w = 0) :
    wordR op rd ra rb rc = w := by
  subst hop hrd hra hrb hrc
  apply BitVec.eq_of_toNat_eq
  simp only [fieldRes, toNat_field] at hres
  simp only [wordR, fieldOpcode, fieldRd, fieldRa, fieldRb, fieldRc, toNat_field, BitVec.toNat_ofNat]
  omega

theorem wordI_eq {w : Word} {op : Nat} (hop : fieldOpcode w = op) : wordI op (fieldRd w) (fieldImm w) = w := by
  subst hop
  apply BitVec.eq_of_toNat_eq
  simp only [wordI, fieldOpcode, fieldRd, fieldImm, BitVec.ofInt_toInt, toNat_field, BitVec.toNat_ofNat]
  omega

theorem wordN_eq {w : Word} {op : Nat} (hop : fieldOpcode w = op) (hhigh : fieldHigh w = 0) : wordN op = w := by
  subst hop
  apply BitVec.eq_of_toNat_eq
  simp only [fieldHigh, toNat_field] at hhigh
  simp only [wordN, fieldOpcode, toNat_field, BitVec.toNat_ofNat]
  omega

/- The decoder, said once: the opcode picks the row, the row's unused fields must be 0, the others are the operands. -/

/-- The command of the same row as the one given, with the fields of `w` as operands; a format-N
command has none. -/
def withFields (w : Word) : Instr → Instr
  | .biMov _ _ => .biMov (regOfIndex (fieldRd w)) (regOfIndex (fieldRa w))
  | .biLdi _ _ => .biLdi (regOfIndex (fieldRd w)) (fieldImm w)
  | .biRel _ => .biRel (regOfIndex (fieldRa w))
  | .biLoad _ => .biLoad (regOfIndex (fieldRd w))
  | .biStore _ => .biStore (regOfIndex (fieldRa w))
  | .biCmp _ _ => .biCmp (regOfIndex (fieldRa w)) (regOfIndex (fieldRb w))
  | .biAdd _ _ _ => .biAdd (regOfIndex (fieldRd w)) (regOfIndex (fieldRa w)) (regOfIndex (fieldRb w))
  | .biSub _ _ _ => .biSub (regOfIndex (fieldRd w)) (regOfIndex (fieldRa w)) (regOfIndex (fieldRb w))
  | .biMul _ _ _ => .biMul (regOfIndex (fieldRd w)) (regOfIndex (fieldRa w)) (regOfIndex (fieldRb w))
  | .biDiv _ _ _ => .biDiv (regOfIndex (fieldRd w)) (regOfIndex (fieldRa w)) (regOfIndex (fieldRb w))
  | .biMod _ _ _ => .biMod (regOfIndex (fieldRd w)) (regOfIndex (fieldRa w)) (regOfIndex (fieldRb w))
  | .biModpow _ _ _ _ => .biModpow (regOfIndex (fieldRd w)) (regOfIndex (fieldRa w)) (regOfIndex (fieldRb w))
      (regOfIndex (fieldRc w))
  | .biModinv _ _ _ => .biModinv (regOfIndex (fieldRd w)) (regOfIndex (fieldRa w)) (regOfIndex (fieldRb w))
  | .keyDerive _ => .keyDerive (regOfIndex (fieldRa w))
  | i => i

theorem requireZero_eq_ok {w : Word} {unused : List Nat} {i j : Instr} :
    requireZero w unused i = .ok j ↔ (∀ f ∈ unused, f = 0) ∧ i = j := by
  simp only [requireZero, List.all_eq_true, beq_iff_eq]
  split_ifs with h
  · simp only [Except.ok.injEq, iff_and_self]
    exact fun _ => h
  · simp only [h, false_and]

/-- A word with the opcode of a row is a command of that row, if the unused fields are 0 (R305, R306). -/
theorem decode_of_opcode {w : Word} {i : Instr} (h : fieldOpcode w = opcode i) :
    decode w = requireZero w (unusedFields w i) (withFields w i) := by
  unfold decode
  rw [h]
  cases i <;> rfl

/-- A command stands in the row of its word's opcode (R306): by the arms of the decoder, of which BI.LDI's checks no field
and the last is the error. -/
theorem fieldOpcode_of_decode {w : Word} {i : Instr} (h : decode w = .ok i) : fieldOpcode w = opcode i := by
  unfold decode at h
  split at h
  case h_3 hop => cases h; exact hop
  case h_28 => cases h
  all_goals
    next hop =>
    obtain ⟨-, rfl⟩ := requireZero_eq_ok.mp h
    exact hop

theorem decode_eq_ok_iff {w : Word} {i : Instr} :
    decode w = .ok i ↔ fieldOpcode w = opcode i ∧ (∀ f ∈ unusedFields w i, f = 0) ∧ withFields w i = i := by
  constructor
  · intro h
    have hop := fieldOpcode_of_decode h
    rw [decode_of_opcode hop, requireZero_eq_ok] at h
    exact ⟨hop, h⟩
  · rintro ⟨hop, h⟩
    rw [decode_of_opcode hop, requireZero_eq_ok]
    exact h

/- From a command to its word and back (R301 to R306). -/

/-- The word of a well-formed command carries the opcode of its row, and 0 in the unused fields. -/
theorem encode_fields : ∀ i : Instr, Statement i
  | .nop => nop
  | .biMov rd ra => biMov rd ra
  | .biLdi rd imm => biLdi rd imm
  | .biRel ra => biRel ra
  | .biLoad rd => biLoad rd
  | .biStore ra => biStore ra
  | .biCmp ra rb => biCmp ra rb
  | .biAdd rd ra rb => biAdd rd ra rb
  | .biSub rd ra rb => biSub rd ra rb
  | .biMul rd ra rb => biMul rd ra rb
  | .biDiv rd ra rb => biDiv rd ra rb
  | .biMod rd ra rb => biMod rd ra rb
  | .biModpow rd ra rb rc => biModpow rd ra rb rc
  | .biModinv rd ra rb => biModinv rd ra rb
  | .keyCommit => keyCommit
  | .keyDerive ra => keyDerive ra
  | .rkGen => rkGen
  | .bcEnc => bcEnc
  | .bcDec => bcDec
  | .blkXor => blkXor
  | .blkLadd => blkLadd
  | .blkCmp => blkCmp
  | .stInite => stInite
  | .stInitd => stInitd
  | .stCluster => stCluster
  | .stFinish => stFinish
  | .stCleanup => stCleanup

/-- The operand fields of a well-formed command's word name its operands. -/
theorem withFields_encode {i : Instr} (h : i.wf = true) : withFields (encode i) i = i := by
  cases i with
  | nop | keyCommit | rkGen | bcEnc | bcDec | blkXor | blkLadd | blkCmp => rfl
  | stInite | stInitd | stCluster | stFinish | stCleanup => rfl
  | biLdi rd imm =>
    simp only [Instr.wf, Bool.and_eq_true] at h
    obtain ⟨hrd, himm⟩ := h
    have hlt := regIndex_lt hrd
    simp [withFields, encode, fieldRd_wordI, fieldImm_wordI, hlt, himm, regOfIndex_regIndex hrd]
  | _ =>
    simp only [Instr.wf, Bool.and_eq_true] at h
    simp [withFields, encode, fieldRd_wordR, fieldRa_wordR, fieldRb_wordR, fieldRc_wordR, regIndex_lt,
      regOfIndex_regIndex, h]

/-- Settles O1: the word has its row's opcode, 0 in the unused fields, and the operands in the others. -/
theorem decodeOfEncoded : Obligations.DecodeOfEncoded := by
  intro i hwf
  obtain ⟨hop, hunused⟩ := encode_fields i hwf
  exact decode_eq_ok_iff.mpr ⟨hop, hunused, withFields_encode hwf⟩

/- From a word to its command and back (R305). -/

theorem wf_withFields (w : Word) (i : Instr) : (withFields w i).wf = true := by
  cases i <;> simp [withFields, Instr.wf, wf_regOfIndex, fieldRd_lt, fieldRa_lt, fieldRb_lt, fieldRc_lt, immWf_fieldImm]

/-- A word of a row is the word of the command with its fields as operands. -/
theorem encode_withFields {w : Word} {i : Instr} (hop : fieldOpcode w = opcode i)
    (hunused : ∀ f ∈ unusedFields w i, f = 0) : encode (withFields w i) = w := by
  cases i with
  | nop | keyCommit | rkGen | bcEnc | bcDec | blkXor | blkLadd | blkCmp =>
    exact wordN_eq hop (hunused _ (List.mem_singleton_self _))
  | stInite | stInitd | stCluster | stFinish | stCleanup =>
    exact wordN_eq hop (hunused _ (List.mem_singleton_self _))
  | biLdi rd imm =>
    rw [withFields, encode, regIndex_regOfIndex]
    exact wordI_eq hop
  | _ =>
    simp only [unusedFields, List.forall_mem_cons] at hunused
    simp only [withFields, encode, regIndex_regOfIndex]
    apply wordR_eq hop <;> simp only [hunused]

/-- Settles O2: the command is the one that `withFields` reads off the word. -/
theorem encodeOfDecoded : Obligations.EncodeOfDecoded := by
  intro w i h
  obtain ⟨hop, hunused, hfields⟩ := decode_eq_ok_iff.mp h
  have hwf := wf_withFields w i
  have hword := encode_withFields hop hunused
  rw [hfields] at hwf hword
  exact ⟨hwf, hword⟩

/- The legal words (R305, R306, R307). -/

/-- The fields the row marks "-", and res, as (lowest bit, width) (R305). -/
def unusedBits : Instr → List (Nat × Nat)
  | .biMov _ _ => [(18, 5), (23, 5), (28, 4)]
  | .biLdi _ _ => []
  | .biRel _ => [(8, 5), (18, 5), (23, 5), (28, 4)]
  | .biLoad _ => [(13, 5), (18, 5), (23, 5), (28, 4)]
  | .biStore _ => [(8, 5), (18, 5), (23, 5), (28, 4)]
  | .biCmp _ _ => [(8, 5), (23, 5), (28, 4)]
  | .biModpow _ _ _ _ => [(28, 4)]
  | .keyDerive _ => [(8, 5), (18, 5), (23, 5), (28, 4)]
  | .biAdd _ _ _ | .biSub _ _ _ | .biMul _ _ _ | .biDiv _ _ _ | .biMod _ _ _ | .biModinv _ _ _ => [(23, 5), (28, 4)]
  | .nop | .keyCommit | .rkGen | .bcEnc | .bcDec | .blkXor | .blkLadd | .blkCmp => [(8, 24)]
  | .stInite | .stInitd | .stCluster | .stFinish | .stCleanup => [(8, 24)]

theorem unusedFields_eq_map (w : Word) (i : Instr) :
    unusedFields w i = (unusedBits i).map fun f => w.toNat / 2 ^ f.1 % 2 ^ f.2 := by
  cases i <;>
    simp only [unusedFields, unusedBits, List.map_cons, List.map_nil, fieldRd, fieldRa, fieldRb, fieldRc, fieldRes,
      fieldHigh, toNat_field]

/-- One command of each row of R306, in its order. -/
def rowCommands : List Instr :=
  let r := RegName.general 0
  [.nop, .biMov r r, .biLdi r 0, .biRel r, .biLoad r, .biStore r, .biCmp r r, .biAdd r r r, .biSub r r r, .biMul r r r,
    .biDiv r r r, .biMod r r r, .biModpow r r r r, .biModinv r r r, .keyCommit, .keyDerive r, .rkGen, .bcEnc, .bcDec,
    .blkXor, .blkLadd, .blkCmp, .stInite, .stInitd, .stCluster, .stFinish, .stCleanup]

theorem opcodeMap_eq_map : opcodeMap = rowCommands.map fun i => (opcode i, unusedBits i) := rfl

theorem row_mem_opcodeMap (i : Instr) : (opcode i, unusedBits i) ∈ opcodeMap := by
  cases i <;> simp only [opcode, unusedBits] <;> decide

/-- The opcode map and the rows of the commands are one table. -/
theorem legalWord_iff_row (w : Word) :
    LegalWord w ↔ ∃ i, fieldOpcode w = opcode i ∧ ∀ f ∈ unusedFields w i, f = 0 := by
  simp only [fieldOpcode_eq_mod, unusedFields_eq_map, List.forall_mem_map]
  constructor
  · rintro ⟨row, hrow, hop, hunused⟩
    rw [opcodeMap_eq_map] at hrow
    obtain ⟨i, -, rfl⟩ := List.mem_map.mp hrow
    exact ⟨i, hop, hunused⟩
  · rintro ⟨i, hop, hunused⟩
    exact ⟨_, row_mem_opcodeMap i, hop, hunused⟩

theorem legalWord_iff_decode (w : Word) : LegalWord w ↔ ∃ i, decode w = .ok i := by
  rw [legalWord_iff_row]
  constructor
  · rintro ⟨i, hop, hunused⟩
    exact ⟨withFields w i, by rw [decode_of_opcode hop, requireZero_eq_ok]; exact ⟨hunused, rfl⟩⟩
  · rintro ⟨i, h⟩
    obtain ⟨hop, hunused, -⟩ := decode_eq_ok_iff.mp h
    exact ⟨i, hop, hunused⟩

/-- Taking a turn off the list leaves the control registers (R100). -/
theorem Machine.EngineNext.ctl_eq {s u : State} (hn : EngineNext s u) : u.ctl = s.ctl := by
  rcases hn with ⟨-, rfl⟩ | ⟨rest, -, rfl⟩ <;> rfl

/-- A word in flight that is no command raises ILLEGAL_OPCODE (R307). -/
theorem Machine.step_of_not_decode {s u : State} (hn : EngineNext s u) (hb : s.ctl.busy = true)
    (h : ∀ i, decode s.ctl.lastCmd ≠ .ok i) : step s = .next (errored .illegalOpcode u) := by
  rw [← hn.ctl_eq] at hb h
  rw [step_engine hn, engineTurn, if_pos hb, runCommand]
  split
  · next i hi => exact absurd hi (h i)
  · rw [raiseError_eq]

/-- Settles O4: the opcode map and the decoder admit the same words, and the engine refuses the others. -/
theorem legalWords : Obligations.LegalWords :=
  ⟨legalWord_iff_decode, fun _ _ hn hb hlegal =>
    step_of_not_decode hn hb fun i hi => hlegal ((legalWord_iff_decode _).mpr ⟨i, hi⟩)⟩

/- Format I (R302). -/

/-- Settles O5: BI.LDI's row has no unused field, and a decoded command is well-formed. -/
theorem immediateField : Obligations.ImmediateField := by
  refine ⟨fun w hop => ?_, fun w rd imm h => ?_⟩
  · have hrow : fieldOpcode w = opcode (.biLdi (.general 0) 0) := (fieldOpcode_eq_mod w).trans hop
    rw [decode_of_opcode hrow, requireZero_eq_ok]
    refine ⟨fun _ hf => absurd hf List.not_mem_nil, ?_⟩
    rw [withFields, fieldImm_eq_ite, fieldRd, toNat_field]
  · obtain ⟨hwf, -⟩ := encodeOfDecoded w _ h
    simp only [Instr.wf, immWf, Bool.and_eq_true, decide_eq_true_eq] at hwf
    exact ⟨(fieldOpcode_eq_mod w).symm.trans (fieldOpcode_of_decode h), hwf.2⟩

/- The words of the test vectors (95_test_vectors.md section 2). -/

/-- Words that the spec calls illegal: a non-zero unused field, or an opcode that is not in the map. -/
theorem not_legalWord_spec :
    ∀ w ∈ [(0x00000100 : Word), 0x00100001, 0x10000110, 0x00000033, 0x00000016, 0x000000FF], ¬LegalWord w := by
  simp only [List.forall_mem_cons]
  unfold LegalWord
  exact ⟨by decide, by decide, by decide, by decide, by decide, by decide, nofun⟩

/-- Settles O3: the listed words are evaluated, and those called illegal are no legal words. -/
theorem specWordsDecode : Obligations.SpecWordsDecode := by
  unfold Obligations.SpecWordsDecode
  iterate 37 refine ⟨by decide, ?_⟩
  exact fun w hw i h => not_legalWord_spec w hw ((legalWord_iff_decode w).mpr ⟨i, h⟩)

end Sys2Proof
end

section
/-! PROOFS. The shared rules of the BigInt commands: which sources a completed command clears, and which error the operand
preamble raises (40_bigint_core.md R401 to R404, R414). -/

namespace Sys2Proof.Machine

/- The two ends of a command, read off its rule (R1101, R1202). -/

theorem exec_of_ok {i : Instr} {s u : State} (h : commandRule params i s = .ok u) : exec i s = .next (complete u) := by
  rw [exec_eq, h, finishCommand_ok]

theorem exec_of_error {i : Instr} {s : State} {c : ErrCode} (h : commandRule params i s = .error c) :
    exec i s = .next (errored c s) := by
  rw [exec_eq, h, finishCommand_error, raiseError_eq]

/- The register file after a command (R402, R403). -/

/-- The source fields whose general registers hold no value once the command has computed: all of a consuming command
(R403), and the one of BI.REL (R414). -/
def clearedSources : Instr → List RegName
  | .biRel ra => [ra]
  | i =>
    match operandShape i with
    | some (_, srcs, true) => srcs
    | _ => []

/-- In the words of R403: a source field is cleared if the command consumes, or if it is what BI.REL releases. -/
theorem mem_clearedSources {i : Instr} {dst : Option RegName} {srcs : List RegName} {cons : Bool}
    (h : operandShape i = some (dst, srcs, cons)) (r : RegName) :
    r ∈ clearedSources i ↔ r ∈ srcs ∧ (cons = true ∨ i = .biRel r) := by
  cases i <;> simp only [operandShape, reduceCtorEq, Option.some.injEq, Prod.mk.injEq] at h <;>
    obtain ⟨-, rfl, rfl⟩ := h <;> simp [clearedSources, operandShape, eq_comm]

theorem consumedRegs_getElem (g : Vector (Option Int) 16) (srcs : List RegName) (j : Fin 16) :
    (consumedRegs g srcs)[j.val] = if RegName.general j ∈ srcs then none else g[j.val] := by
  simp [consumedRegs]

theorem writeReg_getElem_ne {r : RegName} {j : Fin 16} (h : r ≠ .general j) (s : State) (v : Int) :
    (writeReg s r v).big.gpr[j.val] = s.big.gpr[j.val] := by
  cases r with
  | general i =>
    rw [writeReg, writeGpr_big_gpr, Vector.getElem_set_ne]
    exact fun hij => h (congrArg RegName.general (Fin.ext hij))
  | const c => rfl
  | reserved n => rfl

/-- Off its destination, a command leaves the register file with `cleared` consumed. -/
def ClearsOff (dst : Option RegName) (cleared : List RegName) (s : State) (r : CmdResult) : Prop :=
  ∀ u, r = .ok u → ∀ j : Fin 16, dst ≠ some (.general j) →
    u.big.gpr[j.val] = (consumedRegs s.big.gpr cleared)[j.val]

theorem clearsOff_withOperands {s : State} {d dst : Option RegName} {cleared srcs : List RegName} {cons : Bool}
    {body : CmdResult} (h : ClearsOff d cleared s body) : ClearsOff d cleared s (withOperands s dst srcs cons body) :=
  fun u hu => h u (withOperands_ok.mp hu).2

theorem clearsOff_error {dst : Option RegName} {cleared : List RegName} {s : State} {c : ErrCode} :
    ClearsOff dst cleared s (.error c) := fun _ h => nomatch h

theorem clearsOff_ite {P : Prop} [Decidable P] {dst : Option RegName} {cleared : List RegName} {s : State}
    {a b : CmdResult} (ha : ClearsOff dst cleared s a) (hb : ClearsOff dst cleared s b) :
    ClearsOff dst cleared s (if P then a else b) := by
  split
  · exact ha
  · exact hb

/-- A command that clears nothing, and whose effect leaves the registers other than its destination. -/
theorem clearsOff_ok {dst : Option RegName} {s t : State}
    (h : ∀ j : Fin 16, dst ≠ some (.general j) → t.big.gpr[j.val] = s.big.gpr[j.val]) : ClearsOff dst [] s (.ok t) := by
  intro u hu j hj
  obtain rfl := Except.ok.inj hu
  rw [consumedRegs_getElem, if_neg List.not_mem_nil]
  exact h j hj

theorem clearsOff_consume {dst : Option RegName} {s t : State} (ra : RegName) (ht : t.big = s.big) :
    ClearsOff dst [ra] s (.ok (consume t ra)) := by
  intro u hu j _
  obtain rfl := Except.ok.inj hu
  rw [show consume t ra = _ from foldl_consume [ra] t, ← ht]

/-- The destination write touches the destination and the consumed sources only (R402). -/
theorem clearsOff_commit {p : Params} {s : State} {rd : RegName} {v : Int} {srcs : List RegName} :
    ClearsOff (some rd) srcs s (commit p s rd v srcs) := by
  intro u hu j hj
  obtain ⟨-, rfl⟩ := commit_ok hu
  rw [writeReg_getElem_ne (fun h => hj (congrArg some h)), foldl_consume]

theorem clearsOff_commitValue {p : Params} {s : State} {rd : RegName} {v : Except ErrCode Int} {srcs : List RegName} :
    ClearsOff (some rd) srcs s (commitValue p s rd v srcs) := by
  intro u hu
  obtain ⟨x, -, hx⟩ := commitValue_ok hu
  exact clearsOff_commit u hx

/-- The single-use discipline, command by command (R403, R414). -/
theorem commandRule_clearsOff {i : Instr} {dst : Option RegName} {srcs : List RegName} {cons : Bool}
    (h : operandShape i = some (dst, srcs, cons)) (p : Params) (s : State) :
    ClearsOff dst (clearedSources i) s (commandRule p i s) := by
  cases i <;> simp only [operandShape, reduceCtorEq, Option.some.injEq, Prod.mk.injEq] at h <;> obtain ⟨rfl, -, -⟩ := h
  case biMov rd ra =>
    exact clearsOff_withOperands (clearsOff_ok fun j hj => writeReg_getElem_ne (fun h => hj (congrArg some h)) s _)
  case biLdi => exact clearsOff_withOperands clearsOff_commit
  case biRel ra =>
    rw [commandRule, relRule_of_preamble]
    exact clearsOff_withOperands (clearsOff_consume ra rfl)
  case biLoad => exact clearsOff_withOperands (clearsOff_ite clearsOff_error clearsOff_commit)
  case biStore | biCmp => exact clearsOff_withOperands (clearsOff_ok fun j _ => rfl)
  case biAdd | biSub | biMul => exact clearsOff_withOperands clearsOff_commit
  case biDiv | biMod | biModpow | biModinv => exact clearsOff_withOperands clearsOff_commitValue
  case keyDerive ra =>
    exact clearsOff_withOperands <| clearsOff_ite clearsOff_error <|
      clearsOff_ite (clearsOff_consume ra rfl) clearsOff_error

/-- Settles O11: `commandRule_clearsOff`, and the frame of the commands without register fields. -/
theorem registerFileFrame : Obligations.RegisterFileFrame := by
  intro i s t ht hne j
  refine ⟨fun dst srcs cons hshape hdst => ?_, fun hnone => by rw [(exec_frame ht).gpr hnone]⟩
  rcases exec_cases ht with ⟨u, hu, rfl⟩ | ⟨c, -, rfl⟩
  · have hmem := mem_clearedSources hshape (.general j)
    have hreg := commandRule_clearsOff hshape params s u hu j hdst
    rw [consumedRegs_getElem] at hreg
    rw [complete_big, hreg]
    refine ⟨fun hc hj => if_pos (hmem.mpr ⟨hj, .inl hc⟩), fun hc hi => if_neg fun h => ?_,
      fun hj => if_neg fun h => hj (hmem.mp h).1, fun hi => if_pos ?_⟩
    · exact (hmem.mp h).2.elim (fun h => Bool.false_ne_true (hc.symm.trans h)) hi
    · rw [hi]
      exact List.mem_singleton_self _
  · exact absurd (raiseError_eq c s) (hne c)

/- The operand preamble (R401). -/

/-- The four errors of the preamble (R401). -/
def operandCodes : List ErrCode := [.badRegister, .constWrite, .emptyOperand, .doubleUse]

/-- What a command does behind its preamble raises none of the preamble's errors. -/
def NoOperandError (r : CmdResult) : Prop := ∀ c, r = .error c → c ∉ operandCodes

theorem noOperandError_ok (u : State) : NoOperandError (.ok u) := fun _ h => nomatch h

theorem noOperandError_error {c : ErrCode} (hc : c ∉ operandCodes) : NoOperandError (.error c) :=
  fun _ h => Except.error.inj h ▸ hc

theorem noOperandError_ite {P : Prop} [Decidable P] {a b : CmdResult} (ha : NoOperandError a) (hb : NoOperandError b) :
    NoOperandError (if P then a else b) := by
  split
  · exact ha
  · exact hb

theorem noOperandError_commit {p : Params} {s : State} {r : RegName} {v : Int} {srcs : List RegName} :
    NoOperandError (commit p s r v srcs) := by
  intro c h
  rw [commit_error h]
  decide

theorem noOperandError_commitValue {p : Params} {s : State} {r : RegName} {v : Except ErrCode Int} {srcs : List RegName}
    (hv : ∀ c, v = .error c → c = .divByZero ∨ c = .badOperand ∨ c = .notCoprime ∨ c = .internal) :
    NoOperandError (commitValue p s r v srcs) := by
  intro c h
  rcases commitValue_error h with h | rfl
  · rcases hv c h with rfl | rfl | rfl | rfl <;> decide
  · decide

/-- Every command with register fields is its preamble and a body that raises other errors only (R401). -/
theorem commandRule_eq_withOperands {i : Instr} {dst : Option RegName} {srcs : List RegName} {cons : Bool}
    (h : operandShape i = some (dst, srcs, cons)) (p : Params) (s : State) :
    ∃ body, commandRule p i s = withOperands s dst srcs cons body ∧ NoOperandError body := by
  cases i <;> simp only [operandShape, reduceCtorEq, Option.some.injEq, Prod.mk.injEq] at h <;>
    obtain ⟨rfl, rfl, rfl⟩ := h
  case biMov | biStore | biCmp => exact ⟨_, rfl, noOperandError_ok _⟩
  case biLdi | biAdd | biSub | biMul => exact ⟨_, rfl, noOperandError_commit⟩
  case biRel ra => exact ⟨_, relRule_of_preamble s ra, noOperandError_ok _⟩
  case biLoad => exact ⟨_, rfl, noOperandError_ite (noOperandError_error (by decide)) noOperandError_commit⟩
  case biDiv =>
    exact ⟨_, rfl, noOperandError_commitValue fun c hc => (quotientOf_error hc).imp_right fun h => .inr (.inr h)⟩
  case biMod =>
    exact ⟨_, rfl, noOperandError_commitValue fun c hc => (residueOf_error hc).imp_right fun h => .inr (.inr h)⟩
  case biModpow => exact ⟨_, rfl, noOperandError_commitValue fun c hc => modpowOf_error hc⟩
  case biModinv => exact ⟨_, rfl, noOperandError_commitValue fun c hc => modinvOf_error hc⟩
  case keyDerive =>
    exact ⟨_, rfl, noOperandError_ite (noOperandError_error (by decide)) <|
      noOperandError_ite (noOperandError_ok _) (noOperandError_error (by decide))⟩

/-- A failing check of the preamble is the command's error (R401). -/
theorem exec_of_preamble {i : Instr} {s : State} {dst : Option RegName} {srcs : List RegName} {cons : Bool} {c : ErrCode}
    (h : operandShape i = some (dst, srcs, cons)) (hp : preamble s dst srcs cons = some c) :
    exec i s = .next (errored c s) := by
  obtain ⟨body, hrule, -⟩ := commandRule_eq_withOperands h params s
  exact exec_of_error (hrule.trans (withOperands_of_some hp))

/-- Completion counts a command and error entry does not, so that no state is the end of both (R1101, R1202). -/
theorem complete_ne_errored {i : Instr} {s u : State} {c : ErrCode} (h : commandRule params i s = .ok u) :
    complete u ≠ errored c s := by
  intro he
  have hcount : u.ctl.cmdCount + 1 = s.ctl.cmdCount := congrArg (fun t : State => t.ctl.cmdCount) he
  rw [(commandRule_effect h).ctl_eq] at hcount
  bv_omega

/-- An error state names its error, where no error was recorded before (R1202). -/
theorem errored_injective {s : State} {c c' : ErrCode} (hs : s.ctl.errCode = .noError) (h : errored c s = errored c' s) :
    c = c' := by
  have hcode := congrArg (fun t : State => t.ctl.errCode) h
  simpa [errored, erroredCtl, hs] using hcode

/-- Where no check of the preamble fails, none of its errors is raised (R401). -/
theorem exec_ne_operandError {i : Instr} {s : State} {dst : Option RegName} {srcs : List RegName} {cons : Bool}
    (h : operandShape i = some (dst, srcs, cons)) (hp : preamble s dst srcs cons = none) (hs : s.ctl.errCode = .noError)
    {c : ErrCode} (hc : c ∈ operandCodes) : exec i s ≠ .next (errored c s) := by
  intro he
  rcases exec_cases he with ⟨u, hu, ht⟩ | ⟨c', hc', ht⟩
  · exact complete_ne_errored hu ht.symm
  · obtain rfl := errored_injective hs ht
    obtain ⟨body, hrule, hbody⟩ := commandRule_eq_withOperands h params s
    rw [hrule, withOperands_of_none hp] at hc'
    exact hbody c hc' hc

/-- Settles O12: the checks are those of `preamble_eq`, one after the other. -/
theorem operandErrors : Obligations.OperandErrors := by
  intro i s dst srcs cons hshape
  have hp := preamble_eq s dst srcs cons
  refine ⟨fun h1 => ?_, fun h1 h2 => ?_, fun h1 h2 h3 => ?_, fun h1 h2 h3 hc h4 => ?_, fun h1 h2 h3 h4 hs c hc => ?_⟩
  · exact exec_of_preamble hshape (hp.trans (if_pos h1))
  · exact exec_of_preamble hshape (by rw [hp, if_neg (not_not.mpr h1), if_pos h2])
  · exact exec_of_preamble hshape (by rw [hp, if_neg (not_not.mpr h1), if_neg (not_not.mpr h2), if_pos h3])
  · exact exec_of_preamble hshape
      (by rw [hp, if_neg (not_not.mpr h1), if_neg (not_not.mpr h2), if_neg (not_not.mpr h3), if_pos ⟨hc, h4⟩])
  · refine exec_ne_operandError hshape ?_ hs hc
    rw [hp, if_neg (not_not.mpr h1), if_neg (not_not.mpr h2), if_neg (not_not.mpr h3), if_neg fun h => h.2 (h4 h.1)]

end Sys2Proof.Machine
end

section
/-! PROOFS. Moving, loading, storing, releasing and comparing BigInt values (40_bigint_core.md R405, R406, R410 to R415). -/

namespace Sys2Proof.Machine

/- The destination write of a command that computes a value (R402, R405). -/

theorem capacityBound_eq (p : Params) : capacityBound p = 2 ^ (32 * p.maxDigits) := (pow_mul 2 32 p.maxDigits).symm

theorem radix_le_capacityBound : Config.radix ≤ capacityBound params := Nat.le_self_pow (by decide) Config.radix

/-- A general destination and no source: no check of the preamble can fail (R401). -/
theorem preamble_noSource (s : State) (d : Fin 16) : preamble s (some (.general d)) [] false = none := rfl

/-- A destination write of a value in range, completed (R402, R1101). -/
theorem exec_of_commit {i : Instr} {s : State} {d : Fin 16} {v : Int} {srcs : List RegName}
    (h : commandRule params i s = commit params s (.general d) v srcs) (hv : v.natAbs < capacityBound params) :
    exec i s = .next (arithmeticResult s srcs d v) :=
  exec_of_ok (h.trans ((commit_general params s d v srcs).trans (if_neg (Nat.not_le.mpr hv))))

theorem regsAfter_getElem (s : State) (srcs : List RegName) (d : Fin 16) (v : Int) (j : Fin 16) :
    (regsAfter s srcs d v)[j.val]
      = if j = d then some v else if RegName.general j ∈ srcs then none else s.big.gpr[j.val] := by
  simp [regsAfter]

/-- Without consumed sources the destination write is one write to the register file (R402). -/
theorem writeReg_eq_regsAfter (s : State) (d : Fin 16) (v : Int) :
    writeReg s (.general d) v = { s with big.gpr := regsAfter s [] d v } := by
  have h : s.big.gpr.set d.val (some v) = regsAfter s [] d v := by
    apply Vector.ext
    intro k hk
    rw [regsAfter_getElem s [] d v ⟨k, hk⟩, Vector.getElem_set, if_neg List.not_mem_nil]
    exact if_congr ⟨fun e => Fin.ext e.symm, fun e => (congrArg Fin.val e).symm⟩ rfl rfl
  rw [← h]
  rfl

/- NOP, BI.MOV, BI.LDI (R1102, R410, R413). -/

/-- Every operand of a one-source command holds a value (R103). -/
theorem holds_singleton {s : State} {ra : RegName} {v : Int} (h : readReg s ra = some v) :
    ∀ r ∈ [ra], ∃ x, readReg s r = some x := by
  simpa using ⟨v, h⟩

theorem exec_biMov {s : State} {ra : RegName} {v : Int} (d : Fin 16) (h : readReg s ra = some v) :
    exec (.biMov (.general d) ra) s = .next (arithmeticResult s [] d v) := by
  have hrule : commandRule params (.biMov (.general d) ra) s = .ok (writeReg s (.general d) (regValue s ra)) :=
    withOperands_of_none (preamble_ready (holds_singleton h) nofun)
  rw [exec_of_ok hrule, regValue_of_readReg h, writeReg_eq_regsAfter]
  rfl

theorem exec_biLdi {s : State} {imm : Int} (d : Fin 16) (hlo : -262144 ≤ imm) (hhi : imm ≤ 262143) :
    exec (.biLdi (.general d) imm) s = .next (arithmeticResult s [] d imm) := by
  have himm : imm.natAbs < Config.radix := by simp only [Config.radix]; omega
  exact exec_of_commit (withOperands_of_none (preamble_noSource s d)) (himm.trans_le radix_le_capacityBound)

/-- Settles O13: NOP by its definition, BI.MOV and BI.LDI by their rules. -/
theorem nopMovLdi : Obligations.NopMovLdi := fun _ =>
  ⟨rfl, fun d _ _ h => exec_biMov d h, fun d _ hlo hhi => exec_biLdi d hlo hhi⟩

/- BI.LOAD (R411). -/

/-- A component list is a list of digits in base 2^32, for Mathlib's lemmas (R102). -/
theorem compsValue_eq_ofDigits (ds : List Nat) : compsValue ds = Nat.ofDigits (2 ^ 32) ds := by
  rw [Nat.ofDigits_eq_foldr]
  rfl

theorem compsValue_lt {ds : List Nat} (h : ∀ d ∈ ds, d < 2 ^ 32) : compsValue ds < 2 ^ (32 * ds.length) := by
  rw [compsValue_eq_ofDigits, pow_mul]
  exact Nat.ofDigits_lt_base_pow_length (by decide) h

/-- The value of the first `n` words of a list, as a sum of weighted digits (R107). -/
theorem compsValue_take (ws : List Word) (n : Nat) :
    compsValue ((ws.take n).map fun d => d.toNat)
      = ((List.range n).map fun i => (ws.getD i 0).toNat * 2 ^ (32 * i)).sum := by
  induction n generalizing ws with
  | zero => rfl
  | succ n ih =>
    cases ws with
    | nil => simp [compsValue]
    | cons w ws =>
      have htail : (List.range n).map ((fun i => ((w :: ws).getD i 0).toNat * 2 ^ (32 * i)) ∘ Nat.succ)
          = (List.range n).map fun i => 2 ^ 32 * ((ws.getD i 0).toNat * 2 ^ (32 * i)) :=
        List.map_congr_left fun i _ => by
          simp only [Function.comp_apply, List.getD_cons_succ, Nat.mul_succ, pow_add]
          ring
      rw [List.take_succ_cons, List.map_cons, compsValue_cons, ih, List.range_succ_eq_map, List.map_cons, List.map_map,
        List.sum_cons, htail, List.sum_map_mul_left]
      simp

/-- What BIW_LEN in range stages is below the capacity (R405, R411). -/
theorem stagedMagnitude_lt_capacity {p : Params} {b : BigRegs} (h : b.winLen.toNat ≤ p.maxDigits) :
    stagedMagnitude b < capacityBound p := by
  rw [capacityBound_eq]
  refine (compsValue_lt fun d hd => ?_).trans_le (Nat.pow_le_pow_right (by decide) ?_)
  · obtain ⟨w, -, rfl⟩ := List.mem_map.mp hd
    exact w.isLt
  · rw [List.length_map, List.length_take]
    omega

theorem natAbs_stagedValue (b : BigRegs) : (stagedValue b).natAbs = stagedMagnitude b := by
  unfold stagedValue
  split <;> simp

theorem loadRule_general (p : Params) (s : State) (d : Fin 16) :
    loadRule p (.general d) s = if p.maxDigits < s.big.winLen.toNat then .error .badOperand
      else commit p s (.general d) (stagedValue s.big) [] :=
  withOperands_of_none (preamble_noSource s d)

theorem exec_biLoad {s : State} (d : Fin 16) (h : s.big.winLen.toNat ≤ params.maxDigits) :
    exec (.biLoad (.general d)) s = .next (arithmeticResult s [] d (stagedValue s.big)) :=
  exec_of_commit ((loadRule_general params s d).trans (if_neg (Nat.not_lt.mpr h)))
    ((natAbs_stagedValue s.big).trans_lt (stagedMagnitude_lt_capacity h))

/-- The staged value is sign times magnitude (R411). -/
theorem stagedValue_eq (b : BigRegs) :
    stagedValue b = (if b.winSign then -1 else 1) *
      (((List.range b.winLen.toNat).map fun i => (b.winDig.toList.getD i 0).toNat * 2 ^ (32 * i)).sum : Nat) := by
  rw [← compsValue_take, stagedValue, stagedMagnitude]
  split <;> simp

/-- Settles O14: the two branches of `loadRule_general`, the staged value written as a sum. -/
theorem loadReadsWindow : Obligations.LoadReadsWindow := fun s d =>
  ⟨fun h => stagedValue_eq s.big ▸ exec_biLoad d h, fun h => exec_of_error ((loadRule_general params s d).trans (if_pos h))⟩

/- BI.STORE (R412). -/

theorem exec_biStore {s : State} {ra : RegName} {v : Int} (h : readReg s ra = some v) :
    exec (.biStore ra) s = .next { s with big := storeWindow params v s.big, ctl := completedCtl s.ctl } := by
  have hrule : commandRule params (.biStore ra) s = .ok { s with big := storeWindow params (regValue s ra) s.big } :=
    withOperands_of_none (preamble_ready_noDst (holds_singleton h) nofun)
  rw [exec_of_ok hrule, regValue_of_readReg h]
  rfl

theorem bitLength_eq_size (n : Nat) : bitLength n = n.size := by
  refine le_antisymm ?_ (Nat.size_le.mpr (lt_two_pow_bitLength n))
  by_cases h : n = 0
  · simp [h, bitLength]
  · have := Nat.lt_size.mpr (two_pow_le_of_bitLength h)
    omega

/-- Components from the count up are 0, so that a digit of the window is a digit of the magnitude (R102, R412). -/
theorem storedDigit_eq (n i : Nat) :
    (if i < ncomp n then BitVec.ofNat 32 (comp n i) else 0) = BitVec.ofNat 32 (n / 2 ^ (32 * i)) := by
  split
  · exact BitVec.eq_of_toNat_eq (by simp [comp])
  · have hlt : n < 2 ^ (32 * i) := (lt_two_pow_ncomp n).trans_le (Nat.pow_le_pow_right (by decide) (by omega))
    rw [Nat.div_eq_of_lt hlt]
    rfl

/-- What BI.STORE leaves in the window, in the words of R412. -/
theorem storeWindow_eq (v : Int) (b : BigRegs) :
    storeWindow params v b = { b with
      winSign := decide (v < 0)
      winLen := BitVec.ofNat 16 (max 1 ((v.natAbs.size + 31) / 32))
      winDig := Vector.ofFn fun i =>
        if i.val < 128 then BitVec.ofNat 32 (v.natAbs / 2 ^ (32 * i.val)) else b.winDig[i.val] } := by
  simp only [storeWindow, storedDigit_eq]
  rw [ncomp, bitLength_eq_size]
  rfl

/-- Settles O15: `exec_biStore`, with the window in the words of `storeWindow_eq`. -/
theorem storeWritesWindow : Obligations.StoreWritesWindow := fun s _ v h =>
  storeWindow_eq v s.big ▸ exec_biStore h

/- BI.STORE, then BI.LOAD (R411, R412). -/

theorem ncomp_le_of_lt_capacity {n : Nat} (h : n < capacityBound params) : ncomp n ≤ params.maxDigits := by
  by_cases h0 : n = 0
  · subst h0
    decide
  · rw [capacityBound_eq] at h
    have := (Nat.pow_lt_pow_iff_right (by decide)).mp ((two_pow_ncomp_le h0).trans_lt h)
    omega

theorem storeWindow_winLen {v : Int} (h : v.natAbs < capacityBound params) (b : BigRegs) :
    (storeWindow params v b).winLen.toNat = ncomp v.natAbs := by
  have hn : ncomp v.natAbs ≤ 128 := ncomp_le_of_lt_capacity h
  exact Nat.mod_eq_of_lt (by omega)

/-- The stored digits are the components (R412). -/
theorem stagedMagnitude_storeWindow {v : Int} (h : v.natAbs < capacityBound params) (b : BigRegs) :
    stagedMagnitude (storeWindow params v b) = v.natAbs := by
  have hn : ncomp v.natAbs ≤ 128 := ncomp_le_of_lt_capacity h
  have hdigits : ((storeWindow params v b).winDig.toList.take (ncomp v.natAbs)).map (fun d => d.toNat) = comps v.natAbs := by
    apply List.ext_getElem
    · simp only [comps, List.length_map, List.length_take, Vector.length_toList, List.length_range,
        Config.maxDigitsLimit]
      omega
    · intro i _ hi
      have hi' : i < ncomp v.natAbs := by simpa [comps] using hi
      have hmax : i < params.maxDigits := hi'.trans_le hn
      simpa [comps, storeWindow, hi', hmax] using comp_lt v.natAbs i
  rw [stagedMagnitude, storeWindow_winLen h, hdigits, compsValue_comps]

theorem stagedValue_storeWindow {v : Int} (h : v.natAbs < capacityBound params) (b : BigRegs) :
    stagedValue (storeWindow params v b) = v := by
  rw [stagedValue, stagedMagnitude_storeWindow h]
  show (if decide (v < 0) = true then -(v.natAbs : Int) else v.natAbs) = v
  simp only [decide_eq_true_eq]
  split <;> omega

/-- Settles O16: what BI.STORE leaves in the window is in range for BI.LOAD and stages the value. -/
theorem storeThenLoad : Obligations.StoreThenLoad := by
  intro s d ra v h hv
  refine ⟨_, _, exec_biStore h, exec_biLoad d ?_, ?_⟩
  · exact (storeWindow_winLen hv s.big).trans_le (ncomp_le_of_lt_capacity hv)
  · show (regsAfter _ [] d (stagedValue (storeWindow params v s.big)))[d.val] = some v
    rw [regsAfter_getElem, if_pos rfl, stagedValue_storeWindow hv]

/- BI.REL (R414). -/

/-- BI.REL's word carries `ra` alone (R306). -/
theorem decode_biRel {n : Nat} (h : n < 32) : decode (BitVec.ofNat 32 (0x12 + n * 2 ^ 13)) = .ok (.biRel (regOfIndex n)) := by
  have hword : encode (.biRel (regOfIndex n)) = BitVec.ofNat 32 (0x12 + n * 2 ^ 13) := by
    simp [encode, wordR, regIndex_regOfIndex]
  exact hword ▸ decodeOfEncoded _ (wf_regOfIndex h)

/-- What BI.REL does to a general register depends on its valid bit alone (R414). -/
theorem relRule_general (j : Fin 16) (s : State) :
    relRule (.general j) s = if s.big.gpr[j.val] = none then .error .emptyOperand else .ok (clearGpr j s) := by
  simp only [relRule, Option.isNone_iff_eq_none]

/-- Settles O17, branch by branch of R414. -/
theorem relReleases : Obligations.RelReleases := by
  refine fun s => ⟨fun j v hv => ?_, fun j hn => ?_, fun _ => rfl, fun _ => rfl, fun _ => decode_biRel⟩
  · exact exec_of_ok (i := .biRel (.general j)) ((relRule_general j s).trans (if_neg (by simp [hv])))
  · exact exec_of_error (i := .biRel (.general j)) ((relRule_general j s).trans (if_pos hn))

/- BI.CMP and the comparison procedure (R406, R415). -/

/-- The sign of the difference is integer order (R406). -/
theorem cmpInts_eq (a b : Int) : cmpInts a b = if a = b then .equal else if b < a then .greater else .less := by
  simp only [cmpInts, sub_eq_zero, gt_iff_lt, sub_pos]

/-- Settles O18: the preamble of BI.CMP has no double-use check. -/
theorem cmpSetsCmpRes : Obligations.CmpSetsCmpRes := by
  intro s ra rb a b ha hb
  have hrule : commandRule params (.biCmp ra rb) s = .ok (setCmpRes (cmpInts (regValue s ra) (regValue s rb)) s) :=
    withOperands_of_none (preamble_ready_noDst (by simpa using ⟨⟨a, ha⟩, ⟨b, hb⟩⟩) nofun)
  rw [exec_of_ok hrule, regValue_of_readReg ha, regValue_of_readReg hb, cmpInts_eq]
  rfl

theorem cmpInts_of_lt {a b : Int} (h : b < a) : cmpInts a b = .greater := by
  rw [cmpInts_eq, if_neg h.ne', if_pos h]

theorem cmpInts_of_gt {a b : Int} (h : a < b) : cmpInts a b = .less := by
  rw [cmpInts_eq, if_neg h.ne, if_neg h.not_gt]

/-- A component list read from the most significant down (R102). -/
theorem compsValue_reverse_cons (d : Nat) (ds : List Nat) :
    compsValue (d :: ds).reverse = compsValue ds.reverse + 2 ^ (32 * ds.length) * d := by
  simp only [compsValue_eq_ofDigits, List.reverse_cons, Nat.ofDigits_append, Nat.ofDigits_singleton, List.length_reverse,
    pow_mul]

theorem compsValue_reverse_lt {ds : List Nat} (h : ∀ d ∈ ds, d < 2 ^ 32) :
    compsValue ds.reverse < 2 ^ (32 * ds.length) := by
  simpa using compsValue_lt (ds := ds.reverse) (by simpa using h)

/-- A greater component outweighs all the lower ones (R406). -/
theorem compsValue_reverse_cons_lt {x y : Nat} {xs ys : List Nat} (hlen : xs.length = ys.length)
    (hy : ∀ d ∈ ys, d < 2 ^ 32) (hxy : y < x) : compsValue (y :: ys).reverse < compsValue (x :: xs).reverse := by
  rw [compsValue_reverse_cons, compsValue_reverse_cons, hlen]
  calc compsValue ys.reverse + 2 ^ (32 * ys.length) * y
      < 2 ^ (32 * ys.length) * (y + 1) := by rw [Nat.mul_succ, Nat.add_comm]; gcongr; exact compsValue_reverse_lt hy
    _ ≤ 2 ^ (32 * ys.length) * x := Nat.mul_le_mul_left _ hxy
    _ ≤ compsValue xs.reverse + 2 ^ (32 * ys.length) * x := Nat.le_add_left _ _

/-- Between lists of one length the first difference from the top decides (R406). -/
theorem compareDown_eq {xs ys : List Nat} (hlen : xs.length = ys.length) (hx : ∀ d ∈ xs, d < 2 ^ 32)
    (hy : ∀ d ∈ ys, d < 2 ^ 32) : compareDown xs ys = cmpInts (compsValue xs.reverse) (compsValue ys.reverse) := by
  induction xs generalizing ys with
  | nil =>
    obtain rfl := List.length_eq_zero_iff.mp hlen.symm
    simp [compareDown, cmpInts]
  | cons x xs ih =>
    obtain _ | ⟨y, ys⟩ := ys
    · cases hlen
    have hlen' : xs.length = ys.length := Nat.succ.inj hlen
    rw [List.forall_mem_cons] at hx hy
    rw [compareDown]
    split_ifs with heq hgt
    · subst heq
      rw [ih hlen' hx.2 hy.2, compsValue_reverse_cons, compsValue_reverse_cons, hlen']
      simp [cmpInts_eq]
    · exact (cmpInts_of_lt (mod_cast compsValue_reverse_cons_lt hlen' hy.2 hgt)).symm
    · exact (cmpInts_of_gt (mod_cast compsValue_reverse_cons_lt hlen'.symm hx.2 (by omega))).symm

/-- More components make a greater magnitude (R406). -/
theorem lt_of_ncomp_lt {a b : Nat} (h : ncomp a < ncomp b) : a < b := by
  have hb : b ≠ 0 := by
    rintro rfl
    have : 1 ≤ ncomp a := le_max_left _ _
    have : ncomp 0 = 1 := rfl
    omega
  calc a < 2 ^ (32 * ncomp a) := lt_two_pow_ncomp a
    _ ≤ 2 ^ (32 * (ncomp b - 1)) := Nat.pow_le_pow_right (by decide) (by omega)
    _ ≤ b := two_pow_ncomp_le hb

/-- The procedure on magnitudes: component count, then components (R406). -/
theorem compareMag_eq (a b : Nat) : compareMag a b = cmpInts a b := by
  unfold compareMag
  split_ifs with hgt hlt
  · exact (cmpInts_of_lt (mod_cast lt_of_ncomp_lt hgt)).symm
  · exact (cmpInts_of_gt (mod_cast lt_of_ncomp_lt hlt)).symm
  · have hlen : (comps a).reverse.length = (comps b).reverse.length := by
      simp only [comps, List.length_reverse, List.length_map, List.length_range]
      omega
    have hdigit (n : Nat) : ∀ d ∈ (comps n).reverse, d < 2 ^ 32 := fun d hd => by
      obtain ⟨i, -, rfl⟩ := List.mem_map.mp (List.mem_reverse.mp hd)
      exact comp_lt n i
    rw [compareDown_eq hlen (hdigit a) (hdigit b), List.reverse_reverse, List.reverse_reverse, compsValue_comps,
      compsValue_comps]

/-- The procedure of R406 gives the sign of the difference: between two negative values the magnitudes are read in
reverse. -/
theorem compareUnit_eq_cmpInts (a b : Int) : compareUnit a b = cmpInts a b := by
  unfold compareUnit
  split_ifs with hpn hnp ha
  · exact (cmpInts_of_lt (by omega)).symm
  · exact (cmpInts_of_gt (by omega)).symm
  · rw [compareMag_eq, show (b.natAbs : Int) = -b by omega, show (a.natAbs : Int) = -a by omega]
    simp only [cmpInts, neg_sub_neg]
  · rw [compareMag_eq, show (a.natAbs : Int) = a by omega, show (b.natAbs : Int) = b by omega]

/-- Settles O19: the procedure and integer order are both the sign of the difference. -/
theorem comparisonIsIntegerOrder : Obligations.ComparisonIsIntegerOrder := fun a b =>
  (compareUnit_eq_cmpInts a b).trans (cmpInts_eq a b)

end Sys2Proof.Machine
end

section
/-! PROOFS. Add, subtract, multiply: the commands on integers, and the adder and the multiplier on component lists
(40_bigint_core.md R402, R405, R407; 41_bigint_addmul.md R500 to R507). -/

namespace Sys2Proof.Machine

/- BI.ADD, BI.SUB, BI.MUL (R501, R502, R506). -/

/-- A destination write of a value out of range (R402, R405). -/
theorem exec_of_commit_capacity {i : Instr} {s : State} {d : Fin 16} {v : Int} {srcs : List RegName}
    (h : commandRule params i s = commit params s (.general d) v srcs) (hv : capacityBound params ≤ v.natAbs) :
    exec i s = .next (errored .capacity s) :=
  exec_of_error (h.trans ((commit_general params s d v srcs).trans (if_pos hv)))

/-- The two outcomes of a consuming command that computes `v` from two sources (R401, R402, R405). -/
theorem exec_twoSource {i : Instr} {s : State} {d : Fin 16} {ra rb : RegName} {a b v : Int}
    (ha : readReg s ra = some a) (hb : readReg s rb = some b) (hd : NoDoubleUse [ra, rb])
    (hrule : commandRule params i s
      = withOperands s (some (.general d)) [ra, rb] true (commit params s (.general d) v [ra, rb])) :
    (v.natAbs < capacityBound params → exec i s = .next (arithmeticResult s [ra, rb] d v))
      ∧ (capacityBound params ≤ v.natAbs → exec i s = .next (errored .capacity s)) := by
  have hready : ∀ r ∈ [ra, rb], ∃ x, readReg s r = some x := by
    simpa using ⟨⟨a, ha⟩, ⟨b, hb⟩⟩
  have hcommit := hrule.trans (withOperands_of_none (preamble_ready hready fun _ => hd))
  exact ⟨exec_of_commit hcommit, exec_of_commit_capacity hcommit⟩

/-- Settles O20: each of the three commands is `exec_twoSource` at its own result. -/
theorem addSubMul : Obligations.AddSubMul := by
  intro s d ra rb a b ha hb hd
  have hva := regValue_of_readReg ha
  have hvb := regValue_of_readReg hb
  have hadd := exec_twoSource (i := .biAdd (.general d) ra rb) (d := d) (v := a + b) ha hb hd
    (by rw [← hva, ← hvb]; rfl)
  have hsub := exec_twoSource (i := .biSub (.general d) ra rb) (d := d) (v := a - b) ha hb hd
    (by rw [← hva, ← hvb]; rfl)
  have hmul := exec_twoSource (i := .biMul (.general d) ra rb) (d := d) (v := a * b) ha hb hd
    (by rw [← hva, ← hvb]; rfl)
  exact ⟨hadd.1, hadd.2, hsub.1, hsub.2, hmul.1, hmul.2⟩

/- The component list of a magnitude, one component at a time (R102). -/

theorem compsValue_nil : compsValue [] = 0 := rfl

/-- But for the value 0, whose list is the single 0, the components are Mathlib's digits in base 2^32 (R102). -/
theorem comps_eq_digits {n : Nat} (h : n ≠ 0) : comps n = Nat.digits (2 ^ 32) n := by
  have hdigit : ∀ x ∈ comps n, x < 2 ^ 32 := fun x hx => by
    obtain ⟨i, -, rfl⟩ := List.mem_map.mp hx
    exact comp_lt n i
  have htop (hne : comps n ≠ []) : (comps n).getLast hne ≠ 0 := by
    rw [List.getLast_eq_iff_getLast?_eq_some hne |>.mpr (getLast?_comps n)]
    exact topComp_ne_zero h
  rw [← Nat.digits_ofDigits (2 ^ 32) (by decide) (comps n) hdigit htop, ← compsValue_eq_ofDigits, compsValue_comps]

theorem comps_of_lt {d : Nat} (h : d < 2 ^ 32) : comps d = [d] := by
  by_cases h0 : d = 0
  · subst h0
    rfl
  · rw [comps_eq_digits h0, Nat.digits_of_lt _ _ h0 h]

theorem comps_add_radix_mul {d n : Nat} (hd : d < 2 ^ 32) (hn : n ≠ 0) : comps (d + 2 ^ 32 * n) = d :: comps n := by
  rw [comps_eq_digits (by omega), comps_eq_digits hn, Nat.digits_add _ (by decide) _ _ hd (.inr hn)]

/-- Removal of leading zeros gives the components of the value (R407, R102). -/
theorem stripZeros_eq_comps {ds : List Nat} (h : ∀ d ∈ ds, d < 2 ^ 32) : stripZeros ds = comps (compsValue ds) := by
  induction ds with
  | nil => exact (comps_of_lt (by decide)).symm
  | cons d ds ih =>
    obtain ⟨hd, hds⟩ := List.forall_mem_cons.mp h
    rw [stripZeros, ih hds, compsValue_cons]
    by_cases h0 : compsValue ds = 0
    · rw [h0, Nat.mul_zero, Nat.add_zero, comps_of_lt hd, comps_of_lt (by decide)]
      rfl
    · rw [comps_add_radix_mul hd h0]
      split
      · next heq =>
        have hzero := compsValue_comps (compsValue ds)
        rw [heq] at hzero
        exact absurd hzero.symm h0
      · rfl

/- Normalization (R407). -/

/-- The value of a list of signed components, before normalization (R407). -/
def signedCompsValue (xs : List Int) : Int := xs.foldr (fun x acc => x + 2 ^ 32 * acc) 0

theorem signedCompsValue_cons (x : Int) (xs : List Int) :
    signedCompsValue (x :: xs) = x + 2 ^ 32 * signedCompsValue xs := rfl

/-- The value is linear in the components. -/
theorem signedCompsValue_linear {α : Type} (k l : Int) (f g : α → Nat) (is : List α) :
    signedCompsValue (is.map fun i => k * (f i : Int) + l * (g i : Int))
      = k * compsValue (is.map f) + l * compsValue (is.map g) := by
  induction is with
  | nil => simp [signedCompsValue, compsValue]
  | cons i is ih =>
    simp only [List.map_cons, signedCompsValue_cons, compsValue_cons, ih]
    push_cast
    ring

/-- The components negated, for the borrow of R407. -/
def negComps (ds : List Nat) : List Int := ds.map fun d : Nat => -(d : Int)

theorem length_negComps (ds : List Nat) : (negComps ds).length = ds.length := List.length_map _

theorem signedCompsValue_negComps (ds : List Nat) : signedCompsValue (negComps ds) = -(compsValue ds : Int) := by
  simpa [negComps] using signedCompsValue_linear (-1) 0 id id ds

theorem length_propagate (xs : List Int) (c : Int) : (propagate xs c).1.length = xs.length := by
  induction xs generalizing c with
  | nil => rfl
  | cons x xs ih => exact congrArg Nat.succ (ih _)

theorem propagate_digit_lt (xs : List Int) (c : Int) : ∀ d ∈ (propagate xs c).1, d < 2 ^ 32 := by
  induction xs generalizing c with
  | nil => simp [propagate]
  | cons x xs ih =>
    refine List.forall_mem_cons.mpr ⟨?_, ih _⟩
    omega

/-- Carry propagation keeps the value: the digits, and above them the final carry (R407). -/
theorem propagate_value (xs : List Int) (c : Int) :
    (compsValue (propagate xs c).1 : Int) + 2 ^ (32 * xs.length) * (propagate xs c).2 = signedCompsValue xs + c := by
  induction xs generalizing c with
  | nil => simp [propagate, compsValue, signedCompsValue]
  | cons x xs ih =>
    have hrest := ih ((x + c) / 2 ^ 32)
    have hdigit : (((x + c) % 2 ^ 32).toNat : Int) = (x + c) % 2 ^ 32 := Int.toNat_of_nonneg (by omega)
    have hsplit := Int.emod_add_mul_ediv (x + c) (2 ^ 32)
    rw [propagate, compsValue_cons, signedCompsValue_cons, List.length_cons, Nat.mul_succ, pow_add, Nat.cast_add, hdigit,
      Nat.cast_mul, Nat.cast_pow, Nat.cast_ofNat]
    linear_combination 2 ^ 32 * hrest + hsplit

/-- What carry propagation from carry 0 gives, all of it (R407). -/
theorem propagate_spec {xs : List Int} {ds : List Nat} {t : Int} (h : propagate xs 0 = (ds, t)) :
    ds.length = xs.length ∧ (∀ d ∈ ds, d < 2 ^ 32) ∧ (compsValue ds : Int) < 2 ^ (32 * xs.length)
      ∧ (compsValue ds : Int) + 2 ^ (32 * xs.length) * t = signedCompsValue xs := by
  have hlen := length_propagate xs 0
  have hdigit := propagate_digit_lt xs 0
  have hvalue := propagate_value xs 0
  rw [h] at hlen hdigit hvalue
  have hlt := compsValue_lt hdigit
  rw [hlen] at hlt
  exact ⟨hlen, hdigit, by exact_mod_cast hlt, hvalue.trans (Int.add_zero _)⟩

/-- Digits with a last carry `t` above them, leading zeros removed, are the components of the value, if that has at most
one component more than there are digits (R407). -/
theorem stripZeros_append_carry {ds : List Nat} {t : Int} {n : Nat} (hds : ∀ d ∈ ds, d < 2 ^ 32) (ht : 0 ≤ t)
    (hn : (compsValue ds : Int) + 2 ^ (32 * ds.length) * t = n) (hlt : n < 2 ^ (32 * (ds.length + 1))) :
    stripZeros (ds ++ [t.toNat]) = comps n := by
  obtain ⟨m, rfl⟩ := Int.eq_ofNat_of_zero_le ht
  have hvalue : compsValue ds + 2 ^ (32 * ds.length) * m = n := by exact_mod_cast hn
  have hm : m < 2 ^ 32 := by
    rw [Nat.mul_succ, pow_add] at hlt
    exact Nat.lt_of_mul_lt_mul_left ((Nat.le_add_left _ _).trans_lt (hvalue.trans_lt hlt))
  have hall : ∀ d ∈ ds ++ [m], d < 2 ^ 32 := by simpa [or_imp, forall_and] using ⟨hds, hm⟩
  have happend : compsValue (ds ++ [m]) = n := by
    rw [← hvalue, compsValue_eq_ofDigits, compsValue_eq_ofDigits, Nat.ofDigits_append, Nat.ofDigits_singleton, pow_mul]
  rw [Int.toNat_natCast, stripZeros_eq_comps hall, happend]

theorem normalize_of_nonneg {xs : List Int} {ds : List Nat} {t : Int} (h : propagate xs 0 = (ds, t)) (ht : 0 ≤ t) :
    normalize xs = ⟨false, stripZeros (ds ++ [t.toNat])⟩ := by
  simp [normalize, h, ht]

theorem normalize_of_neg {xs : List Int} {ds es : List Nat} {t u : Int} (h : propagate xs 0 = (ds, t)) (ht : t < 0)
    (hneg : propagate (negComps ds) 0 = (es, u)) : normalize xs = ⟨true, stripZeros (es ++ [(u - t).toNat])⟩ := by
  have hcoe : (ds >>= fun d => pure (d : Int)).map (fun d => -d) = negComps ds := by
    simp [negComps, List.map_eq_flatMap, List.flatMap_assoc]
  simp only [normalize, h, hcoe, hneg, if_neg ht.not_ge]

/-- The carry above digits that stay below their radix power `r` has the sign of the whole value (R407). -/
theorem carry_nonneg_iff {r v t : Int} {n : Nat} (hlt : (n : Int) < r) (hv : (n : Int) + r * t = v) : 0 ≤ t ↔ 0 ≤ v := by
  constructor
  · intro ht
    rw [← hv]
    exact Int.add_nonneg (Int.natCast_nonneg n) (mul_nonneg ((Int.natCast_nonneg n).trans hlt.le) ht)
  · intro h
    by_contra ht
    have : r * t ≤ r * (-1) := mul_le_mul_of_nonneg_left (by omega) ((Int.natCast_nonneg n).trans hlt.le)
    omega

/-- Normalization gives the normal form of the value, if that has at most one component more than the list: the final
carry shows the sign, and a borrow turns the digits into those of the magnitude (R407). -/
theorem normalize_eq_normalForm {xs : List Int} (h : (signedCompsValue xs).natAbs < 2 ^ (32 * (xs.length + 1))) :
    normalize xs = normalForm (signedCompsValue xs) := by
  obtain ⟨⟨ds, t⟩, hp⟩ : ∃ p, propagate xs 0 = p := ⟨_, rfl⟩
  obtain ⟨hlen, hdigit, hlt, hvalue⟩ := propagate_spec hp
  have hsign := carry_nonneg_iff hlt hvalue
  by_cases hv : 0 ≤ signedCompsValue xs
  · have hmag := hvalue.trans (Int.natAbs_of_nonneg hv).symm
    rw [← hlen] at h hmag
    rw [normalize_of_nonneg hp (hsign.mpr hv), normalForm, decide_eq_false hv.not_gt,
      stripZeros_append_carry hdigit (hsign.mpr hv) hmag h]
  · obtain ⟨⟨es, u⟩, hq⟩ : ∃ q, propagate (negComps ds) 0 = q := ⟨_, rfl⟩
    obtain ⟨hlen', hdigit', hlt', hvalue'⟩ := propagate_spec hq
    rw [length_negComps, hlen] at hlen' hlt' hvalue'
    rw [signedCompsValue_negComps] at hvalue'
    have hmag : (compsValue es : Int) + 2 ^ (32 * xs.length) * (u - t) = (signedCompsValue xs).natAbs := by
      rw [Int.ofNat_natAbs_of_nonpos (by omega)]
      linear_combination hvalue' - hvalue
    have hcarry : 0 ≤ u - t := (carry_nonneg_iff hlt' hmag).mpr (Int.natCast_nonneg _)
    rw [← hlen'] at h hmag
    rw [normalize_of_neg hp (Int.not_le.mp (hsign.not.mpr hv)) hq, normalForm, decide_eq_true (Int.not_le.mp hv),
      stripZeros_append_carry hdigit' hcarry hmag h]

/- The adder (R500). -/

theorem signFactor_mul_natAbs (v : Int) : signFactor v * v.natAbs = v := by
  unfold signFactor
  split <;> omega

/-- The components over the longer operand still make the whole magnitude (R500). -/
theorem compsValue_range_of_le {n k : Nat} (h : ncomp n ≤ k) : compsValue ((List.range k).map (comp n)) = n := by
  rw [compsValue_range]
  exact Nat.mod_eq_of_lt ((lt_two_pow_ncomp n).trans_le (Nat.pow_le_pow_right (by decide) (by omega)))

/-- Signed sums of the components of two magnitudes, normalized: the normal form of the signed sum (R500, R407). -/
theorem normalize_signedSum {a b k : Nat} {sa sb : Int} (ha : ncomp a ≤ k) (hb : ncomp b ≤ k)
    (hsa : sa.natAbs = 1) (hsb : sb.natAbs = 1) :
    normalize ((List.range k).map fun i => sa * (comp a i : Int) + sb * (comp b i : Int))
      = normalForm (sa * a + sb * b) := by
  have hvalue : signedCompsValue ((List.range k).map fun i => sa * (comp a i : Int) + sb * (comp b i : Int))
      = sa * a + sb * b := by
    rw [signedCompsValue_linear, compsValue_range_of_le ha, compsValue_range_of_le hb]
  have hlt {n : Nat} (h : ncomp n ≤ k) : n < 2 ^ (32 * k) :=
    (lt_two_pow_ncomp n).trans_le (Nat.pow_le_pow_right (by decide) (by omega))
  rw [← hvalue]
  apply normalize_eq_normalForm
  rw [hvalue, List.length_map, List.length_range]
  calc (sa * a + sb * b).natAbs ≤ (sa * a).natAbs + (sb * b).natAbs := Int.natAbs_add_le _ _
    _ = a + b := by simp [Int.natAbs_mul, hsa, hsb]
    _ < 2 ^ (32 * k) + 2 ^ (32 * k) := Nat.add_lt_add (hlt ha) (hlt hb)
    _ ≤ 2 ^ (32 * (k + 1)) := by rw [Nat.mul_succ, pow_add]; omega

theorem natAbs_signFactor (v : Int) : (signFactor v).natAbs = 1 := by
  unfold signFactor
  split <;> rfl

/-- Settles O21: subtraction is addition with the second sign negated. -/
theorem adderIsExact : Obligations.AdderIsExact := by
  intro a b
  have hsum {sb : Int} (hsb : sb.natAbs = 1) :=
    normalize_signedSum (le_max_left (ncomp a.natAbs) (ncomp b.natAbs)) (le_max_right _ _) (natAbs_signFactor a) hsb
  constructor
  · refine (hsum (natAbs_signFactor b)).trans ?_
    rw [signFactor_mul_natAbs, signFactor_mul_natAbs]
  · refine (hsum ((Int.natAbs_neg _).trans (natAbs_signFactor b))).trans ?_
    rw [neg_mul, signFactor_mul_natAbs, signFactor_mul_natAbs, ← sub_eq_add_neg]

/- The schoolbook path (R503). -/

theorem compsValue_addCarry (xs : List Nat) (c : Nat) : compsValue (addCarry xs c) = compsValue xs + c := by
  induction xs generalizing c with
  | nil => simp [addCarry, compsValue]
  | cons x xs ih =>
    have := Nat.mod_add_div (x + c) (2 ^ 32)
    rw [addCarry, compsValue_cons, compsValue_cons, ih]
    omega

/-- One row adds the product by one component, and the carry (R503). -/
theorem compsValue_mulRow (acc ys : List Nat) (d c : Nat) :
    compsValue (mulRow acc ys d c) = compsValue acc + compsValue ys * d + c := by
  induction ys generalizing acc c with
  | nil => simp [mulRow, compsValue_addCarry, compsValue_nil]
  | cons y ys ih =>
    cases acc with
    | nil =>
      have hsplit := Nat.mod_add_div (y * d + c) (2 ^ 32)
      rw [mulRow, compsValue_cons, compsValue_cons, ih, compsValue_nil]
      linear_combination hsplit
    | cons x xs =>
      have hsplit := Nat.mod_add_div (x + y * d + c) (2 ^ 32)
      rw [mulRow, compsValue_cons, compsValue_cons, compsValue_cons, ih]
      linear_combination hsplit

/-- The rows add the product, each one position higher than the one before it (R503). -/
theorem compsValue_mulRows (acc ys ds : List Nat) :
    compsValue (mulRows acc ys ds) = compsValue acc + compsValue ys * compsValue ds := by
  induction ds generalizing acc with
  | nil => simp [mulRows, compsValue_nil]
  | cons d ds ih =>
    have hrow := compsValue_mulRow acc ys d 0
    rw [mulRows, compsValue_cons d]
    split
    · next heq =>
      rw [heq, compsValue_nil] at hrow
      rw [compsValue_cons, ih, compsValue_nil]
      linear_combination hrow
    · next x xs heq =>
      rw [heq, compsValue_cons] at hrow
      rw [compsValue_cons, ih]
      linear_combination hrow

theorem schoolbook_eq_mul (a b : Nat) : schoolbook a b = a * b := by
  rw [schoolbook, compsValue_mulRows, compsValue_comps, compsValue_comps]
  exact Nat.zero_add _

/- The Karatsuba path and the multiplier (R504, R505). -/

/-- Karatsuba's identity: three products of halves make the product, and the middle subtraction does not go below 0
(R504). -/
theorem karatsuba_identity (ah al bh bl r : Nat) :
    ah * bh * r ^ 2 + ((ah + al) * (bh + bl) - ah * bh - al * bl) * r + al * bl = (al + r * ah) * (bl + r * bh) := by
  have hmid : (ah + al) * (bh + bl) - ah * bh - al * bl = ah * bl + al * bh := by
    rw [show (ah + al) * (bh + bl) = ah * bh + (al * bl + (ah * bl + al * bh)) by ring, Nat.add_sub_cancel_left,
      Nat.add_sub_cancel_left]
  rw [hmid]
  ring

/-- At every depth of the recursion both paths give the product (R503, R504, R507). -/
theorem mulMag_eq_mul (thresh fuel a b : Nat) : mulMag thresh fuel a b = a * b := by
  induction fuel generalizing a b with
  | zero => exact schoolbook_eq_mul a b
  | succ fuel ih =>
    rw [mulMag]
    split
    · exact schoolbook_eq_mul a b
    · simp only [ih]
      rw [karatsuba_identity, Nat.mod_add_div, Nat.mod_add_div]

/-- The sign of a product is the exclusive or of the signs (R505). -/
theorem mulUnit_eq_mul (thresh : Nat) (a b : Int) : mulUnit thresh a b = a * b := by
  simp only [mulUnit, mulMag_eq_mul, Nat.cast_mul]
  rcases lt_or_ge a 0 with ha | ha <;> rcases lt_or_ge b 0 with hb | hb
  · simp [ha, hb, Int.ofNat_natAbs_of_nonpos ha.le, Int.ofNat_natAbs_of_nonpos hb.le]
  · simp [ha, hb.not_gt, Int.ofNat_natAbs_of_nonpos ha.le, Int.natAbs_of_nonneg hb]
  · simp [ha.not_gt, hb, Int.natAbs_of_nonneg ha, Int.ofNat_natAbs_of_nonpos hb.le]
  · simp [ha.not_gt, hb.not_gt, Int.natAbs_of_nonneg ha, Int.natAbs_of_nonneg hb]

/-- Settles O23: schoolbook by its rows, the multiplier by the depth of its recursion. -/
theorem multiplierPathsAgree : Obligations.MultiplierPathsAgree :=
  ⟨schoolbook_eq_mul, mulUnit_eq_mul, fun p => mulUnit_eq_mul p.karatsubaThresh⟩

end Sys2Proof.Machine
end

section
/-! PROOFS. Divide: the division laws, the divider's paths on magnitudes, and BI.DIV and BI.MOD on top of them
(42_bigint_div.md R600 to R606). -/

namespace Sys2Proof.Machine

/- The quotient and the residue of R600, and their laws (R606). -/

theorem tdiv_neg_left (a b : Int) : tdiv (-a) b = -tdiv a b := by simp [tdiv]

theorem tdiv_neg_right (a b : Int) : tdiv a (-b) = -tdiv a b := by simp [tdiv]

theorem tdiv_natCast (m n : Nat) : tdiv m n = (m / n : Nat) := by
  rcases m.eq_zero_or_pos with rfl | hm
  · simp [tdiv]
  rcases n.eq_zero_or_pos with rfl | hn
  · simp [tdiv]
  · simp [tdiv, Int.sign_eq_one_of_pos, hm, hn]

/-- The quotient of R600 is Lean's division toward zero. -/
theorem tdiv_eq_int_tdiv (a b : Int) : tdiv a b = Int.tdiv a b := by
  obtain ⟨m, rfl | rfl⟩ := a.eq_nat_or_neg <;> obtain ⟨n, rfl | rfl⟩ := b.eq_nat_or_neg <;>
    simp [tdiv_neg_left, tdiv_neg_right, tdiv_natCast]

/-- The residue of R600 is Lean's Euclidean remainder. -/
theorem emod_eq_int_emod (a b : Int) : emod a b = a % b := by
  rw [emod, Int.fdiv_eq_ediv_of_nonneg _ (Int.natCast_nonneg _), ← Int.emod_def, Int.natCast_natAbs, Int.emod_abs]

theorem natAbs_tdiv (a b : Int) : (tdiv a b).natAbs = a.natAbs / b.natAbs := by
  rw [tdiv_eq_int_tdiv, Int.natAbs_tdiv]
  rfl

theorem natAbs_tdiv_le (a b : Int) : (tdiv a b).natAbs ≤ a.natAbs :=
  (natAbs_tdiv a b).trans_le (Nat.div_le_self _ _)

theorem emod_nonneg (a : Int) {b : Int} (hb : b ≠ 0) : 0 ≤ emod a b := by
  rw [emod_eq_int_emod]
  exact Int.emod_nonneg a hb

theorem emod_lt_abs (a : Int) {b : Int} (hb : b ≠ 0) : emod a b < |b| := by
  rw [emod_eq_int_emod]
  exact Int.emod_lt_abs a hb

theorem natAbs_emod_lt (a : Int) {b : Int} (hb : b ≠ 0) : (emod a b).natAbs < b.natAbs := by
  have hnonneg := emod_nonneg a hb
  have hlt := emod_lt_abs a hb
  rw [Int.abs_eq_natAbs] at hlt
  omega

/-- Quotient and residue make the dividend, but for one `|b|` where the truncation and the floor differ (R606). -/
theorem tdiv_mul_add_emod (a b : Int) : tdiv a b * b + emod a b = a + if 0 ≤ a ∨ b ∣ a then 0 else |b| := by
  have hfloor := Int.mul_ediv_add_emod a b
  rw [tdiv_eq_int_tdiv, emod_eq_int_emod, Int.tdiv_eq_ediv]
  split_ifs
  · linear_combination hfloor
  · linear_combination hfloor + Int.sign_mul_self_eq_abs b

/-- Settles O26: the bounds of the residue, the magnitude of the quotient, and the two cases of `tdiv_mul_add_emod`. -/
theorem divisionLaws : Obligations.DivisionLaws := by
  intro a b hb
  have hsum := tdiv_mul_add_emod a b
  refine ⟨emod_nonneg a hb, emod_lt_abs a hb, ?_, fun h => ?_, fun h => ?_⟩
  · rw [Int.abs_eq_natAbs, natAbs_tdiv, Int.abs_eq_natAbs a, Int.abs_eq_natAbs b, Int.natCast_ediv]
  · rw [hsum, if_pos h, Int.add_zero]
  · rw [hsum, if_neg h]

/- The top component and the conditioning of the divisor (R601). -/

theorem ncomp_pos (n : Nat) : 0 < ncomp n := Nat.one_pos.trans_le (le_max_left _ _)

theorem topComp_eq_div (n : Nat) : topComp n = n / 2 ^ (32 * (ncomp n - 1)) := by
  refine Nat.mod_eq_of_lt (Nat.div_lt_of_lt_mul ?_)
  rw [← pow_add, ← Nat.mul_succ, Nat.succ_eq_add_one, Nat.sub_add_cancel (ncomp_pos n)]
  exact lt_two_pow_ncomp n

/-- The divisor with all components but the top one set to 0: what the estimate divides by (R601). -/
def topPart (d : Nat) : Nat := topComp d * 2 ^ (32 * (ncomp d - 1))

theorem topPart_le (d : Nat) : topPart d ≤ d := by
  rw [topPart, topComp_eq_div]
  exact Nat.div_mul_le_self _ _

/-- What the lower components of a conditioned divisor hold is less than a `2^16`th of its top part (R601, C12). -/
theorem sub_topPart_mul_le {d : Nat} (h : 2 ^ 16 ≤ topComp d) : (d - topPart d) * 2 ^ 16 ≤ topPart d := by
  have hlow : d - topPart d ≤ 2 ^ (32 * (ncomp d - 1)) := by
    rw [topPart, topComp_eq_div, Nat.sub_le_iff_le_add']
    exact (Nat.lt_div_mul_add (by positivity)).le
  calc (d - topPart d) * 2 ^ 16 ≤ 2 ^ (32 * (ncomp d - 1)) * topComp d := Nat.mul_le_mul hlow h
    _ = topPart d := Nat.mul_comm _ _

theorem pos_of_topComp {d : Nat} (h : 2 ^ 16 ≤ topComp d) : 0 < d := by
  refine Nat.pos_of_ne_zero ?_
  rintro rfl
  exact absurd h (by decide)

theorem topPart_pos {d : Nat} (h : 2 ^ 16 ≤ topComp d) : 0 < topPart d :=
  Nat.mul_pos ((by decide : 0 < 2 ^ 16).trans_le h) (by positivity)

theorem ncomp_eq_of_bounds {n k : Nat} (hlo : 2 ^ (32 * k) ≤ n) (hhi : n < 2 ^ (32 * (k + 1))) : ncomp n = k + 1 := by
  have h0 : n ≠ 0 := ((by positivity : 0 < 2 ^ (32 * k)).trans_le hlo).ne'
  have hup := (Nat.pow_lt_pow_iff_right (by decide)).mp (hlo.trans_lt (lt_two_pow_ncomp n))
  have hdown := (Nat.pow_lt_pow_iff_right (by decide)).mp ((two_pow_ncomp_le h0).trans_lt hhi)
  omega

/-- A top component below `2^16` has room for the scale `2^16`, which brings it to at least `2^16` (R601). -/
theorem topComp_mul_scale {d : Nat} (hd : d ≠ 0) (h : topComp d < 2 ^ 16) : 2 ^ 16 ≤ topComp (d * 2 ^ 16) := by
  obtain ⟨k, hk⟩ := Nat.exists_eq_add_one.mpr (ncomp_pos d)
  have hlo : 2 ^ (32 * k) ≤ d := by simpa [hk] using two_pow_ncomp_le hd
  have hhi : d * 2 ^ 16 < 2 ^ (32 * (k + 1)) := by
    rw [topComp_eq_div, hk, Nat.add_sub_cancel, Nat.div_lt_iff_lt_mul (by positivity)] at h
    rw [Nat.mul_succ, pow_add]
    omega
  have hscaled : ncomp (d * 2 ^ 16) = k + 1 :=
    ncomp_eq_of_bounds (hlo.trans (Nat.le_mul_of_pos_right d (by decide))) hhi
  rw [topComp_eq_div, hscaled, Nat.add_sub_cancel, Nat.le_div_iff_mul_le (by positivity), Nat.mul_comm]
  exact Nat.mul_le_mul_right _ hlo

/-- The scale conditions every divisor (R601, C12). -/
theorem topComp_mul_scaleExp {d : Nat} (hd : d ≠ 0) : 2 ^ 16 ≤ topComp (d * 2 ^ scaleExp d) := by
  unfold scaleExp
  cases hfind : (List.range 17).find? fun k => decide (2 ^ 16 ≤ topComp (d * 2 ^ k)) with
  | some k => simpa using List.find?_some hfind
  | none =>
    have hnone := List.find?_eq_none.mp hfind
    have hunscaled : topComp d < 2 ^ 16 := by simpa using hnone 0 (by decide)
    exact topComp_mul_scale hd hunscaled

/- The approximation (R601, R602). -/

/-- `q` is the floor or the ceiling of `n / d`: what the recursion of the approximation keeps. With "the quotient or one
more" alone it would not be kept, for it would forget that an exact quotient stays exact (R602). -/
def CloseQuot (q : Int) (n d : Nat) : Prop := |q * d - n| < d

/-- The estimate is at least the quotient: the remainder `x` of R601 is above `-D`. -/
theorem neg_lt_estimate_remainder (n : Nat) {d : Nat} (h : 2 ^ 16 ≤ topComp d) :
    -(d : Int) < ((n / topPart d : Nat) : Int) * d - n := by
  have hlt : n < (n / topPart d + 1) * d :=
    (Nat.lt_mul_of_div_lt (Nat.lt_succ_self _) (topPart_pos h)).trans_le (Nat.mul_le_mul_left _ (topPart_le d))
  have : (n : Int) < ((n / topPart d : Nat) + 1) * d := by exact_mod_cast hlt
  linarith

/-- The remainder `x` of R601 is at most a `2^16`th of the numerator, so that the recursion ends. -/
theorem estimate_remainder_mul_le (n : Nat) {d : Nat} (h : 2 ^ 16 ≤ topComp d) :
    (((n / topPart d : Nat) : Int) * d - n) * 2 ^ 16 ≤ n := by
  have hle : n / topPart d * topPart d ≤ n := Nat.div_mul_le_self _ _
  have hsplit : n / topPart d * topPart d + n / topPart d * (d - topPart d) = n / topPart d * d := by
    rw [← Nat.mul_add, Nat.add_sub_cancel' (topPart_le d)]
  have hlow : n / topPart d * (d - topPart d) * 2 ^ 16 ≤ n / topPart d * topPart d := by
    rw [Nat.mul_assoc]
    exact Nat.mul_le_mul_left _ (sub_topPart_mul_le h)
  rw [← Nat.cast_mul]
  omega

/-- One level of the approximation, with its estimate and its remainder named (R601). -/
theorem approxQuot_succ {n d e : Nat} {x : Int} (he : n / topPart d = e) (hx : (e : Int) * d - n = x) (fuel : Nat) :
    approxQuot (fuel + 1) n d =
      if x < d then (if x ≤ 0 then (e : Int) else (e : Int) - 1) else (e : Int) - approxQuot fuel x.toNat d := by
  subst he hx
  rfl

/-- Taking the approximation for the remainder off the estimate only changes the sign of the deviation. -/
theorem closeQuot_sub {q e x : Int} {n d : Nat} (hx : e * d - n = x) (hx0 : 0 ≤ x) (hq : CloseQuot q x.toNat d) :
    CloseQuot (e - q) n d := by
  have hdev : (e - q) * d - n = -(q * d - x) := by linear_combination hx
  rw [CloseQuot, hdev, abs_neg]
  rwa [CloseQuot, Int.toNat_of_nonneg hx0] at hq

theorem approxQuot_close {fuel n d : Nat} (h : 2 ^ 16 ≤ topComp d) (hfuel : n < 2 ^ fuel) :
    CloseQuot (approxQuot fuel n d) n d := by
  induction fuel generalizing n with
  | zero =>
    obtain rfl : n = 0 := by simpa using hfuel
    simpa [CloseQuot, approxQuot] using pos_of_topComp h
  | succ fuel ih =>
    have hlow := neg_lt_estimate_remainder n h
    have hsmall := estimate_remainder_mul_le n h
    obtain ⟨e, he⟩ : ∃ e, n / topPart d = e := ⟨_, rfl⟩
    obtain ⟨x, hx⟩ : ∃ x, (e : Int) * d - n = x := ⟨_, rfl⟩
    rw [he, hx] at hlow hsmall
    rw [approxQuot_succ he hx]
    split_ifs with hlt hneg
    · rw [CloseQuot, hx]
      exact abs_lt.mpr ⟨hlow, hlt⟩
    · rw [CloseQuot, show ((e : Int) - 1) * d - n = x - d by linear_combination hx]
      exact abs_lt.mpr (by omega)
    · refine closeQuot_sub hx (by omega) (ih ?_)
      rw [pow_succ] at hfuel
      omega

/-- The fuel that the divider gives the approximation suffices (R601). -/
theorem approxQuot_bitLength_close (n : Nat) {d : Nat} (h : 2 ^ 16 ≤ topComp d) :
    CloseQuot (approxQuot (bitLength n + 1) n d) n d :=
  approxQuot_close h ((lt_two_pow_bitLength n).trans (Nat.pow_lt_pow_succ (by decide)))

/-- In the words of R602. -/
theorem eq_or_eq_succ_of_closeQuot {q : Int} {n d : Nat} (h : CloseQuot q n d) :
    q = (n / d : Nat) ∨ q = (n / d + 1 : Nat) := by
  obtain ⟨hlow, hhigh⟩ := abs_lt.mp h
  have hd : (0 : Int) < d := by omega
  have hle : q - 1 ≤ (n : Int) / d := (Int.le_ediv_iff_mul_le hd).mpr (by linarith)
  have hge : (n : Int) / d < q + 1 := (Int.ediv_lt_iff_lt_mul hd).mpr (by linarith)
  push_cast
  omega

/-- Scaling both operands does not change how close a quotient is (R601). -/
theorem closeQuot_of_scaled {q : Int} {n d s : Nat} (hs : 0 < s) (h : CloseQuot q (n * s) (d * s)) :
    CloseQuot q n d := by
  have hs' : (0 : Int) < s := by exact_mod_cast hs
  rw [CloseQuot, Nat.cast_mul, Nat.cast_mul, show q * (d * s) - n * s = (q * d - n) * (s : Int) by ring, abs_mul,
    abs_of_pos hs'] at h
  exact lt_of_mul_lt_mul_right h hs'.le

/- The correction loops and the converging divider (R601, R602). -/

theorem correctDown_of_nonneg {q r : Int} (fuel d : Nat) (h : 0 ≤ r) : correctDown fuel q r d = (q, r) := by
  cases fuel with
  | zero => rfl
  | succ fuel => exact if_neg (Int.not_lt.mpr h)

theorem correctDown_of_neg {q r : Int} {d : Nat} (fuel : Nat) (h : r < 0) (hd : 0 ≤ r + d) :
    correctDown (fuel + 1) q r d = (q - 1, r + d) :=
  (if_pos h).trans (correctDown_of_nonneg fuel d hd)

theorem correctUp_of_lt {q r : Int} {d : Nat} (fuel : Nat) (h : r < d) : correctUp fuel q r d = (q, r) := by
  cases fuel with
  | zero => rfl
  | succ fuel => exact if_neg (Int.not_le.mpr h)

/-- The pair that the division algorithm determines: quotient and remainder of naturals, as integers. -/
theorem quotRem_unique {n d : Nat} {q r : Int} (hsum : q * d + r = n) (h0 : 0 ≤ r) (hlt : r < d) :
    (q, r) = (((n / d : Nat) : Int), ((n % d : Nat) : Int)) := by
  have hsum' : r + d * q = n := by linear_combination hsum
  obtain ⟨hq, hr⟩ := (Int.ediv_emod_unique (h0.trans_lt hlt)).mpr ⟨hsum', h0, hlt⟩
  rw [Int.natCast_ediv, Int.natCast_emod, hq, hr]

/-- From a close quotient, one downward correction at most gives the exact pair (R602). -/
theorem corrected_eq {q r : Int} {n d : Nat} (hq : CloseQuot q n d) (hr : (n : Int) - q * d = r) :
    correctDown (r.natAbs + 1) q r d = (((n / d : Nat) : Int), ((n % d : Nat) : Int)) := by
  obtain ⟨hlow, hhigh⟩ := abs_lt.mp hq
  by_cases hneg : r < 0
  · rw [correctDown_of_neg _ hneg (by omega)]
    exact quotRem_unique (by linear_combination -hr) (by omega) (by omega)
  · rw [correctDown_of_nonneg _ d (Int.not_lt.mp hneg)]
    exact quotRem_unique (by linear_combination -hr) (by omega) (by omega)

/-- The approximation of the scaled operands is close for the operands themselves (R601). -/
theorem scaled_approxQuot_close (n : Nat) {d : Nat} (hd : d ≠ 0) :
    CloseQuot (approxQuot (bitLength (n * 2 ^ scaleExp d) + 1) (n * 2 ^ scaleExp d) (d * 2 ^ scaleExp d)) n d :=
  closeQuot_of_scaled (by positivity) (approxQuot_bitLength_close _ (topComp_mul_scaleExp hd))

theorem convergeDiv_eq (n : Nat) {d : Nat} (hd : d ≠ 0) :
    convergeDiv n d = (((n / d : Nat) : Int), ((n % d : Nat) : Int)) := by
  have hrem : ((n % d : Nat) : Int) < d := by exact_mod_cast Nat.mod_lt n (Nat.pos_of_ne_zero hd)
  simp only [convergeDiv, corrected_eq (scaled_approxQuot_close n hd) rfl, correctUp_of_lt _ hrem]

/- Single-digit long division and the divider (R601). -/

/-- One digit of the long division (R601). The recursion is opened on both sides before they are compared: compared as
stated, they make the kernel unfold the arithmetic on the numeral `2 ^ 32`, past its recursion depth. -/
theorem longDivDigits_cons (x : Nat) (xs : List Nat) (d q r : Nat) :
    longDivDigits (x :: xs) d q r
      = longDivDigits xs d (q * 2 ^ 32 + (r * 2 ^ 32 + x) / d) ((r * 2 ^ 32 + x) % d) := by
  delta longDivDigits
  rfl

/-- Quotient and remainder of a number with one more digit, from those of the number without it. -/
theorem quotRem_append_digit {d : Nat} (hd : 0 < d) (b m x : Nat) :
    m / d * b + (m % d * b + x) / d = (x + b * m) / d ∧ (m % d * b + x) % d = (x + b * m) % d := by
  have hsplit : x + b * m = m % d * b + x + d * (m / d * b) := by
    linear_combination b * (Nat.mod_add_div m d).symm
  rw [hsplit, Nat.add_mul_div_left _ _ hd, Nat.add_mul_mod_self_left, Nat.add_comm]
  exact ⟨rfl, rfl⟩

/-- The digits read so far make a number `m`, of which the loop holds quotient and remainder (R601). -/
theorem longDivDigits_eq (ds : List Nat) {d : Nat} (hd : 0 < d) (m : Nat) :
    longDivDigits ds d (m / d) (m % d)
      = (ds.foldl (fun m x => x + 2 ^ 32 * m) m / d, ds.foldl (fun m x => x + 2 ^ 32 * m) m % d) := by
  induction ds generalizing m with
  | nil => rfl
  | cons x ds ih =>
    obtain ⟨hq, hr⟩ := quotRem_append_digit hd (2 ^ 32) m x
    rw [longDivDigits_cons, hq, hr, ih, List.foldl_cons]

theorem longDivDigits_comps (n : Nat) {d : Nat} (hd : 0 < d) :
    longDivDigits (comps n).reverse d 0 0 = (n / d, n % d) := by
  have h := longDivDigits_eq (comps n).reverse hd 0
  rwa [Nat.zero_div, Nat.zero_mod, List.foldl_reverse, ← compsValue, compsValue_comps] at h

/-- Every path of the divider is exact, so that its check of the remainder never fails (R601, R602, R704). -/
theorem divmag_eq (n : Nat) {d : Nat} (hd : 0 < d) : divmag n d = .ok (n / d, n % d) := by
  rw [divmag, convergeDiv_eq n hd.ne', longDivDigits_comps n hd]
  split_ifs with hzero hlt heq
  · rw [hzero, Nat.zero_div, Nat.zero_mod]
  · rw [Nat.div_eq_of_lt hlt, Nat.mod_eq_of_lt hlt]
  · rw [heq, Nat.div_self hd, Nat.mod_self]
  · rfl
  · exact if_pos ⟨Int.natCast_nonneg _, Int.ofNat_lt.mpr (Nat.mod_lt n hd)⟩

/-- Settles O27: the divider path by path, and the approximation by the depth of its recursion. -/
theorem dividerIsExact : Obligations.DividerIsExact :=
  ⟨fun n _ hd => divmag_eq n hd, fun n _ h => eq_or_eq_succ_of_closeQuot (approxQuot_bitLength_close n h)⟩

/- BI.DIV and BI.MOD (R603 to R605). -/

/-- The sign that BI.DIV puts on the magnitude is that of R600; a zero dividend has a zero quotient (R604). -/
theorem quotientOf_eq (a : Int) {b : Int} (hb : b ≠ 0) : quotientOf a b = .ok (tdiv a b) := by
  simp only [quotientOf, if_neg hb, divmag_eq _ (Int.natAbs_pos.mpr hb), tdiv, ← Int.sign_mul]
  rcases lt_trichotomy (a * b) 0 with hab | hab | hab
  · simp [Int.sign_eq_neg_one_of_neg hab]
  · obtain rfl := (mul_eq_zero.mp hab).resolve_right hb
    simp
  · simp [Int.sign_eq_one_of_pos hab]

/-- What BI.MOD makes of the remainder of the magnitudes is the residue of R600 (R605). -/
theorem residueOf_eq (a : Int) {b : Int} (hb : b ≠ 0) : residueOf a b = .ok (emod a b) := by
  have hdvd : b ∣ a ↔ a.natAbs % b.natAbs = 0 := Int.natAbs_dvd_natAbs.symm.trans Nat.dvd_iff_mod_eq_zero
  have hlt : a.natAbs % b.natAbs < b.natAbs := Nat.mod_lt _ (Int.natAbs_pos.mpr hb)
  have habs := Int.natAbs_emod a hb
  have hnonneg := Int.emod_nonneg a hb
  simp only [residueOf, if_neg hb, divmag_eq _ (Int.natAbs_pos.mpr hb), emod_eq_int_emod]
  simp only [hdvd] at habs
  split_ifs at habs ⊢ <;> exact congrArg _ (by omega)

theorem quotientOf_zero (a : Int) : quotientOf a 0 = .error .divByZero := if_pos rfl

theorem residueOf_zero (a : Int) : residueOf a 0 = .error .divByZero := if_pos rfl

/-- Settles O24: the divider's results are those of R600, and they are in range because the operands are. -/
theorem divModExact : Obligations.DivModExact := by
  intro s d ra rb a b ha hb hd hb0 hacap hbcap
  have hva := regValue_of_readReg ha
  have hvb := regValue_of_readReg hb
  have hdiv := exec_twoSource (i := .biDiv (.general d) ra rb) (d := d) (v := tdiv a b) ha hb hd
    (by rw [commandRule, divRule, hva, hvb, quotientOf_eq a hb0]; rfl)
  have hmod := exec_twoSource (i := .biMod (.general d) ra rb) (d := d) (v := emod a b) ha hb hd
    (by rw [commandRule, modRule, hva, hvb, residueOf_eq a hb0]; rfl)
  exact ⟨hdiv.1 ((natAbs_tdiv_le a b).trans_lt hacap), hmod.1 ((natAbs_emod_lt a hb0).trans hbcap)⟩

/-- A consuming command whose unit raises an error of its own: the operands stay (R603, R1203). -/
theorem exec_twoSource_error {i : Instr} {s : State} {d : Fin 16} {ra rb : RegName} {a b : Int} {c : ErrCode}
    (ha : readReg s ra = some a) (hb : readReg s rb = some b) (hd : NoDoubleUse [ra, rb])
    (hrule : commandRule params i s = withOperands s (some (.general d)) [ra, rb] true (.error c)) :
    exec i s = .next (errored c s) := by
  have hready : ∀ r ∈ [ra, rb], ∃ x, readReg s r = some x := by
    simpa using ⟨⟨a, ha⟩, ⟨b, hb⟩⟩
  exact exec_of_error (hrule.trans (withOperands_of_none (preamble_ready hready fun _ => hd)))

/-- Settles O25: neither unit has a value for the divisor 0. -/
theorem divisionByZero : Obligations.DivisionByZero := by
  intro s d ra rb a ha hb hd
  have hvb := regValue_of_readReg hb
  exact ⟨exec_twoSource_error (d := d) ha hb hd (by rw [commandRule, divRule, hvb, quotientOf_zero]; rfl),
    exec_twoSource_error (d := d) ha hb hd (by rw [commandRule, modRule, hvb, residueOf_zero]; rfl)⟩

end Sys2Proof.Machine
end

section
/-! PROOFS. The modular-exponentiation pipeline: square-and-multiply, extended Euclid and the modular inverse, BI.MODPOW
and BI.MODINV on top of them, and the invariant checks that never fail (43_modexp.md R700 to R705). -/

namespace Sys2Proof.Machine

/- Square-and-multiply (R700). -/

/-- The multiply step multiplies by the base to the low bit of the exponent. -/
theorem multiplyStep_eq {acc m : Nat} (base e : Nat) (hacc : acc % m = acc) :
    (if e % 2 = 1 then acc * base % m else acc) = acc * base ^ (e % 2) % m := by
  rcases Nat.mod_two_eq_zero_or_one e with h | h <;> simp [h, hacc]

/-- The squaring step, left out where no exponent remains, squares the base. -/
theorem squareStep_pow_modEq (base k m : Nat) :
    (if 0 < k then base * base % m else base) ^ k ≡ (base * base) ^ k [MOD m] := by
  split_ifs with hk
  · exact (Nat.mod_modEq _ m).pow k
  · rw [Nat.eq_zero_of_not_pos hk, pow_zero, pow_zero]

/-- The invariant of the loop: the accumulator times the base to the remaining exponent. -/
theorem powLoop_eq {fuel acc e m : Nat} (base : Nat) (he : e < 2 ^ fuel) (hacc : acc % m = acc) :
    powLoop fuel acc base e m = acc * base ^ e % m := by
  induction fuel generalizing acc base e with
  | zero =>
    obtain rfl : e = 0 := Nat.lt_one_iff.mp he
    rw [powLoop, pow_zero, mul_one, hacc]
  | succ fuel ih =>
    by_cases h0 : e = 0
    · rw [powLoop, if_pos h0, h0, pow_zero, mul_one, hacc]
    · have hhalf : e / 2 < 2 ^ fuel := by omega
      rw [powLoop, if_neg h0, multiplyStep_eq base e hacc, ih _ hhalf (Nat.mod_mod _ m)]
      calc acc * base ^ (e % 2) % m * (if 0 < e / 2 then base * base % m else base) ^ (e / 2) % m
          = acc * base ^ (e % 2) * (base * base) ^ (e / 2) % m :=
            (Nat.mod_modEq _ m).mul (squareStep_pow_modEq base (e / 2) m)
        _ = acc * base ^ e % m := by rw [mul_assoc, ← pow_two, ← pow_mul, ← pow_add, Nat.mod_add_div]

theorem powmod_eq (a e m : Nat) : powmod a e m = a ^ e % m := by
  rw [powmod, powLoop_eq a (lt_two_pow_bitLength e) (Nat.mod_mod 1 m), Nat.mod_mul_mod, one_mul]

/-- On a base reduced as R702 reduces it. -/
theorem powmod_emod (a : Int) (e : Nat) {m : Int} (hm : 0 < m) :
    (powmod (emod a m).toNat e m.natAbs : Int) = a ^ e % m := by
  rw [powmod_eq, emod_eq_int_emod, Int.natCast_emod, Int.natCast_pow, Int.toNat_of_nonneg (Int.emod_nonneg a hm.ne'),
    Int.natAbs_of_nonneg hm.le]
  exact (Int.mod_modEq a m).pow e

/- Extended Euclid (R701). -/

/-- `r` is the gcd of `a` and `b` with Bézout coefficients of theirs. -/
def IsBezout (a b : Int) (r : Except ErrCode (Int × Int × Int)) : Prop :=
  ∃ x y : Int, r = .ok ((Int.gcd a b : Int), x, y) ∧ a * x + b * y = Int.gcd a b

theorem isBezout_egcdSteps_zero (fuel a : Nat) : IsBezout a 0 (egcdSteps (fuel + 1) a 0) :=
  ⟨1, 0, by simp [egcdSteps], by simp⟩

/-- One step of the recursion: the remainder is that of the integers, so its check never fails (R704). -/
theorem isBezout_egcdSteps_succ {fuel a b : Nat} (hb : b ≠ 0)
    (h : IsBezout b (a % b : Nat) (egcdSteps fuel b (a % b : Nat))) : IsBezout a b (egcdSteps (fuel + 1) a b) := by
  obtain ⟨x, y, hrec, hbez⟩ := h
  have hrem : (a : Int) - a / b * b = (a % b : Nat) := by
    rw [Int.natCast_emod, Int.emod_def, mul_comm]
  have hgcd : Int.gcd b (a % b : Nat) = Int.gcd a b := by
    rw [Int.natCast_emod, Int.gcd_comm, Int.gcd_emod]
  rw [hgcd] at hrec hbez
  refine ⟨y, x - a / b * y, ?_, by linear_combination hbez + y * hrem⟩
  rw [egcdSteps, if_neg (by exact_mod_cast hb)]
  simp only [hrem, hrec, if_neg (Int.not_lt.mpr (Int.natCast_nonneg (a % b)))]

/-- Two steps halve the second operand, so that its number of bits bounds the depth (R701). -/
theorem isBezout_egcdSteps {k b : Nat} (a : Nat) (hb : b < 2 ^ k) : IsBezout a b (egcdSteps (2 * k + 2) a b) := by
  induction k generalizing a b with
  | zero =>
    obtain rfl : b = 0 := Nat.lt_one_iff.mp hb
    exact isBezout_egcdSteps_zero 1 a
  | succ k ih =>
    by_cases hb0 : b = 0
    · subst hb0
      exact isBezout_egcdSteps_zero _ a
    refine isBezout_egcdSteps_succ hb0 ?_
    by_cases hr0 : a % b = 0
    · rw [hr0]
      exact isBezout_egcdSteps_zero _ b
    have hr : a % b < b := Nat.mod_lt a (Nat.pos_of_ne_zero hb0)
    have hr' : b % (a % b) < a % b := Nat.mod_lt b (Nat.pos_of_ne_zero hr0)
    have hsum : b % (a % b) ≤ b - a % b := by
      rw [Nat.mod_eq_sub_mod hr.le]
      exact Nat.mod_le _ _
    exact isBezout_egcdSteps_succ hr0 (ih (a % b) (by omega))

/-- The sign moves from the operand to its coefficient (R701). -/
theorem natAbs_mul_eq (a x : Int) : (a.natAbs : Int) * x = a * if a < 0 then -x else x := by
  split_ifs with h
  · rw [Int.ofNat_natAbs_of_nonpos h.le, neg_mul_comm]
  · rw [Int.natAbs_of_nonneg (Int.not_lt.mp h)]

/-- Extended Euclid with its sign correction: the gcd with coefficients, for all integers (R701). -/
theorem isBezout_egcd (a b : Int) : IsBezout a b (egcd a b) := by
  obtain ⟨x, y, hsteps, hbez⟩ := isBezout_egcdSteps a.natAbs (lt_two_pow_bitLength b.natAbs)
  rw [Int.gcd_natCast_natCast, ← Int.gcd_def] at hsteps hbez
  refine ⟨if a < 0 then -x else x, if b < 0 then -y else y, by rw [egcd, hsteps], ?_⟩
  rw [← natAbs_mul_eq, ← natAbs_mul_eq, hbez]

/- The modular inverse (R701, R703). -/

theorem modinv_eq (a m : Int) :
    ∃ x y : Int, a % m * x + m * y = Int.gcd a m
      ∧ modinv a m = if Int.gcd a m = 1 then .ok (x % m) else .error .notCoprime := by
  obtain ⟨x, y, hegcd, hbez⟩ := isBezout_egcd (a % m) m
  rw [Int.gcd_emod] at hegcd hbez
  refine ⟨x, y, hbez, ?_⟩
  rw [modinv, emod_eq_int_emod, hegcd]
  simp only [Nat.cast_eq_one, emod_eq_int_emod]

/-- The coefficient of `a`, reduced, is the canonical inverse (R701). -/
theorem modinv_of_coprime {a m : Int} (hm : 0 < m) (h : Int.gcd a m = 1) :
    ∃ v : Int, 0 ≤ v ∧ v < m ∧ m ∣ a * v - 1 ∧ modinv a m = .ok v := by
  obtain ⟨x, y, hbez, heq⟩ := modinv_eq a m
  rw [h, Nat.cast_one] at hbez
  refine ⟨x % m, Int.emod_nonneg x hm.ne', Int.emod_lt_of_pos x hm, ?_, heq.trans (if_pos h)⟩
  refine Int.ModEq.dvd (Int.ModEq.symm ?_)
  calc a * (x % m) ≡ a % m * x [ZMOD m] := (Int.mod_modEq a m).symm.mul (Int.mod_modEq x m)
    _ ≡ a % m * x + m * y [ZMOD m] := (Int.modEq_add_fac_self).symm
    _ = 1 := hbez

theorem modinv_of_not_coprime {a m : Int} (h : Int.gcd a m ≠ 1) : modinv a m = .error .notCoprime := by
  obtain ⟨x, -, -, heq⟩ := modinv_eq a m
  exact heq.trans (if_neg h)

theorem modinv_emod (a m : Int) : modinv (a % m) m = modinv a m := by
  simp only [modinv, emod_eq_int_emod, Int.emod_emod]

/-- The check of R704 in extended Euclid never fails. -/
theorem modinv_ne_internal (a m : Int) : modinv a m ≠ .error .internal := by
  obtain ⟨x, -, -, heq⟩ := modinv_eq a m
  rw [heq]
  split_ifs <;> nofun

/- The values of the two commands (R702, R703). -/

theorem modpowOf_of_nonneg (a : Int) {e m : Int} (he : 0 ≤ e) (hm : 0 < m) :
    modpowOf a e m = .ok (a ^ e.natAbs % m) := by
  rw [modpowOf, if_neg hm.ne', if_neg hm.not_gt]
  simp only [if_neg he.not_gt, powmod_emod a e.natAbs hm]

theorem modpowOf_of_neg (a : Int) {e m : Int} (he : e < 0) (hm : 0 < m) :
    modpowOf a e m = modinv (a ^ e.natAbs) m := by
  rw [modpowOf, if_neg hm.ne', if_neg hm.not_gt]
  simp only [if_pos he, powmod_emod a e.natAbs hm, modinv_emod]

theorem modinvOf_of_pos (a : Int) {m : Int} (hm : 0 < m) : modinvOf a m = modinv a m := by
  rw [modinvOf, if_neg hm.ne', if_neg hm.not_gt]

theorem modpowOf_zero_modulus (a e : Int) : modpowOf a e 0 = .error .divByZero := if_pos rfl

theorem modinvOf_zero_modulus (a : Int) : modinvOf a 0 = .error .divByZero := if_pos rfl

theorem modpowOf_neg_modulus (a e : Int) {m : Int} (hm : m < 0) : modpowOf a e m = .error .badOperand :=
  (if_neg hm.ne).trans (if_pos hm)

theorem modinvOf_neg_modulus (a : Int) {m : Int} (hm : m < 0) : modinvOf a m = .error .badOperand :=
  (if_neg hm.ne).trans (if_pos hm)

/- BI.MODPOW and BI.MODINV (R702, R703). -/

theorem commandRule_biModpow {s : State} (d : Fin 16) {ra rb rc : RegName} {a e m : Int} (ha : readReg s ra = some a)
    (he : readReg s rb = some e) (hm : readReg s rc = some m) (hd : NoDoubleUse [ra, rb, rc]) :
    commandRule params (.biModpow (.general d) ra rb rc) s
      = commitValue params s (.general d) (modpowOf a e m) [ra, rb, rc] := by
  have hready : ∀ r ∈ [ra, rb, rc], ∃ x, readReg s r = some x := by
    simpa using ⟨⟨a, ha⟩, ⟨e, he⟩, ⟨m, hm⟩⟩
  rw [commandRule, modpowRule, withOperands_of_none (preamble_ready hready fun _ => hd), regValue_of_readReg ha,
    regValue_of_readReg he, regValue_of_readReg hm]

theorem commandRule_biModinv {s : State} (d : Fin 16) {ra rb : RegName} {a m : Int} (ha : readReg s ra = some a)
    (hm : readReg s rb = some m) (hd : NoDoubleUse [ra, rb]) :
    commandRule params (.biModinv (.general d) ra rb) s
      = commitValue params s (.general d) (modinvOf a m) [ra, rb] := by
  have hready : ∀ r ∈ [ra, rb], ∃ x, readReg s r = some x := by
    simpa using ⟨⟨a, ha⟩, ⟨m, hm⟩⟩
  rw [commandRule, modinvRule, withOperands_of_none (preamble_ready hready fun _ => hd), regValue_of_readReg ha,
    regValue_of_readReg hm]

/-- The pipeline has a value in `[0, m)`, which is in range because the modulus is: it is written (R402, R405). -/
theorem exec_of_residue {i : Instr} {s : State} {d : Fin 16} {r : Except ErrCode Int} {v m : Int} {srcs : List RegName}
    (h : commandRule params i s = commitValue params s (.general d) r srcs) (hr : r = .ok v) (h0 : 0 ≤ v) (hlt : v < m)
    (hcap : m.natAbs < capacityBound params) : exec i s = .next (arithmeticResult s srcs d v) := by
  have hv : v.natAbs < m.natAbs := by omega
  exact exec_of_commit (h.trans (by rw [hr, commitValue])) (hv.trans hcap)

/-- The pipeline has no value: its error is the command's (R1202). -/
theorem exec_of_no_value {i : Instr} {s : State} {d : Fin 16} {r : Except ErrCode Int} {c : ErrCode}
    {srcs : List RegName} (h : commandRule params i s = commitValue params s (.general d) r srcs) (hr : r = .error c) :
    exec i s = .next (errored c s) :=
  exec_of_error (h.trans (by rw [hr, commitValue]))

/-- What both commands make of a result that is the inverse of `x` modulo `m` (R701, R1204). -/
theorem exec_of_modinv {i : Instr} {s : State} {d : Fin 16} {r : Except ErrCode Int} {x m : Int} {srcs : List RegName}
    (h : commandRule params i s = commitValue params s (.general d) r srcs) (hr : r = modinv x m) (hm : 0 < m)
    (hcap : m.natAbs < capacityBound params) :
    (Int.gcd x m = 1 → ∃ v : Int, 0 ≤ v ∧ v < m ∧ m ∣ x * v - 1 ∧ exec i s = .next (arithmeticResult s srcs d v))
      ∧ (Int.gcd x m ≠ 1 → exec i s = .next (errored .notCoprime s)) := by
  refine ⟨fun hx => ?_, fun hx => exec_of_no_value h (hr.trans (modinv_of_not_coprime hx))⟩
  obtain ⟨v, h0, hlt, hinv, hv⟩ := modinv_of_coprime hm hx
  exact ⟨v, h0, hlt, hinv, exec_of_residue h (hr.trans hv) h0 hlt hcap⟩

/-- Settles O28: the loop computes the power. -/
theorem modpowNonnegative : Obligations.ModpowNonnegative := by
  intro s d ra rb rc a e m ha hb hc hd he hm hcap
  exact exec_of_residue (commandRule_biModpow d ha hb hc hd) (modpowOf_of_nonneg a he hm)
    (Int.emod_nonneg _ hm.ne') (Int.emod_lt_of_pos _ hm) hcap

/-- Settles O29: the inverse of the power that the loop computes. -/
theorem modpowNegative : Obligations.ModpowNegative := by
  intro s d ra rb rc a e m ha hb hc hd he hm hcap
  exact exec_of_modinv (commandRule_biModpow d ha hb hc hd) (modpowOf_of_neg a he hm) hm hcap

/-- Settles O30: extended Euclid finds the inverse where there is one. -/
theorem modinvResult : Obligations.ModinvResult := by
  intro s d ra rb a m ha hb hd hm hcap
  exact exec_of_modinv (commandRule_biModinv d ha hb hd) (modinvOf_of_pos a hm) hm hcap

/-- Settles O31: neither command has a value for a modulus that is not positive. -/
theorem modulusErrors : Obligations.ModulusErrors := by
  intro s d ra rb rc a e m ha hb hc hd
  have hsub : List.Sublist [ra, rc] [ra, rb, rc] := (List.sublist_cons_self rb [rc]).cons_cons ra
  have hpow := commandRule_biModpow d ha hb hc hd
  have hinv := commandRule_biModinv d ha hc fun j => (hsub.count_le _).trans (hd j)
  refine ⟨?_, fun hm => ⟨exec_of_no_value hpow (modpowOf_neg_modulus a e hm),
    exec_of_no_value hinv (modinvOf_neg_modulus a hm)⟩⟩
  rintro rfl
  exact ⟨exec_of_no_value hpow (modpowOf_zero_modulus a e), exec_of_no_value hinv (modinvOf_zero_modulus a)⟩

/- The laws of the pipeline (R705). -/

theorem mul_emod_eq_one {a b m : Int} (hm : 2 ≤ m) (h : m ∣ a * b - 1) : a * b % m = 1 :=
  (Int.modEq_of_dvd h).symm.eq.trans (Int.emod_eq_of_lt zero_le_one hm)

/-- For an exponent that is not negative: its power times that of the negated exponent is 1 (R705). -/
theorem modpowOf_mul_neg {a e m : Int} (hm : 2 ≤ m) (he : 0 ≤ e) (h : Int.gcd a m = 1) :
    ∃ v w, modpowOf a e m = .ok v ∧ modpowOf a (-e) m = .ok w ∧ v * w % m = 1 := by
  have hm0 : 0 < m := by omega
  rcases he.eq_or_lt with rfl | hpos
  · have hone : (1 : Int) % m = 1 := Int.emod_eq_of_lt zero_le_one hm
    have hpow : modpowOf a 0 m = .ok 1 := by
      rw [modpowOf_of_nonneg a le_rfl hm0, Int.natAbs_zero, pow_zero, hone]
    exact ⟨1, 1, hpow, by rwa [neg_zero], by rwa [one_mul]⟩
  · obtain ⟨w, -, -, hinv, hw⟩ := modinv_of_coprime hm0 (Int.gcd_pow_left_of_gcd_eq_one (k := e.natAbs) h)
    refine ⟨a ^ e.natAbs % m, w, modpowOf_of_nonneg a he hm0, ?_, ?_⟩
    · rw [modpowOf_of_neg a (by omega) hm0, Int.natAbs_neg, hw]
    · exact ((Int.mod_modEq _ m).mul_right w).eq.trans (mul_emod_eq_one hm hinv)

/-- A power of a power, reduced at each step (R700, R705). -/
theorem modpowOf_modpowOf (a : Int) {x y m : Int} (hy : 0 ≤ y) (hm : 0 < m) :
    modpowOf (a ^ x.natAbs % m) y m = .ok (a ^ (x.natAbs * y.natAbs) % m) := by
  rw [modpowOf_of_nonneg _ hy hm, pow_mul]
  exact congrArg _ ((Int.mod_modEq _ m).pow _)

/-- Settles O32: law by law, the inverse laws through Bézout and Diffie-Hellman through the product of the exponents. -/
theorem pipelineLaws : Obligations.PipelineLaws := by
  intro a e m hm
  have hm0 : 0 < m := by omega
  refine ⟨fun he => modpowOf_of_nonneg a he hm0, fun h => ?_, ?_, fun h => ?_, fun x y hx hy => ?_⟩
  · rcases le_total 0 e with he | he
    · exact modpowOf_mul_neg hm he h
    · obtain ⟨w, v, hw, hv, hone⟩ := modpowOf_mul_neg hm (Int.neg_nonneg.mpr he) h
      exact ⟨v, w, by rwa [neg_neg] at hv, hw, by rwa [mul_comm]⟩
  · simp only [modpowOf, emod_eq_int_emod, Int.emod_emod]
  · obtain ⟨v, -, -, hinv, hv⟩ := modinv_of_coprime hm0 h
    exact ⟨v, (modinvOf_of_pos a hm0).trans hv, by rw [mul_comm, mul_emod_eq_one hm hinv]⟩
  · refine ⟨_, _, a ^ (x.natAbs * y.natAbs) % m, modpowOf_of_nonneg a hx hm0, modpowOf_of_nonneg a hy hm0,
      modpowOf_modpowOf a hy hm0, ?_⟩
    rw [modpowOf_modpowOf a hx hm0, mul_comm]

/- No command raises INTERNAL (R704). -/

/-- The result is not the error INTERNAL. -/
def NotInternal (r : CmdResult) : Prop := r ≠ .error .internal

theorem notInternal_ite {P : Prop} [Decidable P] {a b : CmdResult} (ha : NotInternal a) (hb : NotInternal b) :
    NotInternal (if P then a else b) := by
  split
  · exact ha
  · exact hb

theorem notInternal_withOperands {s : State} {dst : Option RegName} {srcs : List RegName} {cons : Bool}
    {body : CmdResult} (hb : NotInternal body) : NotInternal (withOperands s dst srcs cons body) := by
  cases hp : preamble s dst srcs cons with
  | none => rwa [withOperands_of_none hp]
  | some c =>
    rw [withOperands_of_some hp]
    unfold preamble at hp
    split_ifs at hp <;> (obtain rfl := Option.some.inj hp; nofun)

theorem notInternal_commit {p : Params} {s : State} {r : RegName} {v : Int} {srcs : List RegName} :
    NotInternal (commit p s r v srcs) := fun h => nomatch commit_error h

theorem notInternal_commitValue {p : Params} {s : State} {r : RegName} {v : Except ErrCode Int} {srcs : List RegName}
    (hv : v ≠ .error .internal) : NotInternal (commitValue p s r v srcs) := fun h =>
  (commitValue_error h).elim hv nofun

/-- The divider's check never fails (R601, R704). -/
theorem quotientOf_ne_internal (a b : Int) : quotientOf a b ≠ .error .internal := by
  rcases eq_or_ne b 0 with rfl | hb
  · rw [quotientOf_zero]
    nofun
  · rw [quotientOf_eq a hb]
    nofun

theorem residueOf_ne_internal (a b : Int) : residueOf a b ≠ .error .internal := by
  rcases eq_or_ne b 0 with rfl | hb
  · rw [residueOf_zero]
    nofun
  · rw [residueOf_eq a hb]
    nofun

theorem modinvOf_ne_internal (a m : Int) : modinvOf a m ≠ .error .internal := by
  rcases lt_trichotomy m 0 with hm | rfl | hm
  · rw [modinvOf_neg_modulus a hm]
    nofun
  · rw [modinvOf_zero_modulus]
    nofun
  · rw [modinvOf_of_pos a hm]
    exact modinv_ne_internal a m

theorem modpowOf_ne_internal (a e m : Int) : modpowOf a e m ≠ .error .internal := by
  rcases lt_trichotomy m 0 with hm | rfl | hm
  · rw [modpowOf_neg_modulus a e hm]
    nofun
  · rw [modpowOf_zero_modulus]
    nofun
  · rcases lt_or_ge e 0 with he | he
    · rw [modpowOf_of_neg a he hm]
      exact modinv_ne_internal _ m
    · rw [modpowOf_of_nonneg a he hm]
      nofun

/-- Only the divider and extended Euclid check for INTERNAL, and their checks never fail (R704). -/
theorem commandRule_notInternal (p : Params) (i : Instr) (s : State) : NotInternal (commandRule p i s) := by
  cases i with
  | nop | blkXor | blkLadd | blkCmp | stCleanup => nofun
  | biMov | biStore | biCmp => exact notInternal_withOperands nofun
  | biLdi | biAdd | biSub | biMul => exact notInternal_withOperands notInternal_commit
  | biRel ra =>
    rw [commandRule, relRule_of_preamble]
    exact notInternal_withOperands nofun
  | biLoad => exact notInternal_withOperands (notInternal_ite nofun notInternal_commit)
  | biDiv => exact notInternal_withOperands (notInternal_commitValue (quotientOf_ne_internal _ _))
  | biMod => exact notInternal_withOperands (notInternal_commitValue (residueOf_ne_internal _ _))
  | biModpow => exact notInternal_withOperands (notInternal_commitValue (modpowOf_ne_internal _ _ _))
  | biModinv => exact notInternal_withOperands (notInternal_commitValue (modinvOf_ne_internal _ _))
  | keyCommit | rkGen | bcEnc | bcDec => exact notInternal_ite nofun nofun
  | keyDerive => exact notInternal_withOperands (notInternal_ite nofun (notInternal_ite nofun nofun))
  | stInite | stInitd =>
    exact notInternal_ite nofun (notInternal_ite nofun (notInternal_ite nofun (notInternal_ite nofun nofun)))
  | stCluster =>
    rw [commandRule, clusterRule]
    split <;> nofun
  | stFinish =>
    rw [commandRule, finishRule]
    split <;> nofun

/-- Settles O9: an end with INTERNAL recorded is neither a completion nor an error that a rule raises. -/
theorem internalNeverRaised : Obligations.InternalNeverRaised := by
  intro i s hs he
  rcases exec_cases he with ⟨u, hu, ht⟩ | ⟨c, hc, ht⟩
  · exact complete_ne_errored hu ht.symm
  · obtain rfl := errored_injective hs ht
    exact commandRule_notInternal params i s hc

end Sys2Proof.Machine
end

section
/-! PROOFS. KEY.COMMIT and KEY.DERIVE, and the three events that change KEY and KEYVALID (44_key_derivation.md R800 to R802;
10_state.md R120). -/

namespace Sys2Proof.Machine

/- KEY.COMMIT (R801). -/

/-- Settles O33: the two branches of KEY.COMMIT's rule. -/
theorem keyCommit : Obligations.KeyCommit := fun _ =>
  ⟨fun h => exec_of_ok (i := .keyCommit) (if_neg (not_not.mpr h)), fun h => exec_of_error (i := .keyCommit) (if_pos h)⟩

/- KEY.DERIVE (R802). -/

/-- Consuming one source clears its register, if it is a general one (R403). -/
theorem consume_eq (s : State) (ra : RegName) :
    consume s ra = { s with
      big.gpr := Vector.ofFn fun i => if ra = .general i then none else s.big.gpr[i.val] } := by
  rw [show consume s ra = _ from foldl_consume [ra] s, consumedRegs]
  simp only [List.mem_singleton, eq_comm]

/-- A source that names no reserved index and holds no value is an empty general register (R101, R103, R105). -/
theorem not_noEmpty_of_readReg {s : State} {ra : RegName} (hr : NoReserved [ra]) (h : readReg s ra = none) :
    ¬NoEmpty s [ra] := by
  cases ra with
  | general i => exact fun hne => hne i (List.mem_singleton_self _) h
  | const c => cases h
  | reserved n => exact absurd (List.mem_singleton_self _) (hr n)

/-- KEY.DERIVE's effect, completed, for any key (R802, R1101). -/
theorem complete_consume_establishKey (k : Block) (ra : RegName) (s : State) :
    complete (consume (establishKey k s) ra) = { s with
      big.gpr := Vector.ofFn fun i => if ra = .general i then none else s.big.gpr[i.val]
      cip := { s.cip with keyValid := true, key := k }
      ctl := completedCtl s.ctl } := by
  rw [consume_eq]
  rfl

theorem secretInRange_iff (v : Int) : secretInRange v = true ↔ 0 ≤ v ∧ v < 2 ^ 1536 := decide_eq_true_iff

/-- The key a secret gives, its 192 bytes written out (R209, R802). -/
theorem derivedKey_eq (p : Params) (v : Int) :
    derivedKey p v = p.hash ((List.range 192).map fun i => BitVec.ofNat 8 (v.toNat / 256 ^ (191 - i))) := rfl

/-- The rule of KEY.DERIVE once its source holds a value (R802). -/
theorem keyDeriveRule_of_readReg {p : Params} {s : State} {ra : RegName} {v : Int} (h : readReg s ra = some v) :
    keyDeriveRule p ra s =
      if s.str.sstate ≠ .idle then .error .state
      else if secretInRange v then .ok (consume (establishKey (derivedKey p v) s) ra)
      else .error .badOperand := by
  have hready : preamble s none [ra] true = none :=
    preamble_ready_noDst (holds_singleton h) fun _ _ => List.count_le_length
  rw [keyDeriveRule, withOperands_of_none hready, regValue_of_readReg h]

/-- Settles O34: the preamble's errors as for every command, then the branches of `keyDeriveRule_of_readReg`. -/
theorem keyDerive : Obligations.KeyDerive := by
  intro s ra
  obtain ⟨hreserved, -, hempty, -⟩ := operandErrors (.keyDerive ra) s none [ra] true rfl
  refine ⟨hreserved, fun hr hv => hempty hr (fun _ => nofun) (not_noEmpty_of_readReg hr hv), fun v hv => ?_⟩
  have hrule : commandRule params (.keyDerive ra) s = _ := keyDeriveRule_of_readReg hv
  refine ⟨fun hopen => ?_, fun hidle hout => ?_, fun hidle h0 hmax => ?_⟩
  · exact exec_of_error (hrule.trans (if_pos hopen))
  · have hrange : ¬secretInRange v = true := fun h => by
      obtain ⟨h0, hmax⟩ := (secretInRange_iff v).mp h
      exact hout.elim h0.not_gt hmax.not_ge
    exact exec_of_error (hrule.trans ((if_neg (not_not.mpr hidle)).trans (if_neg hrange)))
  · have hrange : secretInRange v = true := (secretInRange_iff v).mpr ⟨h0, hmax⟩
    rw [exec_of_ok (hrule.trans ((if_neg (not_not.mpr hidle)).trans (if_pos hrange))), complete_consume_establishKey,
      derivedKey_eq]

/- What changes KEY and KEYVALID (R800). -/

/-- KEY and KEYVALID are the same in both states. -/
def SameKey (s t : State) : Prop := t.cip.key = s.cip.key ∧ t.cip.keyValid = s.cip.keyValid

theorem SameKey.of_cip {s t : State} (h : t.cip = s.cip) : SameKey s t := ⟨congrArg _ h, congrArg _ h⟩

/-- Taking a turn off the list leaves the key (R100). -/
theorem EngineNext.cip {s u : State} (hn : EngineNext s u) : u.cip = s.cip := by
  rcases hn with ⟨-, rfl⟩ | ⟨rest, -, rfl⟩ <;> rfl

theorem HostNext.cip {a : HostAccess} {s u : State} (hn : HostNext a s u) : u.cip = s.cip := by
  obtain ⟨rest, -, rfl⟩ := hn
  rfl

/- The engine. -/

/-- The two commands that establish a key (R800). -/
def EstablishesKey (i : Instr) : Prop := i = .keyCommit ∨ ∃ ra, i = .keyDerive ra

theorem CommandEffect.keyValid {p : Params} {s u : State} {i : Instr} (h : CommandEffect p s i u)
    (hi : EstablishesKey i) : u.cip.keyValid = true := by
  rcases hi with rfl | ⟨ra, rfl⟩
  · cases h with
    | keyCommitted => rfl
    | generalRegs hi => cases hi
    | blkSet hi => simp at hi
  · cases h with
    | keyDerived => rw [consume_cip, establishKey_cip_keyValid]
    | generalRegs hi => cases hi
    | blkSet hi => simp at hi

/-- A command leaves the key, or is one of the two and sets KEYVALID (R800). -/
theorem exec_key {i : Instr} {s t : State} (h : exec i s = .next t) :
    SameKey s t ∨ (EstablishesKey i ∧ t.cip.keyValid = true) := by
  by_cases hi : EstablishesKey i
  · rcases exec_cases h with ⟨u, hu, rfl⟩ | ⟨c, -, rfl⟩
    · exact .inr ⟨hi, (commandRule_effect hu).keyValid hi⟩
    · exact .inl (.of_cip (raiseError_cip c s))
  · obtain ⟨hcommit, hderive⟩ := not_or.mp hi
    exact .inl ((exec_frame h).key hcommit (not_exists.mp hderive))

theorem engineTurn_key {s t : State} (h : engineTurn exec s = .next t) :
    SameKey s t
      ∨ (s.ctl.busy = true ∧ (∃ i, decode s.ctl.lastCmd = .ok i ∧ EstablishesKey i) ∧ t.cip.keyValid = true) := by
  rcases engineTurn_cases h with ⟨-, rfl⟩ | ⟨hb, i, hd, hi⟩ | ⟨-, -, rfl⟩
  · exact .inl ⟨rfl, rfl⟩
  · exact (exec_key hi).imp_right fun ⟨hkey, hvalid⟩ => ⟨hb, ⟨i, hd, hkey⟩, hvalid⟩
  · exact .inl (.of_cip (raiseError_cip _ s))

/- The host. -/

theorem present_cip (w : Word) (s : State) : (present w s).cip = s.cip := by
  unfold present
  split <;> rfl

theorem writeStatus_cip (w : Word) (s : State) : (writeStatus w s).cip = s.cip := by
  unfold writeStatus
  split <;> rfl

/-- Without SOFTRST a CTRL write changes control registers only (R1104). -/
theorem writeCtrl_cip {w : Word} (h : ¬w.getLsbD 8 = true) (s : State) : (writeCtrl w s).cip = s.cip := by
  rw [writeCtrl, if_neg h]
  split <;> rfl

theorem hostRead_cip (p : Params) (r : WinReg) (s : State) : (hostRead p r s).cip = s.cip := by
  obtain ⟨v, k, h⟩ := hostRead_frame p r s
  rw [h]

/-- With a command in flight, or with a transfer open, a write of a KEY word is refused (R120, R1106). -/
theorem writeWord_key_refused {s : State} (h : ¬(s.ctl.busy = false ∧ s.str.sstate = .idle)) (j : Fin 8) (w : Word) :
    writeWord (.key j) w s = refuseWrite s := by
  show (if s.ctl.busy then refuseWrite s else if true && decide (s.str.sstate ≠ .idle) then refuseWrite s
    else writeData (.key j) w s) = _
  cases hb : s.ctl.busy with
  | true => rfl
  | false =>
    have hopen : s.str.sstate ≠ .idle := fun hidle => h ⟨hb, hidle⟩
    simp [hopen]

/-- Only a write of a KEY word writes the key (R120). -/
theorem DataWrite.sameKey {w : Word} {s t : State} {r : WinReg} (h : DataWrite w s r t) (hr : ∀ j, r ≠ .key j) :
    SameKey s t := by
  cases h with
  | key j => exact absurd rfl (hr j)
  | _ => exact ⟨rfl, rfl⟩

/-- A write to the window leaves the key, is SOFTRST, or is an accepted write of a KEY word (R120, R1103, R1106). -/
theorem writeWord_key_cases (r : WinReg) (w : Word) (s : State) :
    SameKey s (writeWord r w s)
      ∨ (r = .ctrl ∧ w.getLsbD 8 = true ∧ writeWord r w s = resetBlock s)
      ∨ (isKeyWord r = true ∧ s.ctl.busy = false ∧ s.str.sstate = .idle ∧ (writeWord r w s).cip.keyValid = false) := by
  by_cases hctrl : r = .ctrl
  · subst hctrl
    by_cases hrst : w.getLsbD 8 = true
    · exact .inr (.inl ⟨rfl, hrst, if_pos hrst⟩)
    · exact .inl (.of_cip (writeCtrl_cip hrst s))
  by_cases hstatus : r = .status
  · exact hstatus ▸ .inl (.of_cip (writeStatus_cip w s))
  by_cases hcmd : r = .cmd
  · exact hcmd ▸ .inl (.of_cip (present_cip w s))
  by_cases hkey : ∃ j, r = .key j
  · obtain ⟨j, rfl⟩ := hkey
    by_cases hacc : s.ctl.busy = false ∧ s.str.sstate = .idle
    · obtain ⟨hb, hidle⟩ := hacc
      exact .inr (.inr ⟨rfl, hb, hidle, by rw [writeWord_key hb hidle, writeData_key]⟩)
    · exact .inl (.of_cip (by rw [writeWord_key_refused hacc, refuseWrite_cip]))
  · left
    rcases writeWord_data_cases hctrl hstatus hcmd w s with ⟨-, hw⟩ | hw | hw <;> rw [hw]
    · exact (writeData_dataWrite r w s).sameKey (not_exists.mp hkey)
    · exact .of_cip (refuseWrite_cip s)
    · exact ⟨rfl, rfl⟩

/-- A legal access is to the window's address of the offset it names, and the offset is aligned (R201, R204). -/
theorem windowAddr_of_accessOffset {addr size off : Nat} (h : accessOffset params addr size = some off) :
    off % 4 = 0 ∧ addr = windowAddr off := by
  obtain ⟨-, h4, hlow, hhigh, rfl⟩ := accessOffset_cases h
  have hbase := params_coreBase_mod
  simp only [windowAddr, Config.windowBytes] at hbase hhigh ⊢
  omega

/-- Only offset 0x010 names CTRL (R202). -/
theorem eq_of_winReg_ctrl {off : Nat} (h4 : off % 4 = 0) (h : winReg params off = .ctrl) : off = 0x010 := by
  have hoff := regOffset_winReg h4 (ne_of_eq_of_ne h nofun)
  rw [h] at hoff
  exact hoff.symm

theorem hostAccess_key {a : HostAccess} {s t : State} (h : hostAccess params a s = .next t) :
    SameKey s t
      ∨ (∃ w, a = .write (windowAddr 0x010) 4 w ∧ w.getLsbD 8 = true ∧ t = resetBlock s)
      ∨ ∃ off w, KeyOffset off ∧ a = .write (windowAddr off) 4 w ∧ s.ctl.busy = false ∧ s.str.sstate = .idle
          ∧ t.cip.keyValid = false := by
  rcases hostAccess_cases h with ⟨_, off, -, -, rfl⟩ | ⟨_, off, w, rfl, hoff, rfl⟩
  · exact .inl (.of_cip (hostRead_cip _ _ s))
  · obtain ⟨h4, rfl⟩ := windowAddr_of_accessOffset hoff
    rcases writeWord_key_cases (winReg params off) w s with hsame | ⟨hr, hrst, hw⟩ | ⟨hr, hb, hidle, hvalid⟩
    · exact .inl hsame
    · obtain rfl := eq_of_winReg_ctrl h4 hr
      exact .inr (.inl ⟨w, rfl, hrst, hw⟩)
    · exact .inr (.inr ⟨off, w, keyOffset_of_isKeyWord h4 hr, rfl, hb, hidle, hvalid⟩)

/- Reset. -/

/-- A reset leaves no key (R120, R145). -/
theorem resetBlock_key (s : State) :
    (resetBlock s).cip.keyValid = false ∧ (resetBlock s).cip.key = Vector.replicate 32 0 := ⟨rfl, rfl⟩

/-- Where the key is kept, neither KEY nor KEYVALID differs, with or without the turn taken off the list. -/
theorem SameKey.not_changed {s u t : State} (h : SameKey u t) (hu : u.cip = s.cip) :
    ¬(t.cip.key ≠ s.cip.key ∨ t.cip.keyValid ≠ s.cip.keyValid) := by
  obtain ⟨hkey, hvalid⟩ := h
  rw [hu] at hkey hvalid
  exact not_or.mpr ⟨not_not.mpr hkey, not_not.mpr hvalid⟩

/-- Settles O35, by whose turn it is: the engine's, the host's or the platform's. -/
theorem keyChangesOnlyByThreeEvents : Obligations.KeyChangesOnlyByThreeEvents := by
  intro s t hst hne
  rcases turn_cases s with ⟨u, hn⟩ | ⟨a, u, hn⟩ | ⟨rest, hn⟩
  · rw [step_engine hn] at hst
    rcases engineTurn_key hst with hsame | ⟨hb, ⟨i, hd, hi⟩, hvalid⟩
    · exact absurd hne (hsame.not_changed hn.cip)
    · rw [hn.ctl_eq] at hb hd
      refine .inl ⟨⟨u, hn⟩, hb, ?_, hvalid⟩
      rcases hi with rfl | ⟨ra, rfl⟩
      · exact .inl hd
      · exact .inr ⟨ra, hd⟩
  · rw [step_host hn] at hst
    obtain ⟨hctl, hstr⟩ := hn.ctl_str
    rcases hostAccess_key hst with hsame | ⟨w, rfl, hrst, rfl⟩ | ⟨off, w, hoff, rfl, hb, hidle, hvalid⟩
    · exact absurd hne (hsame.not_changed hn.cip)
    · exact .inr (.inr ⟨.inl ⟨w, u, hn, hrst⟩, resetBlock_key u⟩)
    · exact .inr (.inl ⟨off, w, u, hoff, hn, hctl ▸ hb, hstr ▸ hidle, hvalid⟩)
  · rw [step_powerOn hn] at hst
    obtain rfl := Host.Outcome.next.inj hst
    exact .inr (.inr ⟨.inr (congrArg List.head? hn), resetBlock_key _⟩)

end Sys2Proof.Machine
end

section
/-! PROOFS. The block cipher: its commands and the block commands, the cipher laws, and the round key, the round function
and the S-box (45_block_cipher.md R900 to R915). -/

namespace Sys2Proof.Machine

/- The effects of these commands, completed (R1101). -/

theorem complete_setRkey (x : Half) (s : State) :
    complete { s with cip.rkey := x } = { s with cip.rkey := x, ctl := completedCtl s.ctl } := rfl

theorem complete_setBlk (x : Block) (s : State) :
    complete (setBlk x s) = { s with cip.blk := x, ctl := completedCtl s.ctl } := rfl

theorem complete_setCmpRes (r : CmpRes) (s : State) :
    complete (setCmpRes r s) = { s with ctl := { completedCtl s.ctl with cmpRes := r } } := rfl

/- RK.GEN, BC.ENC and BC.DEC (R910, R911, R912). -/

theorem withKey_of_key {s : State} (h : s.cip.keyValid = true) (body : CmdResult) : withKey s body = body := if_pos h

theorem withKey_of_no_key {s : State} (h : s.cip.keyValid = false) (body : CmdResult) :
    withKey s body = .error .noKey := if_neg (Bool.eq_false_iff.mp h)

/-- A command whose rule asks for the key and finds it completes with its effect, for any parameters (R800, R1101). -/
theorem execAt_of_withKey {p : Params} {i : Instr} {s u : State} (hrule : commandRule p i s = withKey s (.ok u))
    (h : s.cip.keyValid = true) : execAt p i s = .next (complete u) := by
  rw [execAt, hrule, withKey_of_key h, finishCommand_ok]

/-- Each cipher command's rule asks for the key first. -/
theorem commandRule_cipher_of_no_key {i : Instr} {s : State} (h : s.cip.keyValid = false)
    (hi : i ∈ [Instr.rkGen, .bcEnc, .bcDec]) : commandRule params i s = .error .noKey := by
  simp only [List.mem_cons, List.not_mem_nil, or_false] at hi
  rcases hi with rfl | rfl | rfl <;> exact withKey_of_no_key h _

/-- With a key, each cipher command writes its one register and completes, for any parameters. -/
theorem execAt_cipher (p : Params) {s : State} (h : s.cip.keyValid = true) :
    execAt p .rkGen s = .next { s with
        cip.rkey := roundKey p s.cip.key s.cip.idxCluster.toNat s.cip.idxBlock.toNat s.cip.idxRound.toNat
        ctl := completedCtl s.ctl }
      ∧ execAt p .bcEnc s = .next { s with
          cip.blk := encryptBlock p s.cip.blk s.cip.key s.cip.idxCluster.toNat s.cip.idxBlock.toNat
          ctl := completedCtl s.ctl }
      ∧ execAt p .bcDec s = .next { s with
          cip.blk := decryptBlock p s.cip.blk s.cip.key s.cip.idxCluster.toNat s.cip.idxBlock.toNat
          ctl := completedCtl s.ctl } := by
  refine ⟨?_, ?_, ?_⟩
  · rw [execAt_of_withKey (i := .rkGen) rfl h, complete_setRkey]
  · rw [execAt_of_withKey (i := .bcEnc) rfl h, complete_setBlk]
  · rw [execAt_of_withKey (i := .bcDec) rfl h, complete_setBlk]

/-- Settles O36: with a key for any parameters, of which the defaults are one choice; without one by the key check. -/
theorem cipherCommands : Obligations.CipherCommands := by
  refine ⟨fun p _ h => execAt_cipher p h, fun s => ⟨fun h i hi => ?_, fun h => ?_⟩⟩
  · exact exec_of_error (commandRule_cipher_of_no_key h hi)
  · simp only [← execAt_params]
    exact execAt_cipher params h

/- BLK.XOR, BLK.LADD and BLK.CMP (R908, R913, R914, R915). -/

/-- A byte string of `n` bytes is below `2^(8n)` (R10). -/
theorem leValue_lt (l : List Byte) : leValue l < 2 ^ (8 * l.length) := by
  refine Nat.lt_pow_two_of_testBit _ fun i hi => ?_
  have hbeyond : l.length ≤ i / 8 := by omega
  rw [testBit_leValue, List.getD_eq_default _ _ hbeyond]
  exact BitVec.getLsbD_zero

/-- The lane register holds the value of its eight bytes, without loss (R908). -/
theorem toNat_lane (x : Block) (j : Nat) : (lane x j).toNat = leValue ((x.toList.drop (8 * j)).take 8) := by
  have hlen : ((x.toList.drop (8 * j)).take 8).length ≤ 8 := List.length_take_le _ _
  exact Nat.mod_eq_of_lt ((leValue_lt _).trans_le (Nat.pow_le_pow_right (by decide) (by omega)))

/-- Bit `n` of lane `j` is bit `64 j + n` of the block (R908). -/
theorem getLsbD_lane (x : Block) (j : Nat) {n : Nat} (hn : n < 64) : (lane x j).getLsbD n = bitIn x (64 * j + n) := by
  have hbyte : n / 8 < 8 := by omega
  have hdiv : (64 * j + n) / 8 = 8 * j + n / 8 := by omega
  have hmod : (64 * j + n) % 8 = n % 8 := by omega
  rw [lane, BitVec.getLsbD_ofNat, testBit_leValue, bitIn, byteOf, hdiv, hmod]
  simp [hn, hbyte, List.getElem?_drop]

/-- Bit `64 j + n` of the lane sum is bit `n` of the sum of the two lanes `j` (R908). -/
theorem bitIn_laneAdd (x y : Block) {j n : Nat} (hj : j < 4) (hn : n < 64) :
    bitIn (laneAdd x y) (64 * j + n) = (lane x j + lane y j).getLsbD n := by
  have hbyte : (64 * j + n) / 8 < 32 := by omega
  have hlane : (64 * j + n) / 8 / 8 = j := by omega
  have hbit : 8 * ((64 * j + n) / 8 % 8) + (64 * j + n) % 8 = n := by omega
  have h8 : (64 * j + n) % 8 < 8 := by omega
  simp [bitIn, byteOf, laneAdd, hbyte, hlane, hbit, h8]

/-- Each lane of the lane sum is the sum of the lanes modulo 2^64: no carry crosses (R908). -/
theorem lane_laneAdd (x y : Block) {j : Nat} (hj : j < 4) : lane (laneAdd x y) j = lane x j + lane y j :=
  BitVec.eq_of_getLsbD_eq fun _ hn => by rw [getLsbD_lane _ _ hn, bitIn_laneAdd _ _ hj hn]

/-- Settles O37: the rules of the three commands, and for BLK.LADD the lanes of the lane sum. -/
theorem blockCommands : Obligations.BlockCommands := by
  refine fun s => ⟨?_, ⟨laneAdd s.cip.blk s.cip.blk2, ?_, fun j hj => ?_⟩, ?_⟩
  · rw [exec_of_ok (i := .blkXor) rfl, complete_setBlk, xorBytes]
    rfl
  · rw [exec_of_ok (i := .blkLadd) rfl, complete_setBlk]
  · rw [← toNat_lane, ← toNat_lane, ← toNat_lane, lane_laneAdd _ _ hj, BitVec.toNat_add]
  · rw [exec_of_ok (i := .blkCmp) rfl, complete_setCmpRes, cmpBlocks]

/- The cipher laws (R905, R906, R907). -/

/-- The rounds `rs` run on the halves of a block. -/
def blockRounds (p : Params) (k : Block) (c b : Nat) (rs : List Nat) (x : Block) : Block :=
  let lr := feistelRounds p k c b rs (leftHalf x, rightHalf x)
  joinHalves lr.1 lr.2

theorem encryptBlock_eq_blockRounds (p : Params) (x k : Block) (c b : Nat) :
    encryptBlock p x k c b = blockRounds p k c b (List.range 16) x := rfl

theorem decryptBlock_eq_blockRounds (p : Params) (x k : Block) (c b : Nat) :
    decryptBlock p x k c b = blockRounds p k c b (List.range 16).reverse x := rfl

theorem feistelRounds_cons (p : Params) (k : Block) (c b r : Nat) (rs : List Nat) (lr : Half × Half) :
    feistelRounds p k c b (r :: rs) lr = feistelRounds p k c b rs (feistelRound p k c b r lr) := rfl

theorem feistelRounds_append_singleton (p : Params) (k : Block) (c b r : Nat) (rs : List Nat) (lr : Half × Half) :
    feistelRounds p k c b (rs ++ [r]) lr = feistelRound p k c b r (feistelRounds p k c b rs lr) :=
  List.foldl_concat _ _ _ _

/-- Rounds in the reverse order undo them, the last one first (R906). -/
theorem feistelRounds_reverse (p : Params) (k : Block) (c b : Nat) (rs : List Nat) (lr : Half × Half) :
    feistelRounds p k c b rs.reverse (feistelRounds p k c b rs lr) = lr := by
  induction rs generalizing lr with
  | nil => rfl
  | cons r rs ih =>
    rw [List.reverse_cons, feistelRounds_append_singleton, feistelRounds_cons, ih, feistelRound_self]

theorem blockRounds_reverse (p : Params) (k : Block) (c b : Nat) (rs : List Nat) (x : Block) :
    blockRounds p k c b rs.reverse (blockRounds p k c b rs x) = x := by
  simp only [blockRounds, leftHalf_joinHalves, rightHalf_joinHalves, Prod.mk.eta, feistelRounds_reverse, joinHalves_halves]

/-- Decryption inverts encryption, for any parameters (R907). -/
theorem decryptBlock_encryptBlock (p : Params) (x k : Block) (c b : Nat) :
    decryptBlock p (encryptBlock p x k c b) k c b = x := by
  rw [decryptBlock_eq_blockRounds, encryptBlock_eq_blockRounds, blockRounds_reverse]

/-- Encryption inverts decryption: reversing the rounds twice gives them back. -/
theorem encryptBlock_decryptBlock (p : Params) (x k : Block) (c b : Nat) :
    encryptBlock p (decryptBlock p x k c b) k c b = x := by
  have h := blockRounds_reverse p k c b (List.range 16).reverse x
  rwa [List.reverse_reverse, ← encryptBlock_eq_blockRounds, ← decryptBlock_eq_blockRounds] at h

/-- The rounds see parameters and indices only through the round function at the indices listed. -/
theorem blockRounds_congr {p q : Params} {k : Block} {c c' b b' : Nat} {rs : List Nat}
    (h : ∀ r ∈ rs, ∀ y, roundF p y k c b r = roundF q y k c' b' r) (x : Block) :
    blockRounds p k c b rs x = blockRounds q k c' b' rs x := by
  have hrounds : ∀ lr, feistelRounds p k c b rs lr = feistelRounds q k c' b' rs lr := fun lr =>
    List.foldl_ext _ _ lr fun lr r hr => by simp only [feistelRound, h r hr]
  simp only [blockRounds, hrounds]

/-- Only the round indices below 16 count (R907). -/
theorem encryptBlock_congr {p q : Params} {k : Block} {c c' b b' : Nat}
    (h : ∀ r, r < 16 → ∀ y, roundF p y k c b r = roundF q y k c' b' r) (x : Block) :
    encryptBlock p x k c b = encryptBlock q x k c' b' := by
  rw [encryptBlock_eq_blockRounds, encryptBlock_eq_blockRounds]
  exact blockRounds_congr (fun r hr => h r (List.mem_range.mp hr)) x

theorem decryptBlock_congr {p q : Params} {k : Block} {c c' b b' : Nat}
    (h : ∀ r, r < 16 → ∀ y, roundF p y k c b r = roundF q y k c' b' r) (x : Block) :
    decryptBlock p x k c b = decryptBlock q x k c' b' := by
  rw [decryptBlock_eq_blockRounds, decryptBlock_eq_blockRounds]
  exact blockRounds_congr (fun r hr => h r (List.mem_range.mp (List.mem_reverse.mp hr))) x

/-- The round function uses `KROT_R` at its own round only (R903, R904). -/
theorem roundF_krotR {p : Params} {f : Nat → Nat} {r : Nat} (h : f r = p.krotR r) (x : Half) (k : Block) (c b : Nat) :
    roundF { p with krotR := f } x k c b r = roundF p x k c b r := by
  simp only [roundF, roundKey, h]

/-- At the defaults the cluster and the block index count modulo 128 (R903). -/
theorem roundKey_params_mod (k : Block) (c b r : Nat) :
    roundKey params k (c % 128) (b % 128) r = roundKey params k c b r := by
  simp only [roundKey, params, Nat.mod_mod]

theorem roundF_params_mod (x : Half) (k : Block) (c b r : Nat) :
    roundF params x k (c % 128) (b % 128) r = roundF params x k c b r := by
  simp only [roundF, roundKey_params_mod]

/-- Settles O38: the rounds are undone in reverse order, and they see indices only through the round function. -/
theorem cipherLaws : Obligations.CipherLaws := by
  refine ⟨decryptBlock_encryptBlock, fun p k c b => ?_, fun p f hf x k c b => ?_, fun x k c b => ?_⟩
  · exact Function.bijective_iff_has_inverse.mpr
      ⟨fun y => decryptBlock p y k c b, fun x => decryptBlock_encryptBlock p x k c b,
        fun y => encryptBlock_decryptBlock p y k c b⟩
  · have hround : ∀ r, r < 16 → ∀ y, roundF { p with krotR := f } y k c b r = roundF p y k c b r :=
      fun r hr y => roundF_krotR (hf r hr) y k c b
    exact ⟨encryptBlock_congr hround x, decryptBlock_congr hround x⟩
  · exact encryptBlock_congr (fun r _ y => (roundF_params_mod y k c b r).symm) x

/- The round key and the round function bit by bit (R900, R901, R903, R904). -/

theorem bitIn_leftHalf (x : Block) {n : Nat} (hn : n < 128) : bitIn (leftHalf x) n = bitIn x n := by
  have hbyte : n / 8 < 16 := by omega
  simp [bitIn, byteOf, leftHalf, hbyte, Nat.lt_trans hbyte (by decide : 16 < 32)]

theorem bitIn_rightHalf (x : Block) {n : Nat} (hn : n < 128) : bitIn (rightHalf x) n = bitIn x (128 + n) := by
  have hbyte : n / 8 < 16 := by omega
  have hdiv : (128 + n) / 8 = 16 + n / 8 := by omega
  have hmod : (128 + n) % 8 = n % 8 := by omega
  have hlt : 16 + n / 8 < 32 := by omega
  simp [bitIn, byteOf, rightHalf, hbyte, hdiv, hmod, hlt]

/-- Rotations count modulo 128 (R13). -/
theorem rotr128_mod (x : BitVec 128) (n : Nat) : rotr128 x (n % 128) = rotr128 x n := by
  rw [rotr128, rotr128, Nat.mod_mod]

theorem bitIn_le16_rotr128 (x : BitVec 128) (m : Nat) {n : Nat} (hn : n < 128) :
    bitIn (le16 (rotr128 x m)) n = x.getLsbD ((n + m) % 128) := by
  rw [bitIn_le16 _ _ hn, getLsbD_rotr128 _ _ _ hn]

theorem getLsbD_rotr128_leHalfToInt (h : Half) (m : Nat) {n : Nat} (hn : n < 128) :
    (rotr128 (leHalfToInt h) m).getLsbD n = bitIn h ((n + m) % 128) := by
  rw [getLsbD_rotr128 _ _ _ hn, getLsbD_leHalfToInt _ _ (Nat.mod_lt _ (by decide))]

theorem roundKey_params (k : Block) (c b r : Nat) :
    roundKey params k c b r =
      le16 (rotr128 (rotr128 (leHalfToInt (leftHalf k)) c ^^^ rotr128 (leHalfToInt (rightHalf k)) b) r) := by
  rw [← rotr128_mod _ c, ← rotr128_mod _ b, ← rotr128_mod _ r]
  rfl

theorem bitIn_roundKey (k : Block) (c b r : Nat) {n : Nat} (hn : n < 128) :
    bitIn (roundKey params k c b r) n = (bitIn k ((n + r + c) % 128) ^^ bitIn k (128 + (n + r + b) % 128)) := by
  have hlt : ∀ m, m % 128 < 128 := fun m => Nat.mod_lt m (by decide)
  rw [roundKey_params, bitIn_le16_rotr128 _ _ hn, BitVec.getLsbD_xor, getLsbD_rotr128_leHalfToInt _ _ (hlt _),
    getLsbD_rotr128_leHalfToInt _ _ (hlt _), bitIn_leftHalf _ (hlt _), bitIn_rightHalf _ (hlt _), Nat.mod_add_mod,
    Nat.mod_add_mod]

theorem bitIn_roundF (x : Half) (k : Block) (c b r : Nat) {n : Nat} (hn : n < 128) :
    bitIn (roundF params x k c b r) n
      = bitIn (Vector.ofFn fun i : Fin 16 => aesSbox (x[i.val] ^^^ (roundKey params k c b r)[i.val]))
          ((n + 8 + r) % 128) := by
  rw [Nat.add_assoc, ← getLsbD_leHalfToInt _ _ (Nat.mod_lt _ (by decide)), ← bitIn_le16_rotr128 _ _ hn]
  rfl

/- The rounds of encryption (R905). -/

/-- The halves before round `r` of the encryption of `x`. -/
def halvesBefore (p : Params) (x k : Block) (c b r : Nat) : Half × Half :=
  feistelRounds p k c b (List.range r) (leftHalf x, rightHalf x)

theorem halvesBefore_succ (p : Params) (x k : Block) (c b r : Nat) :
    halvesBefore p x k c b (r + 1) = feistelRound p k c b r (halvesBefore p x k c b r) := by
  rw [halvesBefore, List.range_succ, feistelRounds_append_singleton, halvesBefore]

theorem encryptBlock_eq_halvesBefore (p : Params) (x k : Block) (c b : Nat) :
    encryptBlock p x k c b = joinHalves (halvesBefore p x k c b 16).1 (halvesBefore p x k c b 16).2 := rfl

theorem feistelRound_even (p : Params) (k : Block) (c b : Nat) {r : Nat} (h : r % 2 = 0) (lr : Half × Half) :
    feistelRound p k c b r lr = (xorBytes lr.1 (roundF p lr.2 k c b r), lr.2) := if_pos h

theorem feistelRound_odd (p : Params) (k : Block) (c b : Nat) {r : Nat} (h : r % 2 = 1) (lr : Half × Half) :
    feistelRound p k c b r lr = (lr.1, xorBytes lr.2 (roundF p lr.1 k c b r)) :=
  if_neg (by omega)

/-- The statement's halves joined are the model's (R900). -/
theorem bytesOfHalves_eq_joinHalves (l r : Half) : bytesOfHalves l r = joinHalves l r := rfl

/- The S-box by its rule (R902). -/

/-- The inverse of the linear map `A`: its rotations by 1, 3 and 6 multiply those of `A` to 1 modulo `x^8 + 1`. -/
def affineInverse (b : Byte) : Byte := b.rotateLeft 1 ^^^ b.rotateLeft 3 ^^^ b.rotateLeft 6

/-- The byte whose affine map the S-box gives for `a`: by R902, the inverse of `a` in GF(2^8). -/
def sboxInverse (a : Byte) : Byte := affineInverse (aesSbox a ^^^ 0x63)

theorem affineMap_affineInverse : ∀ b : Byte, affineMap (affineInverse b) = b := by decide +kernel

theorem sboxInverse_zero : sboxInverse 0 = 0 := by decide

/-- The table against the rule, byte by byte: what stands under the affine map is the inverse in GF(2^8). -/
theorem fieldMul_sboxInverse : ∀ a : Byte, a ≠ 0 → fieldMul a (sboxInverse a) = 1 := by decide +kernel

theorem aesSbox_eq_affineMap (a : Byte) : aesSbox a = affineMap (sboxInverse a) ^^^ 0x63 := by
  rw [sboxInverse, affineMap_affineInverse, BitVec.xor_assoc, BitVec.xor_self, BitVec.xor_zero]

theorem aesSbox_bijective : Function.Bijective aesSbox := Finite.injective_iff_bijective.mp aesSbox_injective

/-- Settles O60: each bit from the rotations that bring it there, each round from the rounds before it, and the S-box from
the byte under its affine map. -/
theorem roundFunctionBits : Obligations.RoundFunctionBits := by
  refine ⟨fun k c b r _ => bitIn_roundKey k c b r, fun x k c b r _ => bitIn_roundF x k c b r, fun p x k c b => ?_,
    fun a => ⟨sboxInverse a, ?_, aesSbox_eq_affineMap a⟩, aesSbox_bijective, by decide, by decide, by decide⟩
  · refine ⟨fun r => (halvesBefore p x k c b r).1, fun r => (halvesBefore p x k c b r).2, ?_, fun r _ hr => ?_,
      fun r _ hr => ?_, ?_⟩
    · exact (bytesOfHalves_eq_joinHalves _ _).trans (joinHalves_halves x)
    · simp only [halvesBefore_succ, feistelRound_even p k c b hr, and_self]
    · simp only [halvesBefore_succ, feistelRound_odd p k c b hr, and_self]
    · exact (encryptBlock_eq_halvesBefore p x k c b).trans (bytesOfHalves_eq_joinHalves _ _).symm
  · split
    · next hzero => rw [hzero, sboxInverse_zero]
    · next hne => exact fieldMul_sboxInverse a hne

end Sys2Proof.Machine
end

section
/-! PROOFS. A transfer from end to end but for its clusters: ST.INITE and ST.INITD open it, ST.FINISH finishes it, ST.CLEANUP
closes it, and how the commands move SSTATE (46_stream.md R1000, R1001, R1008, R1010, R1011, R1014, R1015, R1018). -/

namespace Sys2Proof.Machine

/- ST.CLEANUP (R1015). -/

/-- ST.CLEANUP's row of R306 has no operand: one word means it (R305, R306). -/
theorem decode_stCleanup_iff (w : Word) : decode w = .ok .stCleanup ↔ w = 0x44 := by
  have hword : encode .stCleanup = 0x44 := by decide
  constructor
  · intro h
    obtain ⟨-, hw⟩ := encodeOfDecoded w _ h
    exact hw.symm.trans hword
  · rintro rfl
    exact hword ▸ decodeOfEncoded .stCleanup rfl

theorem exec_stCleanup (s : State) : exec .stCleanup s = .next (complete (closeTransfer s)) :=
  exec_of_ok (i := .stCleanup) rfl

/-- Settles O46: the one word of its row, and a rule without a check. -/
theorem cleanupCloses : Obligations.CleanupCloses := ⟨decode_stCleanup_iff, exec_stCleanup⟩

/- ST.INITE and ST.INITD (R1010, R1011). -/

/-- The checks that both opening commands make before they open `t`, in their order: the key, the state, the length. -/
def checkedOpen (s : State) (bad : Prop) [Decidable bad] (t : State) : CmdResult :=
  if s.cip.keyValid = false then .error .noKey
  else if s.str.sstate ≠ .idle then .error .state
  else if bad then .error .badLength
  else .ok t

theorem commandRule_stInite (p : Params) (s : State) :
    commandRule p .stInite s = checkedOpen s
      (s.str.len.toNat = 0 ∨ p.hashlistMax < ceilDiv (ceilDiv s.str.len.toNat 32) Config.clusterBlocks)
      (openTransfer .enc (ceilDiv s.str.len.toNat 32) (ceilDiv (ceilDiv s.str.len.toNat 32) Config.clusterBlocks)
        s.str.len.toNat (32 * ceilDiv s.str.len.toNat 32) s) := by
  simp only [commandRule, initeRule, checkedOpen, ite_or, Bool.not_eq_true']

theorem commandRule_stInitd (p : Params) (s : State) :
    commandRule p .stInitd s = checkedOpen s
      ((s.str.len.toNat = 0 ∨ s.str.len.toNat % 32 ≠ 0)
        ∨ p.hashlistMax < ceilDiv (s.str.len.toNat / 32) Config.clusterBlocks)
      (openTransfer .dec (s.str.len.toNat / 32) (ceilDiv (s.str.len.toNat / 32) Config.clusterBlocks) 0 s.str.len.toNat
        s) := by
  simp only [commandRule, initdRule, checkedOpen, ite_or, Bool.not_eq_true']

/-- What passes the checks found the transfer closed. -/
theorem idle_of_checkedOpen_ok {s t u : State} {bad : Prop} [Decidable bad] (h : checkedOpen s bad t = .ok u) :
    s.str.sstate = .idle := by
  unfold checkedOpen at h
  split_ifs at h with hk hs
  exact not_not.mp hs

section CheckedOpen

variable {i : Instr} {s t : State} {bad : Prop} [Decidable bad] (hrule : commandRule params i s = checkedOpen s bad t)
include hrule

theorem exec_checkedOpen_no_key (hk : s.cip.keyValid = false) : exec i s = .next (errored .noKey s) :=
  exec_of_error (hrule.trans (if_pos hk))

theorem exec_checkedOpen_not_idle (hk : s.cip.keyValid = true) (hs : s.str.sstate ≠ .idle) :
    exec i s = .next (errored .state s) :=
  exec_of_error (hrule.trans ((if_neg (ne_false_of_eq_true hk)).trans (if_pos hs)))

theorem exec_checkedOpen_bad (hk : s.cip.keyValid = true) (hs : s.str.sstate = .idle) (hbad : bad) :
    exec i s = .next (errored .badLength s) :=
  exec_of_error (hrule.trans ((if_neg (ne_false_of_eq_true hk)).trans ((if_neg (not_not.mpr hs)).trans (if_pos hbad))))

theorem exec_checkedOpen (hk : s.cip.keyValid = true) (hs : s.str.sstate = .idle) (hbad : ¬bad) :
    exec i s = .next (complete t) :=
  exec_of_ok (hrule.trans ((if_neg (ne_false_of_eq_true hk)).trans ((if_neg (not_not.mpr hs)).trans (if_neg hbad))))

end CheckedOpen

/-- The counts of an accepted length fit their registers (R132, R1010, R1011). -/
theorem openTransfer_toNat {s : State} {q : SState} {n lpad realLen : Nat} (hlpad : lpad = 32 * n)
    (hc : ceilDiv n 128 ≤ params.hashlistMax) :
    (openTransfer q n (ceilDiv n 128) realLen lpad s).str.nblk.toNat = n
      ∧ (openTransfer q n (ceilDiv n 128) realLen lpad s).str.nclust.toNat = ceilDiv n 128
      ∧ (openTransfer q n (ceilDiv n 128) realLen lpad s).str.lpad.toNat = lpad
      ∧ (openTransfer q n (ceilDiv n 128) realLen lpad s).str.total.toNat = lpad + 64 := by
  simp only [ceilDiv, params] at hc ⊢
  exact ⟨Nat.mod_eq_of_lt (by omega), Nat.mod_eq_of_lt (by omega), Nat.mod_eq_of_lt (by omega),
    Nat.mod_eq_of_lt (by omega)⟩

/-- Settles O40: the checks are those of `checkedOpen`, and the opened transfer has the geometry of its block count. -/
theorem initeOpens : Obligations.IniteOpens := by
  intro s
  have hrule := commandRule_stInite params s
  refine ⟨exec_checkedOpen_no_key hrule, exec_checkedOpen_not_idle hrule,
    fun hk hs hbad => exec_checkedOpen_bad hrule hk hs (hbad.imp_left (congrArg BitVec.toNat)), fun hk hs hl hc => ?_⟩
  have hl0 : s.str.len.toNat ≠ 0 := fun h => hl (BitVec.eq_of_toNat_eq h)
  refine ⟨_, exec_checkedOpen hrule hk hs (not_or.mpr ⟨hl0, hc.not_gt⟩), ?_⟩
  have hlen : BitVec.ofNat 64 s.str.len.toNat = s.str.len := (BitVec.ofNat_toNat _ _).trans (BitVec.setWidth_eq _)
  obtain ⟨hnblk, hnclust, hlpad, htotal⟩ := openTransfer_toNat rfl hc
  refine ⟨hnblk, hnclust, hlpad, htotal, ?_⟩
  simp only [complete_eq, openTransfer, hlen]
  rfl

/-- Settles O41: as for ST.INITE, with the padded length in place of the real one. -/
theorem initdOpens : Obligations.InitdOpens := by
  intro s
  have hrule := commandRule_stInitd params s
  refine ⟨exec_checkedOpen_no_key hrule, exec_checkedOpen_not_idle hrule,
    fun hk hs hbad => exec_checkedOpen_bad hrule hk hs (or_assoc.mpr (hbad.imp_left (congrArg BitVec.toNat))),
    fun hk hs hl h32 hc => ?_⟩
  have hl0 : s.str.len.toNat ≠ 0 := fun h => hl (BitVec.eq_of_toNat_eq h)
  refine ⟨_, exec_checkedOpen hrule hk hs (not_or.mpr ⟨not_or.mpr ⟨hl0, not_not.mpr h32⟩, hc.not_gt⟩), ?_⟩
  have hlen : BitVec.ofNat 64 s.str.len.toNat = s.str.len := (BitVec.ofNat_toNat _ _).trans (BitVec.setWidth_eq _)
  have hblocks : s.str.len.toNat = 32 * (s.str.len.toNat / 32) := by omega
  obtain ⟨hnblk, hnclust, -, htotal⟩ := openTransfer_toNat hblocks hc
  refine ⟨hnblk, hnclust, htotal, ?_⟩
  simp only [complete_eq, openTransfer, hlen]
  rfl

/- ST.FINISH (R1008, R1014). -/

/-- The trailer is taken over the whole hash list, whose length ST_HCOUNT is (R133, R1008). -/
theorem trailerOf_eq {s : State} (h : StreamConsistent s.str) :
    trailerOf params s = params.hash (bytesOfBlocks s.str.hashes) := by
  obtain ⟨hcount, -⟩ := h
  rw [trailerOf, hcount, List.take_length]

theorem finishRule_error {p : Params} {s : State} (he : s.str.sstate ≠ .encDone) (hd : s.str.sstate ≠ .decDone) :
    finishRule p s = .error .state := by
  unfold finishRule
  split
  · next h => exact absurd h he
  · next h => exact absurd h hd
  all_goals rfl

theorem exec_stFinish_encDone {s : State} (hs : s.str.sstate = .encDone) :
    exec .stFinish s = .next { s with
      ctl := completedCtl s.ctl
      str := { s.str with trailer := trailerOf params s, sstate := .finished } } := by
  rw [exec_eq, commandRule, finishRule, hs]
  rfl

theorem exec_stFinish_decDone {s : State} (hs : s.str.sstate = .decDone) :
    exec .stFinish s = .next { s with
      ctl := completedCtl s.ctl
      str := { s.str with
        trailer := trailerOf params s
        authOk := decide (trailerOf params s = s.str.rxTrailer) && !s.str.padErr
        authValid := true
        sstate := .finished } } := by
  rw [exec_eq, commandRule, finishRule, hs]
  rfl

theorem exec_stFinish_error {s : State} (he : s.str.sstate ≠ .encDone) (hd : s.str.sstate ≠ .decDone) :
    exec .stFinish s = .next (errored .state s) :=
  exec_of_error (i := .stFinish) (finishRule_error he hd)

/-- Settles O45: the two rules on the whole hash list, from which equal lists give equal trailers. -/
theorem finishComputesTrailer : Obligations.FinishComputesTrailer := by
  refine ⟨fun s h => ⟨fun he => ?_, fun hd => ?_, exec_stFinish_error⟩, fun e d e' he hd hse hsd hexec hhashes hrx => ?_⟩
  · rw [exec_stFinish_encDone he, trailerOf_eq h]
  · rw [exec_stFinish_decDone hd, trailerOf_eq h]
    simp only [Bool.decide_and, Bool.decide_eq_false]
  · have hsame : trailerOf params d = d.str.rxTrailer := by
      rw [exec_stFinish_encDone hse] at hexec
      obtain rfl := Host.Outcome.next.inj hexec
      rw [hrx, trailerOf_eq hd, hhashes, ← trailerOf_eq he]
    refine ⟨_, exec_stFinish_decDone hsd, rfl, ?_⟩
    simp only [hsame, decide_true, Bool.true_and]

/- How SSTATE moves (R1000, R1204). -/

theorem clusterRule_error {p : Params} {s : State} (he : s.str.sstate ≠ .enc) (hd : s.str.sstate ≠ .dec) :
    clusterRule p s = .error .state := by
  unfold clusterRule
  split
  · next h => exact absurd h he
  · next h => exact absurd h hd
  all_goals rfl

theorem exec_stCluster_enc {s : State} (hs : s.str.sstate = .enc) :
    exec .stCluster s = .next (complete (encryptCluster params s)) := by
  rw [exec_eq, commandRule, clusterRule, hs]
  rfl

theorem exec_stCluster_dec {s : State} (hs : s.str.sstate = .dec) :
    exec .stCluster s = .next (complete (decryptCluster params s)) := by
  rw [exec_eq, commandRule, clusterRule, hs]
  rfl

theorem encryptCluster_sstate {p : Params} {s : State} (hs : s.str.sstate = .enc) :
    (encryptCluster p s).str.sstate = if finalCluster s.str then .encDone else .enc := by
  rw [← hs, ← isFinal_eq]
  rfl

theorem decryptCluster_sstate {p : Params} {s : State} (hs : s.str.sstate = .dec) :
    (decryptCluster p s).str.sstate = if finalCluster s.str then .decDone else .dec := by
  rw [← hs, ← isFinal_eq]
  rfl

/-- The moves of SSTATE that R1000 lists, by the command that makes them. -/
inductive StreamMove (t : StreamRegs) : Instr → SState → Prop
  | inite (h : t.sstate = .idle) : StreamMove t .stInite .enc
  | initd (h : t.sstate = .idle) : StreamMove t .stInitd .dec
  | lastEnc (h : t.sstate = .enc) (hf : finalCluster t = true) : StreamMove t .stCluster .encDone
  | lastDec (h : t.sstate = .dec) (hf : finalCluster t = true) : StreamMove t .stCluster .decDone
  | finish (h : t.sstate = .encDone ∨ t.sstate = .decDone) : StreamMove t .stFinish .finished
  | cleanup : StreamMove t .stCleanup .idle

/-- A command's effect leaves SSTATE or makes one of the moves. -/
theorem commandRule_sstate {i : Instr} {s u : State} (h : commandRule params i s = .ok u) :
    u.str.sstate = s.str.sstate ∨ StreamMove s.str i u.str.sstate := by
  have heffect := commandRule_effect h
  cases heffect with
  | openedEnc => exact .inr (.inite (idle_of_checkedOpen_ok ((commandRule_stInite params s).symm.trans h)))
  | openedDec => exact .inr (.initd (idle_of_checkedOpen_ok ((commandRule_stInitd params s).symm.trans h)))
  | encrypted hs =>
    rw [encryptCluster_sstate hs]
    split
    · next hf => exact .inr (.lastEnc hs hf)
    · exact .inl hs.symm
  | decrypted hs =>
    rw [decryptCluster_sstate hs]
    split
    · next hf => exact .inr (.lastDec hs hf)
    · exact .inl hs.symm
  | finishedEnc hs => exact .inr (.finish (.inl hs))
  | finishedDec hs => exact .inr (.finish (.inr hs))
  | cleaned => exact .inr .cleanup
  | generalRegs hi hu =>
    obtain ⟨g, rfl⟩ := hu.frame
    exact .inl rfl
  | keyDerived => exact .inl (by rw [consume_str, establishKey_str])
  | _ => exact .inl rfl

/-- What a command answers leaves SSTATE, or is a completed command that moved it as R1000 lists. -/
theorem exec_sstate {i : Instr} {s t : State} (h : exec i s = .next t) :
    t.str.sstate = s.str.sstate ∨ StreamMove s.str i t.str.sstate := by
  rcases exec_cases h with ⟨u, hu, rfl⟩ | ⟨c, -, rfl⟩
  · rw [complete_str]
    exact commandRule_sstate hu
  · exact .inl rfl

/-- Settles O42: each command's rule in the states it accepts and outside them, and `exec_sstate` for every command. -/
theorem streamStates : Obligations.StreamStates := by
  intro s
  refine ⟨fun hs hk => ?_, fun hs => ?_, fun hs => ?_, fun hs => ?_, fun hs => ?_, fun hs => ?_, ?_, fun i t h hne => ?_⟩
  · exact ⟨exec_checkedOpen_not_idle (commandRule_stInite params s) hk hs,
      exec_checkedOpen_not_idle (commandRule_stInitd params s) hk hs⟩
  · obtain ⟨he, hd⟩ := not_or.mp (mt List.mem_pair.mpr hs)
    exact exec_of_error (i := .stCluster) (clusterRule_error he hd)
  · obtain ⟨he, hd⟩ := not_or.mp (mt List.mem_pair.mpr hs)
    exact exec_stFinish_error he hd
  · exact ⟨_, exec_stCluster_enc hs, encryptCluster_sstate hs⟩
  · exact ⟨_, exec_stCluster_dec hs, decryptCluster_sstate hs⟩
  · rcases List.mem_pair.mp hs with he | hd
    · exact ⟨_, exec_stFinish_encDone he, rfl⟩
    · exact ⟨_, exec_stFinish_decDone hd, rfl⟩
  · exact ⟨_, exec_stCleanup s, rfl⟩
  · have hmove := (exec_sstate h).resolve_left hne
    generalize t.str.sstate = q at hmove
    cases hmove with
    | inite hs => exact .inl ⟨rfl, hs, rfl⟩
    | initd hs => exact .inr (.inl ⟨rfl, hs, rfl⟩)
    | lastEnc hs hf => exact .inr (.inr (.inl ⟨rfl, hf, .inl ⟨hs, rfl⟩⟩))
    | lastDec hs hf => exact .inr (.inr (.inl ⟨rfl, hf, .inr ⟨hs, rfl⟩⟩))
    | finish hs => exact .inr (.inr (.inr (.inl ⟨rfl, List.mem_pair.mpr hs, rfl⟩)))
    | cleanup => exact .inr (.inr (.inr (.inr ⟨rfl, rfl⟩)))

end Sys2Proof.Machine
end

section
/-! PROOFS. The clusters of a transfer: CBC, ST.CLUSTER in both directions block by block, and the round trip from a sender to
a receiver (46_stream.md R1002 to R1009, R1012, R1013, R1018). -/

namespace Sys2Proof.Machine

/- CBC (R1002, R1003). -/

/-- Decryption undoes the chained encryption of every block, for any parameters. -/
theorem cbcDecrypt_cbcEncrypt (p : Params) (k : Block) (c i : Nat) (cv : Block) (xs : List Block) :
    cbcDecrypt p k c i cv (cbcEncrypt p k c i cv xs) = xs := by
  induction xs generalizing i cv with
  | nil => rfl
  | cons x xs ih => rw [cbcEncrypt, cbcDecrypt, decryptBlock_encryptBlock, xorBytes_cancel, ih]

theorem lastBlock_nil (cv : Block) : lastBlock cv [] = cv := rfl

theorem lastBlock_cons (cv y : Block) (ys : List Block) : lastBlock cv (y :: ys) = lastBlock y ys :=
  List.getLastD_cons

theorem lastBlock_concat (cv y : Block) (ys : List Block) : lastBlock cv (ys ++ [y]) = y :=
  List.getLastD_concat

theorem lastBlock_eq_getElem (cv : Block) {ys : List Block} (h : ys.length - 1 < ys.length) :
    lastBlock cv ys = ys[ys.length - 1] := by
  rw [lastBlock, List.getLastD_eq_getLast?, List.getLast?_eq_getElem?, List.getElem?_eq_getElem h, Option.getD_some]

/-- The blocks that follow are encrypted with the last ciphertext block as chaining value (R1002). -/
theorem cbcEncrypt_append (p : Params) (k : Block) (c i : Nat) (cv : Block) (xs ys : List Block) :
    cbcEncrypt p k c i cv (xs ++ ys) = cbcEncrypt p k c i cv xs
      ++ cbcEncrypt p k c (i + xs.length) (lastBlock cv (cbcEncrypt p k c i cv xs)) ys := by
  induction xs generalizing i cv with
  | nil => rfl
  | cons x xs ih =>
    have hindex : i + 1 + xs.length = i + (xs.length + 1) := by omega
    simp only [List.cons_append, cbcEncrypt, ih, lastBlock_cons, List.length_cons, hindex]

/-- The blocks that follow are decrypted with the last ciphertext block as chaining value (R1003). -/
theorem cbcDecrypt_append (p : Params) (k : Block) (c i : Nat) (cv : Block) (xs ys : List Block) :
    cbcDecrypt p k c i cv (xs ++ ys) = cbcDecrypt p k c i cv xs
      ++ cbcDecrypt p k c (i + xs.length) (lastBlock cv xs) ys := by
  induction xs generalizing i cv with
  | nil => rfl
  | cons x xs ih =>
    have hindex : i + 1 + xs.length = i + (xs.length + 1) := by omega
    simp only [List.cons_append, cbcDecrypt, ih, lastBlock_cons, List.length_cons, hindex]

/-- Settles O39: the laws above, and `getElem_cbcEncrypt` for the single block. -/
theorem cbcInverse : Obligations.CbcInverse := by
  refine fun p k c i cv xs => ⟨cbcDecrypt_cbcEncrypt p k c i cv xs, length_cbcEncrypt p k c i cv xs, fun j hj => ⟨?_,
    lastBlock_nil cv, fun y => lastBlock_concat cv y xs, fun ys =>
      ⟨cbcEncrypt_append p k c i cv xs ys, cbcDecrypt_append p k c i cv xs ys⟩⟩⟩
  have hlen : j < (cbcEncrypt p k c i cv xs).length := by rwa [length_cbcEncrypt]
  have hbefore : j - 1 < (cbcEncrypt p k c i cv xs).length := by omega
  rw [List.getElem?_eq_getElem hlen, getElem_cbcEncrypt p k c i cv xs j hj, List.getD_eq_getElem _ _ hj,
    List.getD_eq_getElem _ _ hbefore]
  rfl

/- Blocks of CBUF (R207). -/

theorem Cbuf.getElem_blocks (e : Nat) (m : List Host.Cell) {n i : Nat} (h : i < (Cbuf.blocks e m n).length) :
    (Cbuf.blocks e m n)[i] = Cbuf.block e m i := by
  simp only [Cbuf.blocks, List.getElem_map, List.getElem_range]

/-- A block just written reads back. -/
theorem Cbuf.block_writeBlocks (e : Nat) (m : List Host.Cell) {bs : List Block} {i : Nat} (h : i < bs.length) :
    Cbuf.block e (Cbuf.writeBlocks m bs) i = bs[i] := by
  have hi : i < (Cbuf.blocks e (Cbuf.writeBlocks m bs) bs.length).length := by rwa [Cbuf.length_blocks]
  rw [← Cbuf.getElem_blocks e (Cbuf.writeBlocks m bs) hi]
  exact List.getElem_of_eq (Cbuf.blocks_writeBlocks e m bs) hi

/-- The first `32 n` bytes of CBUF are its first `n` blocks. -/
theorem Cbuf.read_eq_bytesOfBlocks (e : Nat) (m : List Host.Cell) (n : Nat) :
    Cbuf.read e m 0 (32 * n) = bytesOfBlocks ((List.range n).map (Cbuf.block e m)) := by
  apply List.ext_getElem?
  intro j
  by_cases hj : j < 32 * n
  · have hbytes : j < 32 * ((List.range n).map (Cbuf.block e m)).length := by simpa using hj
    have hread : j < (Cbuf.read e m 0 (32 * n)).length := by rwa [Cbuf.length_read]
    rw [getElem?_bytesOfBlocks _ _ hbytes, List.getElem?_eq_getElem hread, Cbuf.getElem_read]
    simp only [List.getElem_map, List.getElem_range, Cbuf.getElem_block _ _ _ _ (Nat.mod_lt j (by decide)),
      Nat.div_add_mod, Nat.zero_add]
  · rw [List.getElem?_eq_none (by simpa using hj), List.getElem?_eq_none (by simpa using hj)]

theorem blockIn_eq (s : State) (i : Nat) : blockIn s i = Cbuf.block s.port.resets s.cbuf i := rfl

theorem getElem_blockIn (s : State) (i : Nat) {k : Nat} (hk : k < 32) : (blockIn s i)[k] = byteIn s (32 * i + k) :=
  Cbuf.getElem_block _ _ _ _ hk

/-- Where the bytes agree the blocks do. -/
theorem blockIn_congr {s t : State} {i : Nat} (h : ∀ k, k < 32 → byteIn s (32 * i + k) = byteIn t (32 * i + k)) :
    blockIn s i = blockIn t i :=
  Vector.ext fun k hk => by rw [getElem_blockIn s i hk, getElem_blockIn t i hk, h k hk]

/-- The cluster hash in the words of the statements (R1007). -/
theorem clusterHash_eq (s : State) (m : List Host.Cell) (n : Nat) :
    clusterHash params s m n = hashBlocks (Cbuf.block s.port.resets m) n := by
  rw [clusterHash, Cbuf.read_eq_bytesOfBlocks, hashBlocks]

theorem hashBlocks_congr {f g : Nat → Block} {n : Nat} (h : ∀ i, i < n → f i = g i) : hashBlocks f n = hashBlocks g n := by
  have hmap : (List.range n).map f = (List.range n).map g := List.map_congr_left fun i hi => h i (List.mem_range.mp hi)
  rw [hashBlocks, hashBlocks, hmap]

/-- The count offset in the words of the statements (R1004, R1009). -/
theorem padOffset_eq (s : State) (m : List Host.Cell) (n : Nat) :
    padOffset params s m n = countOffset (Cbuf.block s.port.resets m (n - 1)) := by
  simp [padOffset, countOffset, byteOf]

theorem countOffset_lt (b : Block) : countOffset b < 32 := Nat.mod_lt _ (by decide)

theorem blockIn_complete (s : State) : blockIn (complete s) = blockIn s := rfl

theorem clusterReal_le_clusterTotal (t : StreamRegs) : clusterReal t ≤ clusterTotal t := by
  unfold clusterTotal
  split <;> omega

/-- In the states that accept ST.CLUSTER a cluster is to go (R1000, R1001). -/
theorem StreamConsistent.cluster {t : StreamRegs} (h : StreamConsistent t) (hs : t.sstate = .enc ∨ t.sstate = .dec) :
    TransferGeometry t ∧ t.cidx.toNat < t.nclust.toNat := by
  rcases hs with hs | hs
  · simp only [StreamConsistent, hs] at h
    obtain ⟨-, -, hg, hlt, -⟩ := h
    exact ⟨hg, hlt⟩
  · simp only [StreamConsistent, hs] at h
    obtain ⟨-, -, hg, hlt, -⟩ := h
    exact ⟨hg, hlt⟩

/- ST.CLUSTER in state ENC (R1012). -/

theorem length_cipherCluster (p : Params) (s : State) : (cipherCluster p s).length = clusterTotal s.str := by
  rw [cipherCluster, length_cbcEncrypt, Cbuf.length_blocks, clusterSize_eq]

/-- Block `i` of CBUF afterwards is ciphertext block `i`. -/
theorem blockIn_encryptCluster {p : Params} {s : State} {i : Nat} (h : i < (cipherCluster p s).length) :
    blockIn (encryptCluster p s) i = (cipherCluster p s)[i] :=
  Cbuf.block_writeBlocks _ _ h

section EncryptedCluster

variable {s : State} (h1 : 1 ≤ clusterReal s.str)
include h1

/-- Each block is the encryption of the input block chained with the block before (R1002, R1012). -/
theorem blockIn_encryptCluster_chained {i : Nat} (hi : i < clusterTotal s.str) :
    blockIn (encryptCluster params s) i = encryptBlock params
      (xorBytes (inputBlock s i) (if i = 0 then s.str.cv else blockIn (encryptCluster params s) (i - 1)))
      s.cip.key s.str.cidx.toNat i := by
  have hlen : i < (cipherCluster params s).length := by rwa [length_cipherCluster]
  have hbefore : i - 1 < (cipherCluster params s).length := by omega
  have hblocks : i < (Cbuf.blocks s.port.resets (plainCluster params s) (clusterSize s)).length := by
    rwa [Cbuf.length_blocks, clusterSize_eq]
  rw [blockIn_encryptCluster hlen, blockIn_encryptCluster hbefore, ← block_plainCluster s i h1 hi,
    ← Cbuf.getElem_blocks _ _ hblocks]
  exact (getElem_cbcEncrypt params s.cip.key s.str.cidx.toNat 0 s.str.cv _ i hblocks).trans (by rw [Nat.zero_add]; rfl)

theorem byteIn_encryptCluster_beyond {j : Nat} (hj : 32 * clusterTotal s.str ≤ j) :
    byteIn (encryptCluster params s) j = byteIn s j := by
  have hnot : ¬j < 32 * (cipherCluster params s).length := by rw [length_cipherCluster]; omega
  exact (Cbuf.byteAt_writeBlocks _ _ _ j).trans
    ((dif_neg hnot).trans (byteAt_plainCluster_beyond s _ j h1 hj))

/-- The chaining value carried on is the last ciphertext block (R1002). -/
theorem encryptCluster_cv :
    (encryptCluster params s).str.cv = blockIn (encryptCluster params s) (clusterTotal s.str - 1) := by
  have hlast : (cipherCluster params s).length - 1 < (cipherCluster params s).length := by
    have := clusterReal_le_clusterTotal s.str
    rw [length_cipherCluster]
    omega
  rw [← length_cipherCluster params s, blockIn_encryptCluster hlast]
  exact lastBlock_eq_getElem s.str.cv hlast

/-- The cluster hash is taken over the plaintext (R1007, R1012). -/
theorem clusterHash_zeroTail :
    clusterHash params s (zeroTail s) (realBlocks s) = hashBlocks (plainBlock s) (clusterReal s.str) := by
  rw [clusterHash_eq, realBlocks_eq]
  exact hashBlocks_congr fun i _ => block_zeroTail s i h1

end EncryptedCluster

/-- Settles O43: the blocks and bytes of CBUF by the lemmas above, the registers as the model writes them. -/
theorem clusterEncrypts : Obligations.ClusterEncrypts := by
  intro s he h
  obtain ⟨hg, hlt⟩ := h.cluster (.inl he)
  obtain ⟨h1, -⟩ := geometry_next hg hlt
  refine ⟨_, exec_stCluster_enc he, fun i hi => blockIn_encryptCluster_chained h1 hi,
    fun j hj => byteIn_encryptCluster_beyond h1 hj, ?_⟩
  rw [blockIn_complete, ← encryptCluster_cv h1, ← clusterHash_zeroTail h1, ← padOffset_zeroTail s h1,
    ← encryptCluster_sstate (p := params) he]
  rfl

/- ST.CLUSTER in state DEC (R1013). -/

theorem getElem_receivedCluster (s : State) {i : Nat} (h : i < (receivedCluster s).length) :
    (receivedCluster s)[i] = blockIn s i :=
  Cbuf.getElem_blocks _ _ h

theorem length_receivedCluster (s : State) : (receivedCluster s).length = clusterTotal s.str := by
  rw [receivedCluster, Cbuf.length_blocks, clusterSize_eq]

/-- Each block is the decryption chained with the ciphertext block before (R1003, R1013). -/
theorem blockIn_decryptCluster (p : Params) {s : State} {i : Nat} (hi : i < clusterTotal s.str) :
    blockIn (decryptCluster p s) i = xorBytes (decryptBlock p (blockIn s i) s.cip.key s.str.cidx.toNat i)
      (if i = 0 then s.str.cv else blockIn s (i - 1)) := by
  have hlen : i < (receivedCluster s).length := by rwa [length_receivedCluster]
  have hbefore : i - 1 < (receivedCluster s).length := by omega
  rw [← getElem_receivedCluster s hlen, ← getElem_receivedCluster s hbefore]
  refine (Cbuf.block_writeBlocks _ _ (by rwa [length_cbcDecrypt])).trans ?_
  rw [getElem_cbcDecrypt p s.cip.key s.str.cidx.toNat 0 s.str.cv _ i hlen, Nat.zero_add]
  rfl

theorem byteIn_decryptCluster_beyond (p : Params) {s : State} {j : Nat} (hj : 32 * clusterTotal s.str ≤ j) :
    byteIn (decryptCluster p s) j = byteIn s j := by
  refine (Cbuf.byteAt_writeBlocks _ _ _ j).trans (dif_neg ?_)
  rw [length_cbcDecrypt, length_receivedCluster]
  omega

/-- The chaining value carried on is the last ciphertext block (R1003). -/
theorem decryptCluster_cv (p : Params) {s : State} (h1 : 1 ≤ clusterReal s.str) :
    (decryptCluster p s).str.cv = blockIn s (clusterTotal s.str - 1) := by
  have hlast : (receivedCluster s).length - 1 < (receivedCluster s).length := by
    have := clusterReal_le_clusterTotal s.str
    rw [length_receivedCluster]
    omega
  rw [← length_receivedCluster s, ← getElem_receivedCluster s hlast]
  exact lastBlock_eq_getElem s.str.cv hlast

/-- The offset at which the count is read (R1009). -/
theorem padOffset_decryptedCbuf (s : State) :
    padOffset params s (decryptedCbuf params s) (realBlocks s)
      = countOffset (blockIn (decryptCluster params s) (clusterReal s.str - 1)) :=
  padOffset_eq s _ _

/-- The count byte, read in the decrypted pad block (R1009). -/
theorem rawCount_eq (s : State) :
    rawCount params s = byteIn (decryptCluster params s)
      (32 * clusterReal s.str + countOffset (blockIn (decryptCluster params s) (clusterReal s.str - 1))) := by
  rw [← padOffset_decryptedCbuf]
  rfl

theorem clusterHash_decryptedCbuf (s : State) :
    clusterHash params s (decryptedCbuf params s) (realBlocks s)
      = hashBlocks (blockIn (decryptCluster params s)) (clusterReal s.str) :=
  clusterHash_eq s _ _

/-- Settles O44: the blocks and bytes of CBUF by the lemmas above, the registers as the model writes them. -/
theorem clusterDecrypts : Obligations.ClusterDecrypts := by
  intro s hd h
  obtain ⟨hg, hlt⟩ := h.cluster (.inr hd)
  obtain ⟨h1, -⟩ := geometry_next hg hlt
  refine ⟨_, _, rawCount params s, exec_stCluster_dec hd, fun i hi => blockIn_decryptCluster params hi,
    fun j hj => byteIn_decryptCluster_beyond params hj, rfl, rawCount_eq s, ?_⟩
  rw [blockIn_complete, ← padOffset_decryptedCbuf, ← clusterHash_decryptedCbuf, ← decryptCluster_cv params h1,
    ← decryptCluster_sstate (p := params) hd]
  rfl

/- The round trip from a sender to a receiver (R1018). -/

/-- The receiver `d` stands at the cluster the sender `e` stands at, with the same key, chaining value and hashes. -/
structure InStep (e d : State) : Prop where
  key : d.cip.key = e.cip.key
  cidx : d.str.cidx = e.str.cidx
  nblk : d.str.nblk = e.str.nblk
  cv : d.str.cv = e.str.cv
  hashes : d.str.hashes = e.str.hashes

/-- Both see a cluster of the same form (R1001). -/
theorem InStep.clusterReal_eq {e d : State} (h : InStep e d) : clusterReal d.str = clusterReal e.str := by
  rw [clusterReal, clusterReal, h.nblk, h.cidx]

theorem InStep.finalCluster_eq {e d : State} (h : InStep e d) : finalCluster d.str = finalCluster e.str := by
  rw [finalCluster, finalCluster, h.nblk, h.cidx]

theorem InStep.clusterTotal_eq {e d : State} (h : InStep e d) : clusterTotal d.str = clusterTotal e.str := by
  rw [clusterTotal, clusterTotal, h.clusterReal_eq, h.finalCluster_eq]

/-- A count the sender writes is in range, and stands for the bytes of the last real block (R1004, R1009). -/
theorem lastBytes_ofNat_mod {l n : Nat} (hl : ceilDiv l 32 = n) (hn : 1 ≤ n) :
    32 * (n - 1) + lastBytes (BitVec.ofNat 8 (l % 32)) = l := by
  have hcount : (BitVec.ofNat 8 (l % 32)).toNat = l % 32 := Nat.mod_eq_of_lt (by omega)
  rw [lastBytes, hcount]
  simp only [ceilDiv] at hl
  split <;> omega

/-- A sender's block count is that of its real length (R1010). -/
theorem StreamConsistent.ceilDiv_realLen {t : StreamRegs} (h : StreamConsistent t) (hs : t.sstate = .enc) :
    ceilDiv t.realLen.toNat 32 = t.nblk.toNat := by
  simp only [StreamConsistent, hs] at h
  obtain ⟨-, -, -, -, -, hreal, -⟩ := h
  exact hreal

/-- A receiver has no PADERR before its final cluster (R1011, R1013). -/
theorem StreamConsistent.padErr_eq {t : StreamRegs} (h : StreamConsistent t) (hs : t.sstate = .dec) :
    t.padErr = false := by
  simp only [StreamConsistent, hs] at h
  obtain ⟨-, -, -, -, -, -, -, -, hpad⟩ := h
  exact hpad

theorem decryptCluster_final {s : State} (hf : finalCluster s.str = true) :
    (decryptCluster params s).str.realLen
        = BitVec.ofNat 64 (32 * (s.str.nblk.toNat - 1) + lastBytes (rawCount params s))
      ∧ (decryptCluster params s).str.outLen
        = BitVec.ofNat 32 (32 * (clusterReal s.str - 1) + lastBytes (rawCount params s)) :=
  ⟨if_pos hf, if_pos hf⟩

section RoundTrip

variable {e d : State} (hstep : InStep e d)
  (hout : ∀ i, i < clusterTotal e.str → blockIn d i = blockIn (encryptCluster params e) i)
  (h1 : 1 ≤ clusterReal e.str)
include hstep hout h1

/-- Decryption gives back each block that was encrypted, the pad block among them. -/
theorem blockIn_roundTrip {i : Nat} (hi : i < clusterTotal e.str) :
    blockIn (decryptCluster params d) i = inputBlock e i := by
  have hchain : (if i = 0 then d.str.cv else blockIn d (i - 1))
      = if i = 0 then e.str.cv else blockIn (encryptCluster params e) (i - 1) := by
    rw [hstep.cv, hout (i - 1) (by omega)]
  have hi' : i < clusterTotal d.str := by rwa [hstep.clusterTotal_eq]
  rw [blockIn_decryptCluster params hi', hchain, hout i hi, hstep.key, hstep.cidx,
    blockIn_encryptCluster_chained h1 hi, decryptBlock_encryptBlock, xorBytes_cancel]

theorem blockIn_roundTrip_plain {i : Nat} (hi : i < clusterReal e.str) :
    blockIn (decryptCluster params d) i = plainBlock e i := by
  rw [blockIn_roundTrip hstep hout h1 (hi.trans_le (clusterReal_le_clusterTotal e.str)),
    inputBlock_plain e (ne_of_lt hi)]

theorem byteIn_roundTrip_pad (hf : finalCluster e.str = true) {k : Nat} (hk : k < 32) :
    byteIn (decryptCluster params d) (32 * clusterReal e.str + k) = (padBlock e)[k] := by
  have hpad : clusterReal e.str < clusterTotal e.str := by
    rw [← clusterSize_eq, clusterSize_final hf]
    exact Nat.lt_succ_self _
  have hblock : blockIn (decryptCluster params d) (clusterReal e.str) = padBlock e :=
    (blockIn_roundTrip hstep hout h1 hpad).trans (inputBlock_pad e)
  rw [← getElem_blockIn _ _ hk]
  simp only [hblock]

/-- On the final cluster the receiver finds the sender's count at the sender's offset (R1004, R1009). -/
theorem rawCount_roundTrip (hf : finalCluster e.str = true) :
    rawCount params d = BitVec.ofNat 8 (e.str.realLen.toNat % 32) := by
  rw [rawCount_eq, hstep.clusterReal_eq, blockIn_roundTrip_plain hstep hout h1 (Nat.sub_lt h1 Nat.one_pos),
    byteIn_roundTrip_pad hstep hout h1 hf (countOffset_lt _), getElem_padBlock e h1 _ (countOffset_lt _),
    padOffset_zeroTail e h1, if_pos rfl]

/-- The chaining values carried on are the same (R1002, R1003). -/
theorem cv_roundTrip : (decryptCluster params d).str.cv = (encryptCluster params e).str.cv := by
  have hreal : 1 ≤ clusterReal d.str := by rwa [hstep.clusterReal_eq]
  have htotal := h1.trans (clusterReal_le_clusterTotal e.str)
  rw [decryptCluster_cv params hreal, encryptCluster_cv h1, hstep.clusterTotal_eq,
    hout _ (Nat.sub_lt htotal Nat.one_pos)]

/-- Both sides record the hash of the same plaintext (R1007). -/
theorem hashes_roundTrip : (decryptCluster params d).str.hashes = (encryptCluster params e).str.hashes := by
  have hhash : clusterHash params d (decryptedCbuf params d) (realBlocks d)
      = clusterHash params e (zeroTail e) (realBlocks e) := by
    rw [clusterHash_decryptedCbuf, clusterHash_zeroTail h1, hstep.clusterReal_eq]
    exact hashBlocks_congr fun i hi => blockIn_roundTrip_plain hstep hout h1 hi
  show d.str.hashes ++ [_] = e.str.hashes ++ [_]
  rw [hstep.hashes, hhash]

/-- The sender's count is no pad error (R1009, R1013). -/
theorem padErr_roundTrip (hpad : d.str.padErr = false) : (decryptCluster params d).str.padErr = false := by
  refine (if_neg fun ⟨hf, hraw⟩ => ?_).trans hpad
  rw [isFinal_eq, hstep.finalCluster_eq] at hf
  rw [rawCount_roundTrip hstep hout h1 hf, BitVec.toNat_ofNat] at hraw
  omega

/-- The receiver recovers the real length (R1009, R1013). -/
theorem realLen_roundTrip (hf : finalCluster e.str = true)
    (hall : 128 * e.str.cidx.toNat + clusterReal e.str = e.str.nblk.toNat)
    (hl : ceilDiv e.str.realLen.toNat 32 = e.str.nblk.toNat) :
    (decryptCluster params d).str.realLen = e.str.realLen := by
  obtain ⟨hrealLen, -⟩ := decryptCluster_final (hstep.finalCluster_eq.trans hf)
  rw [hrealLen, rawCount_roundTrip hstep hout h1 hf, hstep.nblk, lastBytes_ofNat_mod hl (by omega),
    BitVec.ofNat_toNat, BitVec.setWidth_eq]

/-- The output length of the final cluster is what the clusters before it leave of the real length (R1013). -/
theorem outLen_roundTrip (hf : finalCluster e.str = true) (hmax : clusterReal e.str ≤ 128)
    (hall : 128 * e.str.cidx.toNat + clusterReal e.str = e.str.nblk.toNat)
    (hl : ceilDiv e.str.realLen.toNat 32 = e.str.nblk.toNat) :
    (decryptCluster params d).str.outLen.toNat + 4096 * e.str.cidx.toNat = e.str.realLen.toNat := by
  have hlast := lastBytes_ofNat_mod hl (by omega)
  have hbound := lastBytes_bounds (BitVec.ofNat 8 (e.str.realLen.toNat % 32))
  obtain ⟨-, houtLen⟩ := decryptCluster_final (hstep.finalCluster_eq.trans hf)
  rw [houtLen, rawCount_roundTrip hstep hout h1 hf, hstep.clusterReal_eq, BitVec.toNat_ofNat]
  omega

end RoundTrip

/-- Settles O47, by the two directions of ST.CLUSTER on the same ciphertext blocks. -/
theorem clusterRoundTrip : Obligations.ClusterRoundTrip := by
  intro e d e' he hd hce hcd hkey hcidx hnblk hcv hhashes hexec hbytes
  obtain rfl := Host.Outcome.next.inj ((exec_stCluster_enc he).symm.trans hexec)
  have hstep : InStep e d := ⟨hkey, hcidx, hnblk, hcv, hhashes⟩
  have hout : ∀ i, i < clusterTotal e.str → blockIn d i = blockIn (encryptCluster params e) i :=
    fun i hi => blockIn_congr fun k hk => hbytes (32 * i + k) (by omega)
  obtain ⟨hg, hlt⟩ := hce.cluster (.inl he)
  obtain ⟨h1, hmax, -, -, -, hall, -⟩ := geometry_next hg hlt
  have hl := hce.ceilDiv_realLen he
  refine ⟨_, exec_stCluster_dec hd, fun i hi => blockIn_roundTrip_plain hstep hout h1 hi, hkey,
    congrArg (· + 1) hcidx, hnblk, cv_roundTrip hstep hout h1, hashes_roundTrip hstep hout h1,
    padErr_roundTrip hstep hout h1 (hcd.padErr_eq hd), fun hf => ⟨?_, ?_⟩⟩
  · exact realLen_roundTrip hstep hout h1 hf (hall hf) hl
  · exact outLen_roundTrip hstep hout h1 hf hmax (hall hf) hl

end Sys2Proof.Machine
end

section
/-! PROOFS. The turns of the machine from outside: the engine runs the command in LASTCMD, a reset, and what a host
write to a control register, a data register or any other offset does (47_system.md R1100 to R1106; 20_memory.md R203). -/

namespace Sys2Proof.Machine

/- The engine's turn (R1101). -/

/-- A command in flight runs (R1101). -/
theorem step_of_decode {s u : State} {i : Instr} (hn : EngineNext s u) (hb : s.ctl.busy = true)
    (h : decode s.ctl.lastCmd = .ok i) : step s = exec i u := by
  rw [← hn.ctl_eq] at hb h
  rw [step_engine hn, engineTurn, if_pos hb, runCommand, h]

/-- Settles O6: a command in flight runs, and the model's meanings are those at the default parameters. -/
theorem stepRunsDecodedCommand : Obligations.StepRunsDecodedCommand :=
  ⟨fun _ _ _ => step_of_decode, fun i s => (execAt_params i s).symm, fun s => (stepAt_params s).symm⟩

/- Writes to CTRL, STATUS and CMD (R1100, R1103 to R1105). -/

section ControlWrites

variable {s u : State} {w : Word}

theorem step_writeCtrl (hn : HostNext (.write (windowAddr 0x010) 4 w) s u) : step s = .next (writeCtrl w u) := by
  rw [step_write hn rfl (by decide), winReg_single (0x010, .ctrl) (by decide)]
  rfl

theorem step_writeStatus (hn : HostNext (.write (windowAddr 0x014) 4 w) s u) : step s = .next (writeStatus w u) := by
  rw [step_write hn rfl (by decide), winReg_single (0x014, .status) (by decide)]
  rfl

theorem step_present (hn : HostNext (.write (windowAddr 0x018) 4 w) s u) : step s = .next (present w u) := by
  rw [step_write hn rfl (by decide), winReg_single (0x018, .cmd) (by decide)]
  rfl

end ControlWrites

/-- A command is refused with OVR while another is in flight or an error stands (R1100). -/
theorem present_refused {s : State} (w : Word) (h : s.ctl.busy = true ∨ s.ctl.err = true) :
    present w s = refuseWrite s :=
  if_pos ((Bool.or_eq_true _ _).mpr h)

/-- Otherwise the command is in flight (R1100). -/
theorem present_accepted {s : State} (w : Word) (hb : s.ctl.busy = false) (he : s.ctl.err = false) :
    present w s = { s with ctl.lastCmd := w, ctl.done := false, ctl.busy := true } := by
  simp [present, hb, he]

theorem writeCtrl_softReset {w : Word} (s : State) (h : w.getLsbD 8 = true) : writeCtrl w s = resetBlock s := if_pos h

theorem writeCtrl_errClear {w : Word} (s : State) (h8 : w.getLsbD 8 = false) (h9 : w.getLsbD 9 = true) :
    writeCtrl w s = errClear (w.getLsbD 0) (w.getLsbD 1) s := by
  simp only [writeCtrl, h8, h9, Bool.false_eq_true, if_false, if_true]

theorem writeCtrl_enables {w : Word} (s : State) (h8 : w.getLsbD 8 = false) (h9 : w.getLsbD 9 = false) :
    writeCtrl w s = { s with ctl.ieDone := w.getLsbD 0, ctl.ieErr := w.getLsbD 1 } := by
  simp only [writeCtrl, h8, h9, Bool.false_eq_true, if_false]

theorem writeStatus_doneClear {w : Word} (s : State) (h : w.getLsbD 1 = true) :
    writeStatus w s = { s with ctl.done := false } := if_pos h

theorem writeStatus_ignored {w : Word} (s : State) (h : w.getLsbD 1 = false) : writeStatus w s = s := by
  simp only [writeStatus, h, Bool.false_eq_true, if_false]

/-- A CMD write while BUSY or ERR changes nothing but OVR (R1100, R1106). -/
theorem step_present_refused {s u : State} {w : Word} (hn : HostNext (.write (windowAddr 0x018) 4 w) s u)
    (h : s.ctl.busy = true ∨ s.ctl.err = true) : step s = .next (refuseWrite u) := by
  rw [← hn.ctl_str.1] at h
  rw [step_present hn, present_refused w h]

/-- Settles O7, by the two branches of command acceptance. -/
theorem commandAcceptance : Obligations.CommandAcceptance := by
  refine fun s u w hn => ⟨step_present_refused hn, fun hb he => ?_⟩
  rw [← hn.ctl_str.1] at hb he
  rw [step_present hn, present_accepted w hb he]

/-- Settles O49: both sources are the one reset operation, which keeps only the model's own fields. -/
theorem resetSources : Obligations.ResetSources := by
  refine fun s => ⟨fun rest h => ?_, fun u w hn h => ?_⟩
  · rw [step_powerOn h, resetBlock]
  · rw [step_writeCtrl hn, writeCtrl_softReset u h, resetBlock]

/-- Settles O50, by the bits of the written word. -/
theorem errorClearAndDoneClear : Obligations.ErrorClearAndDoneClear := by
  refine fun s u w => ⟨fun hn h8 h9 => ?_, fun hn h8 h9 => ?_, fun hn h => ?_, fun hn h => ?_⟩
  · rw [step_writeCtrl hn, writeCtrl_errClear u h8 h9, errClear]
  · rw [step_writeCtrl hn, writeCtrl_enables u h8 h9]
  · rw [step_writeStatus hn, writeStatus_doneClear u h]
  · rw [step_writeStatus hn, writeStatus_ignored u h]

/- Refused and ignored writes (R203, R1106). -/

/-- A data register refuses every write while a command is in flight (R1106). -/
theorem writeWord_refused_of_busy {r : WinReg} {s : State} (w : Word) (hr : isDataReg r = true)
    (hb : s.ctl.busy = true) : writeWord r w s = refuseWrite s := by
  cases r with
  | ctrl | status | cmd => cases hr
  | _ => simp only [writeWord, hr, hb, if_true]

/-- A word of the window that neither acts nor is a data register ignores writes (R203). -/
theorem writeWord_ignored {r : WinReg} (w : Word) (s : State) (hr : isDataReg r = false) (hctrl : r ≠ .ctrl)
    (hstatus : r ≠ .status) (hcmd : r ≠ .cmd) : writeWord r w s = s := by
  cases r with
  | ctrl => exact absurd rfl hctrl
  | status => exact absurd rfl hstatus
  | cmd => exact absurd rfl hcmd
  | _ => simp only [writeWord, hr, Bool.false_eq_true, if_false]

/-- A KEY offset names a KEY word (R120, R202). -/
theorem KeyOffset.winReg_eq {off : Nat} (h : KeyOffset off) : ∃ j, winReg params off = .key j := by
  obtain ⟨h4, hlow, hhigh⟩ := h
  obtain ⟨j, rfl⟩ := exists_arrayIndex (base := 0x080) (n := 8) h4 rfl hlow (by omega)
  exact ⟨j, (winReg_arrays j).1⟩

theorem KeyOffset.lt {off : Nat} (h : KeyOffset off) : off < Config.windowBytes := by
  obtain ⟨-, -, hhigh⟩ := h
  simp only [Config.windowBytes]
  omega

/-- Every data register stands at a data offset, the digits as far as MAX_DIGITS (R107, R202). -/
theorem dataOffset_regOffset {r : WinReg} (hr : isDataReg r = true) (hdig : ∀ i, r = .biwDig i → i.val < 128) :
    DataOffset (regOffset r) := by
  unfold DataOffset
  cases r with
  | biwDig i =>
    have := hdig i rfl
    simp only [regOffset]
    omega
  | biwSign | biwLen | idxCluster | idxBlock | idxRound | lenLo | lenHi => decide
  | key j | iv j | rxTrailer j | blk j | blk2 j | cbuf k =>
    simp only [regOffset]
    omega
  | _ => cases hr

/-- Only the data offsets name data registers (R202). -/
theorem dataOffset_of_isDataReg {off : Nat} (h4 : off % 4 = 0) (h : isDataReg (winReg params off) = true) :
    DataOffset off :=
  regOffset_winReg h4 (ne_reserved_of_isDataReg h) ▸ dataOffset_regOffset h fun _ hi => winReg_biwDig_lt hi

/-- The word at an offset that is not that of `r` is not `r` (R202). -/
theorem winReg_ne_of_ne {off : Nat} {r : WinReg} (h4 : off % 4 = 0) (hr : r ≠ .reserved) (h : off ≠ regOffset r) :
    winReg params off ≠ r := by
  rintro rfl
  exact h (regOffset_winReg h4 hr).symm

/-- Settles O51: the offset names the word, and the word refuses the write or ignores it. -/
theorem refusedAndIgnoredWrites : Obligations.RefusedAndIgnoredWrites := by
  intro s u off w hn
  obtain ⟨hctl, hstr⟩ := hn.ctl_str
  refine ⟨?_, fun hdata hb => ?_, fun hkey hopen => ?_, fun h4 hin hdata hctrl hstatus hcmd => ?_⟩
  · rintro rfl h
    exact step_present_refused hn h
  · obtain ⟨h4, -⟩ := id hdata
    rw [step_write hn h4 hdata.lt, writeWord_refused_of_busy w (isDataReg_winReg hdata) (hctl ▸ hb), refuseWrite]
  · obtain ⟨h4, -⟩ := id hkey
    obtain ⟨j, hj⟩ := hkey.winReg_eq
    have hrefused : ¬(u.ctl.busy = false ∧ u.str.sstate = .idle) := fun ⟨_, hidle⟩ => hopen (hstr ▸ hidle)
    rw [step_write hn h4 hkey.lt, hj, writeWord_key_refused hrefused, refuseWrite]
  · have hr : isDataReg (winReg params off) = false :=
      Bool.eq_false_iff.mpr fun h => hdata (dataOffset_of_isDataReg h4 h)
    rw [step_write hn h4 hin, writeWord_ignored w u hr (winReg_ne_of_ne h4 nofun hctrl)
      (winReg_ne_of_ne h4 nofun hstatus) (winReg_ne_of_ne h4 nofun hcmd)]

end Sys2Proof.Machine
end

section
/-! PROOFS. The two ends of a command: completion, or an error that has a code and changes nothing but the error record
(47_system.md R1101; 60_exceptions.md R1202, R1203). -/

namespace Sys2Proof.Machine

/-- Completion after an effect: of the control registers, the effect moves only CMPRES (R135, R1101). -/
theorem CommandEffect.complete_ctl {p : Params} {s u : State} {i : Instr} (h : CommandEffect p s i u) :
    (complete u).ctl = { completedCtl s.ctl with cmpRes := (complete u).ctl.cmpRes } :=
  calc (complete u).ctl
    _ = completedCtl u.ctl := rfl
    _ = completedCtl { s.ctl with cmpRes := u.ctl.cmpRes } := congrArg completedCtl h.ctl_eq
    _ = { completedCtl s.ctl with cmpRes := (complete u).ctl.cmpRes } := rfl

/-- Settles O8, by what the command's rule gives: an effect, which completes, or the error it names. A word that decodes
to no command raises ILLEGAL_OPCODE. -/
theorem everyCommandEnds : Obligations.EveryCommandEnds := by
  refine ⟨fun i s => ?_, fun _ _ => step_of_not_decode⟩
  cases hrule : commandRule params i s with
  | ok u => exact ⟨complete u, exec_of_ok hrule, .inl (commandRule_effect hrule).complete_ctl⟩
  | error c => exact ⟨errored c s, exec_of_error hrule, .inr ⟨c, commandRule_namesError params i s c hrule, rfl⟩⟩

end Sys2Proof.Machine
end
